-- ==== Sys2Proof/Word.lean ====
section
/-! DEFINITION. The two sizes of datum (spec/00_scope.md R2, R4): a 16-bit word and an 8-bit byte. -/

namespace Sys2Proof

/-- A 16-bit word: every register, every memory address, every instruction word (R2, R10). -/
abbrev Word := BitVec 16

/-- An 8-bit datum of memory or of the I/O space (R2). -/
abbrev Byte := BitVec 8

end Sys2Proof
end

