-- ==== Sys2Proof/Config.lean ====
section
/-! DEFINITION. The value types of the spec's policy parameters (spec/00_scope.md section 4) and the free values:
constants without a body, of which no proof can know anything. The parameters' values are definitions in
Decode.lean and in the files under Machine/. -/

namespace Sys2Proof.Config

/-- `RETI_USER`: what RETI does in user mode (R173, decision D17). -/
inductive RetiUser
  | refuse
  | keepEP
  | privViolation
  deriving DecidableEq, Repr

/-- `MBZ_POLICY`: what a non-zero must-be-zero field does (R73, decision D13). -/
inductive MbzPolicy
  | refuse
  | ignore
  deriving DecidableEq, Repr

/-- `COND_D`: what condition code Dh of the jump group does (R77(b), decision D14). -/
inductive CondDPolicy
  | refuse
  | never
  | always
  | undefinedInstruction
  deriving DecidableEq, Repr

/-- `IO_HIGH_POLICY`: what an I/O address above FFh does (R53, decision D23). -/
inductive IoHighPolicy
  | refuse
  | truncate
  deriving DecidableEq, Repr

/-- The operations that `PRIV_SET` may name (R220, decision D15). RETI is not among them: `RETI_USER` rules it. -/
inductive PrivOp
  | inp
  | out
  | ei
  | di
  | halt
  deriving DecidableEq, Repr

/-- The n-th free word: `any value` of 16 bits (spec/93_implementation_defined.md section 1; log 16, 33). -/
opaque freeWord : Nat → Word

/-- The n-th free flag: `any value` of one bit (log 16). -/
opaque freeBit : Nat → Bool

/-- The IPL ROM's byte at an address: the spec's uninterpreted constant (R43, R253; log 4). -/
opaque romByte : Nat → Byte

/-- What RAM or a vector word holds at an address before anything wrote it: `any value` (R253, U31; log 4). -/
opaque ramByte : Nat → Byte

end Sys2Proof.Config
end

