-- ==== Sys2Proof/Syntax.lean ====
section
/-! DEFINITION. The instructions, as data. One constructor for each instruction of spec/opcode_table.json; its
addressing mode is a typed argument, so that a constructor with a mode is exactly one row of the table (log 1). -/

namespace Sys2Proof

/-- The registers an instruction's 4-bit field can name (R11). Number Fh (PC) is no operand: R14 refuses it, and
the decoder rejects it by name. `sp` is number Dh, banked by FLAG.P (R13). -/
inductive Reg
  | g0 | g1 | g2 | g3 | g4 | g5 | g6 | g7 | g8 | g9 | g10 | g11
  | fp
  | sp
  | usp
  deriving DecidableEq, Repr

/-- The eight source operand forms (R72, R80). -/
inductive Src
  /-- `Dsp`, format *0. -/
  | direct (dsp : Word)
  /-- `Dsp,Rx`, format *1. -/
  | indexed (dsp : Word) (rx : Reg)
  /-- `#Imm`, format *2. -/
  | imm (v : Word)
  /-- `Dsp4,FP`, format *3; the field holds D4 = Dsp4/2. -/
  | fpRel (d4 : BitVec 4)
  /-- `Rs`, format *4. -/
  | reg (rs : Reg)
  /-- `#Imm4`, format *5. -/
  | imm4 (i4 : BitVec 4)
  /-- `0,Rx`, format *6. -/
  | indirect (rx : Reg)
  /-- `@Rx`, format *7. -/
  | byteIndirect (rx : Reg)
  deriving DecidableEq, Repr

/-- The five forms ST accepts (R81). -/
inductive Dst
  | direct (dsp : Word)
  | indexed (dsp : Word) (rx : Reg)
  | fpRel (d4 : BitVec 4)
  | indirect (rx : Reg)
  | byteIndirect (rx : Reg)
  deriving DecidableEq, Repr

/-- The three forms a jump and CALL accept (R81). -/
inductive Target
  | direct (dsp : Word)
  | indexed (dsp : Word) (rx : Reg)
  | indirect (rx : Reg)
  deriving DecidableEq, Repr

/-- The three forms IN and OUT accept (R81). -/
inductive Port
  | direct (dsp : Word)
  | indirect (rx : Reg)
  | byteIndirect (rx : Reg)
  deriving DecidableEq, Repr

/-- The 46 instructions (R74, R76). -/
inductive Instr
  | no
  | ld (rd : Reg) (ea : Src)
  | st (rd : Reg) (ea : Dst)
  | ldFlag (rd : Reg)
  | add (rd : Reg) (ea : Src)
  | sub (rd : Reg) (ea : Src)
  | cmp (rd : Reg) (ea : Src)
  | and (rd : Reg) (ea : Src)
  | or (rd : Reg) (ea : Src)
  | xor (rd : Reg) (ea : Src)
  | adds (rd : Reg) (ea : Src)
  | mul (rd : Reg) (ea : Src)
  | div (rd : Reg) (ea : Src)
  | mod (rd : Reg) (ea : Src)
  | mull (rd : Reg) (ea : Src)
  | divl (rd : Reg) (ea : Src)
  | shla (rd : Reg) (ea : Src)
  | shll (rd : Reg) (ea : Src)
  | shra (rd : Reg) (ea : Src)
  | shrl (rd : Reg) (ea : Src)
  | jz (ea : Target)
  | jc (ea : Target)
  | jm (ea : Target)
  | jo (ea : Target)
  | jgt (ea : Target)
  | jge (ea : Target)
  | jle (ea : Target)
  | jlt (ea : Target)
  | jnz (ea : Target)
  | jnc (ea : Target)
  | jnm (ea : Target)
  | jno (ea : Target)
  | jhi (ea : Target)
  | jls (ea : Target)
  | jmp (ea : Target)
  | call (ea : Target)
  | inp (rd : Reg) (ea : Port)
  | out (rd : Reg) (ea : Port)
  | push (rd : Reg)
  | pop (rd : Reg)
  | ret
  | reti
  | ei
  | di
  | svc
  | halt
  deriving DecidableEq, Repr

end Sys2Proof
end

