-- ==== Sys2Proof/WellFormed.lean ====
section
/-! DEFINITION. What the syntax cannot express and the spec still asks of an instruction: the register pair of MULL
and DIVL (spec/42_mul_div.md R126). Every other field is right by its type. -/

namespace Sys2Proof

/-- An even register number, note 1 of the sheet (R126). -/
def Reg.isEven : Reg → Bool
  | .g0 | .g2 | .g4 | .g6 | .g8 | .g10 | .fp | .usp => true
  | .g1 | .g3 | .g5 | .g7 | .g9 | .g11 | .sp => false

/-- Rd may head a register pair: even, and not USP, whose partner would be number Fh (R126). -/
def Reg.headsPair (r : Reg) : Bool :=
  r.isEven && r != .usp

/-- An instruction the encoding admits (R82 step 6). -/
def Instr.wf : Instr → Bool
  | .mull rd _ => rd.headsPair
  | .divl rd _ => rd.headsPair
  | _ => true

end Sys2Proof
end

