-- ==== Sys2Proof/Decode.lean ====
section
/-! DEFINITION. Decoding and encoding of instruction words (spec/30_encoding.md). The decoder is total and rejects by
name (R82); the encoder writes the words of an instruction from the same OP map (R74). -/

namespace Sys2Proof

/-- Why a word is no instruction. -/
inductive DecodeStop
  /-- The OP byte is one of the 93 blank cells (R77(a)): the machine raises UndefinedInstruction. -/
  | undefinedOp
  /-- A must-be-zero field is not zero (R73). -/
  | mbzField
  /-- Condition code Dh of the jump group (R77(b)). -/
  | condD
  /-- A register field holds Fh (R14). -/
  | pcOperand
  /-- MULL or DIVL with an odd Rd or with Rd = Eh (R126). -/
  | oddPairRegister
  deriving DecidableEq, Repr

/-- Why a list of bytes begins with no instruction. -/
inductive BytesStop
  /-- Its first word is no instruction. -/
  | word (r : DecodeStop)
  /-- It ends inside the instruction; a fetch from memory never does. -/
  | truncated
  deriving DecidableEq, Repr

/-- `MBZ_POLICY` of this hardware (R73). -/
def mbzPolicy : Config.MbzPolicy := .refuse

/-- `COND_D` of this hardware (R77(b)). -/
def condDPolicy : Config.CondDPolicy := .refuse

/-! ### The fields of the first word (R70, R71) -/

/-- The OP byte, bits 15..8 (R70). -/
def opByte (w : Word) : Byte := w.extractLsb' 8 8

/-- The operation, the upper five bits of the OP byte (R71). -/
def opField (w : Word) : BitVec 5 := w.extractLsb' 11 5

/-- The addressing mode, the lower three bits of the OP byte (R71). -/
def modeField (w : Word) : BitVec 3 := w.extractLsb' 8 3

/-- Rd, or the condition code of the jump group, bits 7..4 (R70, R76). -/
def rdField (w : Word) : BitVec 4 := w.extractLsb' 4 4

/-- Rx, Rs, D4 or I4, bits 3..0 (R70). -/
def rxField (w : Word) : BitVec 4 := w.extractLsb' 0 4

/-- The register a field value names (R11); none for Fh (R14). -/
def Reg.ofField (f : BitVec 4) : Option Reg :=
  match f.toNat with
  | 0 => some .g0
  | 1 => some .g1
  | 2 => some .g2
  | 3 => some .g3
  | 4 => some .g4
  | 5 => some .g5
  | 6 => some .g6
  | 7 => some .g7
  | 8 => some .g8
  | 9 => some .g9
  | 10 => some .g10
  | 11 => some .g11
  | 12 => some .fp
  | 13 => some .sp
  | 14 => some .usp
  | _ => none

/-- The field value that names a register (R11). -/
def Reg.toField : Reg → BitVec 4
  | .g0 => 0x0
  | .g1 => 0x1
  | .g2 => 0x2
  | .g3 => 0x3
  | .g4 => 0x4
  | .g5 => 0x5
  | .g6 => 0x6
  | .g7 => 0x7
  | .g8 => 0x8
  | .g9 => 0x9
  | .g10 => 0xA
  | .g11 => 0xB
  | .fp => 0xC
  | .sp => 0xD
  | .usp => 0xE

/-- A register field, refused when it holds Fh (R82 step 5). -/
def regField (f : BitVec 4) : Except DecodeStop Reg :=
  match Reg.ofField f with
  | some r => .ok r
  | none => .error .pcOperand

/-- A must-be-zero field (R73, R82 step 3). -/
def zeroField (f : BitVec 4) : Except DecodeStop Unit :=
  if f = 0 ∨ mbzPolicy = .ignore then .ok () else .error .mbzField

/-! ### The operand forms. Each answers a function of the second word, which only the formats *0, *1, *2 read. -/

/-- The eight source forms (R72, R81). -/
def srcForm (m : BitVec 3) (rx : BitVec 4) : Except DecodeStop (Word → Src) :=
  match m.toNat with
  | 0 => do zeroField rx; .ok (fun w2 => .direct w2)
  | 1 => do let x ← regField rx; .ok (fun w2 => .indexed w2 x)
  | 2 => do zeroField rx; .ok (fun w2 => .imm w2)
  | 3 => .ok (fun _ => .fpRel rx)
  | 4 => do let s ← regField rx; .ok (fun _ => .reg s)
  | 5 => .ok (fun _ => .imm4 rx)
  | 6 => do let x ← regField rx; .ok (fun _ => .indirect x)
  | _ => do let x ← regField rx; .ok (fun _ => .byteIndirect x)

/-- The five store forms; the cells of modes 2 and 5 are blank and that of mode 4 is `LD Rd,FLAG` (R81, R102). -/
def dstForm (m : BitVec 3) (rx : BitVec 4) : Except DecodeStop (Word → Dst) :=
  match m.toNat with
  | 0 => do zeroField rx; .ok (fun w2 => .direct w2)
  | 1 => do let x ← regField rx; .ok (fun w2 => .indexed w2 x)
  | 3 => .ok (fun _ => .fpRel rx)
  | 6 => do let x ← regField rx; .ok (fun _ => .indirect x)
  | 7 => do let x ← regField rx; .ok (fun _ => .byteIndirect x)
  | _ => .error .undefinedOp

/-- The three I/O forms (R81). -/
def portForm (m : BitVec 3) (rx : BitVec 4) : Except DecodeStop (Word → Port) :=
  match m.toNat with
  | 0 => do zeroField rx; .ok (fun w2 => .direct w2)
  | 6 => do let x ← regField rx; .ok (fun _ => .indirect x)
  | 7 => do let x ← regField rx; .ok (fun _ => .byteIndirect x)
  | _ => .error .undefinedOp

/-- The jump group's and CALL's modes (R81): blank, or with a must-be-zero field, or with Rx. -/
def jumpModeDefined (m : BitVec 3) : Bool :=
  m == 0 || m == 1 || m == 6

/-- The must-be-zero part of a jump's or CALL's Rx field: in mode 0 (R73). -/
def targetZero (m : BitVec 3) (rx : BitVec 4) : Except DecodeStop Unit :=
  if m = 0 then zeroField rx else .ok ()

/-- The three jump target forms, once their must-be-zero field is checked (R79). -/
def targetForm (m : BitVec 3) (rx : BitVec 4) : Except DecodeStop (Word → Target) :=
  match m.toNat with
  | 0 => .ok (fun w2 => .direct w2)
  | 1 => do let x ← regField rx; .ok (fun w2 => .indexed w2 x)
  | 6 => do let x ← regField rx; .ok (fun _ => .indirect x)
  | _ => .error .undefinedOp

/-- The fifteen jumps by condition code (R76). -/
def jumpOfCond (cc : BitVec 4) : Option (Target → Instr) :=
  match cc.toNat with
  | 0 => some .jz
  | 1 => some .jc
  | 2 => some .jm
  | 3 => some .jo
  | 4 => some .jgt
  | 5 => some .jge
  | 6 => some .jle
  | 7 => some .jlt
  | 8 => some .jnz
  | 9 => some .jnc
  | 10 => some .jnm
  | 11 => some .jno
  | 12 => some .jhi
  | 14 => some .jls
  | 15 => some .jmp
  | _ => none

/-! ### The groups of the OP map (R74). Must-be-zero fields are checked before register fields (R82). -/

/-- An operation with the eight source forms. -/
def srcGroup (mk : Reg → Src → Instr) (m : BitVec 3) (rd rx : BitVec 4) :
    Except DecodeStop (Word → Instr) := do
  let src ← srcForm m rx
  let d ← regField rd
  .ok (fun w2 => mk d (src w2))

/-- MULL and DIVL: the pair restriction after the register fields (R82 step 6, R126). -/
def pairGroup (mk : Reg → Src → Instr) (m : BitVec 3) (rd rx : BitVec 4) :
    Except DecodeStop (Word → Instr) := do
  let src ← srcForm m rx
  let d ← regField rd
  if d.headsPair then .ok (fun w2 => mk d (src w2)) else .error .oddPairRegister

/-- Format *8: Rd only, Rx zero. -/
def regGroup (mk : Reg → Instr) (rd rx : BitVec 4) : Except DecodeStop (Word → Instr) := do
  zeroField rx
  let d ← regField rd
  .ok (fun _ => mk d)

/-- Format *9: no operand, Rd and Rx zero. -/
def noGroup (i : Instr) (rd rx : BitVec 4) : Except DecodeStop (Word → Instr) := do
  zeroField rd
  zeroField rx
  .ok (fun _ => i)

/-- The ST row: five store forms, and `LD Rd,FLAG` in the cell of mode 4 (R74, R103). -/
def storeGroup (m : BitVec 3) (rd rx : BitVec 4) : Except DecodeStop (Word → Instr) :=
  if m = 4 then regGroup .ldFlag rd rx
  else do
    let dst ← dstForm m rx
    let d ← regField rd
    .ok (fun w2 => .st d (dst w2))

/-- IN and OUT. -/
def portGroup (mk : Reg → Port → Instr) (m : BitVec 3) (rd rx : BitVec 4) :
    Except DecodeStop (Word → Instr) := do
  let port ← portForm m rx
  let d ← regField rd
  .ok (fun w2 => mk d (port w2))

/-- Condition code Dh under each value of `COND_D` (R77(b)). -/
def condD (m : BitVec 3) (rx : BitVec 4) : Except DecodeStop (Word → Instr) :=
  match condDPolicy with
  | .refuse => .error .condD
  | .undefinedInstruction => .error .undefinedOp
  | .never => do let _ ← targetForm m rx; .ok (fun _ => .no)
  | .always => do let t ← targetForm m rx; .ok (fun w2 => .jmp (t w2))

/-- The jump group: the Rd field is the condition code (R76). -/
def jumpGroup (m : BitVec 3) (cc rx : BitVec 4) : Except DecodeStop (Word → Instr) :=
  if jumpModeDefined m then do
    targetZero m rx
    match jumpOfCond cc with
    | some mk => do let t ← targetForm m rx; .ok (fun w2 => mk (t w2))
    | none => condD m rx
  else .error .undefinedOp

/-- CALL: its Rd field must be zero (R73). -/
def callGroup (m : BitVec 3) (rd rx : BitVec 4) : Except DecodeStop (Word → Instr) :=
  if jumpModeDefined m then do
    zeroField rd
    targetZero m rx
    let t ← targetForm m rx
    .ok (fun w2 => .call (t w2))
  else .error .undefinedOp

/-- The OP map (R74): the instruction a first word stands for, as a function of the second word (R82). -/
def decodeFields (op : BitVec 5) (m : BitVec 3) (rd rx : BitVec 4) : Except DecodeStop (Word → Instr) :=
  match op.toNat with
  | 0 => if m = 0 then noGroup .no rd rx else .error .undefinedOp
  | 1 => srcGroup .ld m rd rx
  | 2 => storeGroup m rd rx
  | 3 => srcGroup .add m rd rx
  | 4 => srcGroup .sub m rd rx
  | 5 => srcGroup .cmp m rd rx
  | 6 => srcGroup .and m rd rx
  | 7 => srcGroup .or m rd rx
  | 8 => srcGroup .xor m rd rx
  | 9 => srcGroup .adds m rd rx
  | 10 => srcGroup .mul m rd rx
  | 11 => srcGroup .div m rd rx
  | 12 => srcGroup .mod m rd rx
  | 13 => pairGroup .mull m rd rx
  | 14 => pairGroup .divl m rd rx
  | 16 => srcGroup .shla m rd rx
  | 17 => srcGroup .shll m rd rx
  | 18 => srcGroup .shra m rd rx
  | 19 => srcGroup .shrl m rd rx
  | 20 => jumpGroup m rd rx
  | 21 => callGroup m rd rx
  | 22 => portGroup .inp m rd rx
  | 23 => portGroup .out m rd rx
  | 24 => if m = 0 then regGroup .push rd rx else if m = 4 then regGroup .pop rd rx else .error .undefinedOp
  | 26 => if m = 0 then noGroup .ret rd rx else if m = 4 then noGroup .reti rd rx else .error .undefinedOp
  | 28 => if m = 0 then noGroup .ei rd rx else if m = 4 then noGroup .di rd rx else .error .undefinedOp
  | 30 => if m = 0 then noGroup .svc rd rx else .error .undefinedOp
  | 31 => if m = 7 then noGroup .halt rd rx else .error .undefinedOp
  | _ => .error .undefinedOp

/-- Decoding of a first word: total, and of no other state (R82). -/
def decodeFirst (w1 : Word) : Except DecodeStop (Word → Instr) :=
  decodeFields (opField w1) (modeField w1) (rdField w1) (rxField w1)

/-- A defined first word is followed by a second word exactly when its format is *0, *1 or *2: the modes 0, 1, 2 of
the operations 08h to BFh (R72). -/
def hasSecondWord (w1 : Word) : Bool :=
  (modeField w1).toNat < 3 && 1 ≤ (opField w1).toNat && (opField w1).toNat ≤ 23

/-- Decoding of a first word with the word that follows it; a one-word instruction does not read `w2`. -/
def decode (w1 w2 : Word) : Except DecodeStop Instr :=
  match decodeFirst w1 with
  | .ok mk => .ok (mk w2)
  | .error r => .error r

/-- Decoding from bytes in memory order, big-endian (R45): the instruction and the bytes after it. -/
def decodeBytes : List Byte → Except BytesStop (Instr × List Byte)
  | b0 :: b1 :: rest =>
    match decodeFirst (b0 ++ b1) with
    | .error r => .error (.word r)
    | .ok mk =>
      if hasSecondWord (b0 ++ b1) then
        match rest with
        | b2 :: b3 :: rest' => .ok (mk (b2 ++ b3), rest')
        | _ => .error .truncated
      else .ok (mk 0, rest)
  | _ => .error .truncated

/-! ### The encoder -/

/-- The first word from its fields (R70). -/
def packWord (op : BitVec 5) (m : BitVec 3) (rd rx : BitVec 4) : Word :=
  op ++ m ++ rd ++ rx

/-- An operation with a source form (R72). -/
def encodeSrc (op : BitVec 5) (rd : Reg) : Src → List Word
  | .direct dsp => [packWord op 0 rd.toField 0, dsp]
  | .indexed dsp rx => [packWord op 1 rd.toField rx.toField, dsp]
  | .imm v => [packWord op 2 rd.toField 0, v]
  | .fpRel d4 => [packWord op 3 rd.toField d4]
  | .reg rs => [packWord op 4 rd.toField rs.toField]
  | .imm4 i4 => [packWord op 5 rd.toField i4]
  | .indirect rx => [packWord op 6 rd.toField rx.toField]
  | .byteIndirect rx => [packWord op 7 rd.toField rx.toField]

/-- ST (R102). -/
def encodeDst (op : BitVec 5) (rd : Reg) : Dst → List Word
  | .direct dsp => [packWord op 0 rd.toField 0, dsp]
  | .indexed dsp rx => [packWord op 1 rd.toField rx.toField, dsp]
  | .fpRel d4 => [packWord op 3 rd.toField d4]
  | .indirect rx => [packWord op 6 rd.toField rx.toField]
  | .byteIndirect rx => [packWord op 7 rd.toField rx.toField]

/-- A jump, `cc` its condition code, or CALL with `cc` = 0 (R140, R156). -/
def encodeTarget (op : BitVec 5) (cc : BitVec 4) : Target → List Word
  | .direct dsp => [packWord op 0 cc 0, dsp]
  | .indexed dsp rx => [packWord op 1 cc rx.toField, dsp]
  | .indirect rx => [packWord op 6 cc rx.toField]

/-- IN and OUT (R160, R161). -/
def encodePort (op : BitVec 5) (rd : Reg) : Port → List Word
  | .direct dsp => [packWord op 0 rd.toField 0, dsp]
  | .indirect rx => [packWord op 6 rd.toField rx.toField]
  | .byteIndirect rx => [packWord op 7 rd.toField rx.toField]

/-- The words of an instruction, first word first (R72, R74, R76). -/
def encode : Instr → List Word
  | .no => [packWord 0 0 0 0]
  | .ld rd ea => encodeSrc 1 rd ea
  | .st rd ea => encodeDst 2 rd ea
  | .ldFlag rd => [packWord 2 4 rd.toField 0]
  | .add rd ea => encodeSrc 3 rd ea
  | .sub rd ea => encodeSrc 4 rd ea
  | .cmp rd ea => encodeSrc 5 rd ea
  | .and rd ea => encodeSrc 6 rd ea
  | .or rd ea => encodeSrc 7 rd ea
  | .xor rd ea => encodeSrc 8 rd ea
  | .adds rd ea => encodeSrc 9 rd ea
  | .mul rd ea => encodeSrc 10 rd ea
  | .div rd ea => encodeSrc 11 rd ea
  | .mod rd ea => encodeSrc 12 rd ea
  | .mull rd ea => encodeSrc 13 rd ea
  | .divl rd ea => encodeSrc 14 rd ea
  | .shla rd ea => encodeSrc 16 rd ea
  | .shll rd ea => encodeSrc 17 rd ea
  | .shra rd ea => encodeSrc 18 rd ea
  | .shrl rd ea => encodeSrc 19 rd ea
  | .jz ea => encodeTarget 20 0x0 ea
  | .jc ea => encodeTarget 20 0x1 ea
  | .jm ea => encodeTarget 20 0x2 ea
  | .jo ea => encodeTarget 20 0x3 ea
  | .jgt ea => encodeTarget 20 0x4 ea
  | .jge ea => encodeTarget 20 0x5 ea
  | .jle ea => encodeTarget 20 0x6 ea
  | .jlt ea => encodeTarget 20 0x7 ea
  | .jnz ea => encodeTarget 20 0x8 ea
  | .jnc ea => encodeTarget 20 0x9 ea
  | .jnm ea => encodeTarget 20 0xA ea
  | .jno ea => encodeTarget 20 0xB ea
  | .jhi ea => encodeTarget 20 0xC ea
  | .jls ea => encodeTarget 20 0xE ea
  | .jmp ea => encodeTarget 20 0xF ea
  | .call ea => encodeTarget 21 0 ea
  | .inp rd ea => encodePort 22 rd ea
  | .out rd ea => encodePort 23 rd ea
  | .push rd => [packWord 24 0 rd.toField 0]
  | .pop rd => [packWord 24 4 rd.toField 0]
  | .ret => [packWord 26 0 0 0]
  | .reti => [packWord 26 4 0 0]
  | .ei => [packWord 28 0 0 0]
  | .di => [packWord 28 4 0 0]
  | .svc => [packWord 30 0 0 0]
  | .halt => [packWord 31 7 0 0]

/-- Words as the bytes of memory, high byte first (R45). -/
def wordBytes : List Word → List Byte
  | [] => []
  | w :: ws => w.extractLsb' 8 8 :: w.extractLsb' 0 8 :: wordBytes ws

/-! ### Words numbered as spec/opcode_table.json numbers them -/

/-- The two words of an instruction whose bits are `w`, bit 0 the least significant bit of the first word; bits from
`nbits` on are zero. -/
def tableWords (nbits w : Nat) : Word × Word :=
  let v := BitVec.ofNat 32 (w % 2 ^ nbits)
  (v.extractLsb' 0 16, v.extractLsb' 16 16)

/-- The bytes of those words as the machine stores them (R45). -/
def tableBytes (nbits w : Nat) : List Byte :=
  let p := tableWords nbits w
  [p.1.extractLsb' 8 8, p.1.extractLsb' 0 8, p.2.extractLsb' 8 8, p.2.extractLsb' 0 8]

/-- The instruction the decoder reads from a word of the opcode table. -/
def decodeTableWord (nbits w : Nat) : Option Instr :=
  match decodeBytes (tableBytes nbits w) with
  | .ok (i, _) => some i
  | .error _ => none

end Sys2Proof
end

