-- ==== Sys2Proof/Machine/State.lean ====
section
/-! DEFINITION. The machine's state, as plain data: every register of spec/10_state.md R10, the state R27 lists, the
ports of spec/60_exceptions.md R224; the outcomes a step may stop with; the state after reset
(spec/70_reset_and_hazards.md R250 to R255). -/

namespace Sys2Proof.Machine

/-! ### CPU registers -/

/-- The fifteen 16-bit registers behind the operand fields (R10): the two stack pointers are separate registers. -/
inductive PReg
  | g0 | g1 | g2 | g3 | g4 | g5 | g6 | g7 | g8 | g9 | g10 | g11
  | fp
  | ssp
  | usp
  deriving DecidableEq, Repr

/-- The general registers, FP, SSP and USP (R10). -/
structure Regs where
  g0 : Word
  g1 : Word
  g2 : Word
  g3 : Word
  g4 : Word
  g5 : Word
  g6 : Word
  g7 : Word
  g8 : Word
  g9 : Word
  g10 : Word
  g11 : Word
  fp : Word
  ssp : Word
  usp : Word
  deriving DecidableEq, Repr

/-- The stored bits of FLAG (R18): bits 15..8, 5 and 4 have no storage (R22). -/
structure Flags where
  e : Bool
  p : Bool
  v : Bool
  c : Bool
  s : Bool
  z : Bool
  deriving DecidableEq, Repr

/-- The four condition flags an instruction marked ○ writes (R19). -/
structure Cond where
  v : Bool
  c : Bool
  s : Bool
  z : Bool
  deriving DecidableEq, Repr

/-! ### Interrupts and exceptions -/

/-- The ten device interrupts (R200, R216). -/
inductive Irq
  | timer0
  | timer1
  | rn4020Rx
  | rn4020Tx
  | ft232rlRx
  | ft232rlTx
  | tecRx
  | tecTx
  | usd
  | adc
  deriving DecidableEq, Repr

/-- The request bits `irq[v]` (R202). -/
structure Irqs where
  timer0 : Bool
  timer1 : Bool
  rn4020Rx : Bool
  rn4020Tx : Bool
  ft232rlRx : Bool
  ft232rlTx : Bool
  tecRx : Bool
  tecTx : Bool
  usd : Bool
  adc : Bool
  deriving DecidableEq, Repr

/-- The six exceptions (R200). -/
inductive Exc
  | oddAddress
  | memoryProtection
  | zeroDivide
  | privilegeViolation
  | undefinedInstruction
  | svc
  deriving DecidableEq, Repr

/-! ### Devices -/

/-- Which of the two timers (R225). -/
inductive TimerId
  | timer0
  | timer1
  deriving DecidableEq, Repr

/-- A timer (R27, R225, R226). `flag` is the whole word its flag port returns: the layout is not printed. -/
structure Timer where
  period : Word
  current : Word
  flag : Word
  intEnable : Bool
  start : Bool
  deriving DecidableEq, Repr

/-- Which of the three serial ports (R228). -/
inductive SerialId
  | ft232rl
  | tec
  | rn4020
  deriving DecidableEq, Repr

/-- A serial port (R228). -/
structure Serial where
  received : Byte
  transmitted : Byte
  txReady : Bool
  rxReady : Bool
  txIntEnable : Bool
  rxIntEnable : Bool
  deriving DecidableEq, Repr

/-- The pins of RN4020-Cmd (R233). -/
structure Rn4020Cmd where
  f : Bool
  h : Bool
  c : Bool
  s : Bool
  deriving DecidableEq, Repr

/-- The micro-SD controller (R229). -/
structure Usd where
  intEnable : Bool
  init : Bool
  read : Bool
  write : Bool
  idle : Bool
  error : Bool
  memAddr : Word
  blkAddrH : Word
  blkAddrL : Word
  deriving DecidableEq, Repr

/-- The extension port (R230). -/
structure ExtPort where
  pins : Byte
  driven : Byte
  hiOutput : Bool
  hiValue : BitVec 4
  deriving DecidableEq, Repr

/-- Which of the four channels of the A/D converter (R232). -/
inductive AdcCh
  | ch0
  | ch1
  | ch2
  | ch3
  deriving DecidableEq, Repr

/-- The A/D converter (R232). -/
structure Adc where
  ch0 : Byte
  ch1 : Byte
  ch2 : Byte
  ch3 : Byte
  reference : Byte
  deriving DecidableEq, Repr

/-- The memory-management unit's ports (R55). -/
structure Mmu where
  enable : Bool
  base : Word
  limit : Word
  deriving DecidableEq, Repr

/-- The console (R237). -/
structure Console where
  dataReg : Word
  addrReg : Word
  dataSw : Word
  rotary : BitVec 5
  func : BitVec 4
  deriving DecidableEq, Repr

/-- Everything behind the I/O space (R224). -/
structure Devices where
  timer0 : Timer
  timer1 : Timer
  ft232rl : Serial
  tec : Serial
  rn4020 : Serial
  rnCmd : Rn4020Cmd
  usd : Usd
  ext : ExtPort
  adc : Adc
  boardMode : BitVec 3
  mmu : Mmu
  console : Console
  deriving DecidableEq, Repr

/-- One act of a device or of the operator between two instructions: a draw of the spec's `DeviceOracle`
(R61, R201, R202, R237; log 32). -/
inductive DeviceMove
  /-- A device asks for its interrupt; it counts only while the device's enable bit is 1 (R202). -/
  | request (v : Irq)
  /-- A timer's current value as its port will return it (R225). -/
  | timerValue (t : TimerId) (v : Word)
  /-- A timer's flag word as its port will return it (R226). -/
  | timerFlag (t : TimerId) (v : Word)
  /-- A serial port presents a received byte (R228). -/
  | serialReceive (p : SerialId) (b : Byte)
  /-- A serial port's ready bits (R228). -/
  | serialStatus (p : SerialId) (txReady rxReady : Bool)
  /-- The micro-SD controller's status bits (R229). -/
  | usdStatus (idle error : Bool)
  /-- The extension port's pins (R230). -/
  | extPins (b : Byte)
  /-- An A/D conversion result (R232). -/
  | adcSample (ch : AdcCh) (b : Byte)
  /-- A byte of a micro-SD block transfer, or of the operator's WriteMem, reaches memory (R61, R229, R237). -/
  | storeByte (a : Word) (b : Byte)
  /-- The operator sets the data switches, the rotary switch and the function register (R237). -/
  | consoleSwitches (dataSw : Word) (rotary : BitVec 5) (func : BitVec 4)
  /-- The operator sets the console's address register (R237). -/
  | consoleAddress (a : Word)
  /-- The operator changes a CPU register (R237). -/
  | setReg (r : PReg) (v : Word)
  /-- The operator changes PC (R237). -/
  | setPc (v : Word)
  /-- The operator changes FLAG (R237); bits without storage are dropped (R22). -/
  | setFlag (v : Word)
  /-- The operator stops or starts the CPU (R183, R237). -/
  | setHalted (b : Bool)
  deriving DecidableEq, Repr

/-! ### Memory -/

/-- Memory: the bytes that have been placed or written, by rising address (`Memory.wf`); what an unlisted address
reads as is `Memory.unlisted` (R40; log 4). -/
abbrev Memory := List Host.Cell

/-! ### The state -/

/-- The whole machine (R10, R27). -/
structure State where
  /-- G0 to G11, FP, SSP, USP (R10). -/
  regs : Regs
  /-- The program counter (R16). -/
  pc : Word
  /-- The flag register's stored bits (R18). -/
  flag : Flags
  /-- HALT has stopped the CPU (R27, R183). -/
  halted : Bool
  /-- The pending interrupt requests (R27, R202). -/
  irq : Irqs
  /-- Memory (R40). -/
  mem : Memory
  /-- The devices, the MMU's ports and the console (R27). -/
  io : Devices
  /-- The MODEL's own: how many free values have been used (log 41). -/
  draws : Nat
  /-- The MODEL's own: what the devices and the operator will do at each coming instruction boundary (log 32). -/
  oracle : List (List DeviceMove)
  deriving DecidableEq, Repr

/-! ### Why a step stops -/

/-- The faults: the machine takes no further step. -/
inductive Fault
  /-- Raised by the cycle: the CPU is halted, the defined end of a run (R183, R256). Safe: the spec takes no step. -/
  | halted
  /-- Raised by trap entry: its own push met an odd SSP; the spec calls the model stuck (R208, U26).
  Safe: nothing is claimed of what the hardware does then. -/
  | stuckTrapEntry
  deriving DecidableEq, Repr

/-- The refusals: the spec gives the situation no meaning and names it (93_implementation_defined.md section 2).
Every one is safe: the run ends and nothing is claimed. -/
inductive Refusal
  /-- Raised by an arm of `exec` whose instruction has no meaning in the model yet. -/
  | notModelled (mnemonic : String)
  /-- Raised at decoding: a register field holds Fh (R14, U4). -/
  | pcOperand
  /-- Raised at decoding: a must-be-zero field is not zero (R73, U3). -/
  | mbzField
  /-- Raised at decoding: condition code Dh (R77(b), U2). -/
  | condD
  /-- Raised at decoding, and by MULL and DIVL: the pair's Rd is odd or Eh (R126, U5). -/
  | oddPairRegister
  /-- Raised by PUSH and POP of the active stack pointer (R170, R172, U12). -/
  | pushPopOfSp
  /-- Raised by RETI with P = 0 (R173, U13). -/
  | retiInUserMode
  /-- Raised by IN and OUT: the effective address is above FFh (R53, U15). -/
  | ioAddressHigh
  /-- Raised by IN and OUT: a word access at an odd port address, or a byte access to half a 16-bit port (R53, U16). -/
  | ioMisaligned
  /-- Raised by the fetch: the instruction lies in the IPL ROM and no image of it was placed (R43, U32). -/
  | executeFromUnknownRom
  deriving DecidableEq, Repr

/-- What a step answers. -/
abbrev Result := Host.Outcome State Fault Refusal

/-! ### Reset -/

/-- A timer after reset: stopped, its interrupt disabled (R254); the rest is the model's choice (log 31). -/
def Timer.reset : Timer :=
  { period := 0, current := 0, flag := 0, intEnable := false, start := false }

/-- A serial port after reset: its interrupts disabled (R254); the rest is the model's choice (log 31). -/
def Serial.reset : Serial :=
  { received := 0, transmitted := 0, txReady := false, rxReady := false, txIntEnable := false, rxIntEnable := false }

/-- The devices after reset (R233, R251, R254; log 2, 31, 40). -/
def Devices.reset : Devices :=
  { timer0 := Timer.reset
    timer1 := Timer.reset
    ft232rl := Serial.reset
    tec := Serial.reset
    rn4020 := Serial.reset
    rnCmd := { f := false, h := false, c := false, s := true }
    usd := { intEnable := false, init := false, read := false, write := false, idle := false, error := false,
             memAddr := 0, blkAddrH := 0, blkAddrL := 0 }
    ext := { pins := 0, driven := 0, hiOutput := false, hiValue := 0 }
    adc := { ch0 := 0, ch1 := 0, ch2 := 0, ch3 := 0, reference := 0 }
    boardMode := 1
    mmu := { enable := false, base := 0, limit := 0 }
    console := { dataReg := 0, addrReg := 0, dataSw := 0, rotary := 0, func := 0 } }

/-- The machine right after reset (R251 to R254; log 2, 3): PC = F000h, FLAG = 0040h, no request, MMU off. -/
def State.reset : State :=
  { regs := { g0 := 0, g1 := 0, g2 := 0, g3 := 0, g4 := 0, g5 := 0, g6 := 0, g7 := 0, g8 := 0, g9 := 0, g10 := 0,
              g11 := 0, fp := 0, ssp := 0, usp := 0 }
    pc := 0xF000
    flag := { e := false, p := true, v := false, c := false, s := false, z := false }
    halted := false
    irq := { timer0 := false, timer1 := false, rn4020Rx := false, rn4020Tx := false, ft232rlRx := false,
             ft232rlTx := false, tecRx := false, tecTx := false, usd := false, adc := false }
    mem := []
    io := Devices.reset
    draws := 0
    oracle := [] }

end Sys2Proof.Machine
end

