-- ==== Sys2Proof/Machine/Params.lean ====
section
/-! DEFINITION. The spec's parameters (spec/00_scope.md section 4) that are constants, each at its value for this
hardware. The parameter functions stand where they are used: `MmuTranslate`, `FaultSavedPc` in Ops.lean; `LogicFlags`,
`MulDivFlags`, `ShiftCount`, `ShiftFlags` in Flags.lean; `MBZ_POLICY`, `COND_D` in Decode.lean. `HAS_I_FLAG` = false is
the absence of bit 5 from `Flags`; `RESET_PC` and `RESET_FLAG` are in `State.reset`. -/

namespace Sys2Proof.Machine

/-- `MULDIV_SIGNED` (R120(a), decision D7). -/
def mulDivSigned : Bool := false

/-- `RETI_USER` (R173, decision D17). -/
def retiUser : Config.RetiUser := .refuse

/-- `PRIV_SET` (R220, decision D15): the mnemonics that need P = 1. -/
def privSet : Config.PrivOp → Bool
  | .inp => true
  | .out => true
  | .ei => true
  | .di => true
  | .halt => true

/-- `IO_HIGH_POLICY` (R53, decision D23). -/
def ioHighPolicy : Config.IoHighPolicy := .refuse

/-- `VECTOR_AREA_WRITABLE` (R42, decision D28). -/
def vectorAreaWritable : Bool := true

/-- `HALT_WAKES_ON_IRQ` (R183, decision D24). -/
def haltWakesOnIrq : Bool := false

/-- `SHIFT_COUNT_MASK` (R130(a), decision D9). -/
def shiftCountMask : Word := 0x000F

/-- `IRQ_PRIORITY` (R204, decision D20): ascending vector address. -/
def irqPriority : List Irq :=
  [.timer0, .timer1, .rn4020Rx, .rn4020Tx, .ft232rlRx, .ft232rlTx, .tecRx, .tecTx, .usd, .adc]

end Sys2Proof.Machine
end

