-- ==== Sys2Proof/Machine/Ops.lean ====
section
/-! DEFINITION. The shared operations: registers with the banking of the stack pointer, FLAG as a word, memory with its
checks and the MMU, the stack, taking an exception and returning from one, free values. -/

namespace Sys2Proof.Machine

/-- Why an instruction is abandoned: it raises an exception, or the spec refuses it (R201). -/
inductive Abort
  | raise (x : Exc)
  | refuse (r : Refusal)
  deriving DecidableEq, Repr

/-! ### Registers (R11 to R13) -/

/-- The content of a register. -/
def Regs.get (r : Regs) : PReg → Word
  | .g0 => r.g0
  | .g1 => r.g1
  | .g2 => r.g2
  | .g3 => r.g3
  | .g4 => r.g4
  | .g5 => r.g5
  | .g6 => r.g6
  | .g7 => r.g7
  | .g8 => r.g8
  | .g9 => r.g9
  | .g10 => r.g10
  | .g11 => r.g11
  | .fp => r.fp
  | .ssp => r.ssp
  | .usp => r.usp

/-- The registers with one of them replaced. -/
def Regs.set (r : Regs) (q : PReg) (v : Word) : Regs :=
  match q with
  | .g0 => { r with g0 := v }
  | .g1 => { r with g1 := v }
  | .g2 => { r with g2 := v }
  | .g3 => { r with g3 := v }
  | .g4 => { r with g4 := v }
  | .g5 => { r with g5 := v }
  | .g6 => { r with g6 := v }
  | .g7 => { r with g7 := v }
  | .g8 => { r with g8 := v }
  | .g9 => { r with g9 := v }
  | .g10 => { r with g10 := v }
  | .g11 => { r with g11 := v }
  | .fp => { r with fp := v }
  | .ssp => { r with ssp := v }
  | .usp => { r with usp := v }

/-- The register a field value selects while FLAG.P = `p` (R11): number Dh is SSP or USP by P, Eh always USP (R13). -/
def Reg.bank (p : Bool) : Reg → PReg
  | .g0 => .g0
  | .g1 => .g1
  | .g2 => .g2
  | .g3 => .g3
  | .g4 => .g4
  | .g5 => .g5
  | .g6 => .g6
  | .g7 => .g7
  | .g8 => .g8
  | .g9 => .g9
  | .g10 => .g10
  | .g11 => .g11
  | .fp => .fp
  | .sp => if p then .ssp else .usp
  | .usp => .usp

/-- A register by its own name, whatever P is. -/
def State.get (s : State) (q : PReg) : Word := s.regs.get q

/-- A register written by its own name, whatever P is. -/
def State.set (s : State) (q : PReg) (v : Word) : State := { s with regs := s.regs.set q v }

/-- `x[i]` (R12, R13). -/
def State.readReg (s : State) (r : Reg) : Word := s.get (Reg.bank s.flag.p r)

/-- `x[i] <- v` (R12, R13). -/
def State.writeReg (s : State) (r : Reg) (v : Word) : State := s.set (Reg.bank s.flag.p r) v

/-! ### FLAG as a word (R18, R22) -/

/-- The 16 bits `LD Rd,FLAG` and trap entry read: 0000 0000 EP00 VCSZ. -/
def Flags.toWord (f : Flags) : Word :=
  0#8 ++ BitVec.ofBool f.e ++ BitVec.ofBool f.p ++ 0#2 ++ BitVec.ofBool f.v ++ BitVec.ofBool f.c ++ BitVec.ofBool f.s
    ++ BitVec.ofBool f.z

/-- The flags a word loads; bits 15..8, 5 and 4 are dropped. -/
def Flags.ofWord (w : Word) : Flags :=
  { e := w.getLsbD 7, p := w.getLsbD 6, v := w.getLsbD 3, c := w.getLsbD 2, s := w.getLsbD 1, z := w.getLsbD 0 }

/-- V, C, S and Z written, E and P kept (R19). -/
def State.setCond (s : State) (c : Cond) : State :=
  { s with flag := { s.flag with v := c.v, c := c.c, s := c.s, z := c.z } }

/-! ### Memory as data (R40, R41; log 4) -/

/-- The IPL ROM's addresses (R41). -/
def inRom (a : Nat) : Bool := 0xF000 ≤ a && a ≤ 0xFFDF

/-- The vector table's addresses (R41, R200). -/
def inVectors (a : Nat) : Bool := 0xFFE0 ≤ a

/-- The canonical form: addresses of the 64 KiB space, strictly rising. An unlisted address holds no value, so no
entry can equal what an unlisted address reads as. -/
def Memory.wf : Memory → Bool
  | [] => true
  | [(a, _)] => a < 65536
  | (a, _) :: (b, y) :: rest => a < b && Memory.wf ((b, y) :: rest)

/-- The byte placed or written at an address, if any. -/
def Memory.read (m : Memory) (a : Nat) : Option Byte :=
  match m with
  | [] => none
  | (k, b) :: rest => if a = k then some b else Memory.read rest a

/-- A byte placed at an address, the form kept. -/
def Memory.write (m : Memory) (a : Nat) (v : Byte) : Memory :=
  match m with
  | [] => [(a, v)]
  | (k, b) :: rest =>
    if a < k then (a, v) :: (k, b) :: rest
    else if a = k then (a, v) :: rest
    else (k, b) :: Memory.write rest a v

/-- What an unlisted address reads as: the unknown IPL in the ROM (R43), else whatever the RAM held (R253). -/
def Memory.unlisted (a : Nat) : Byte :=
  if inRom a then Config.romByte a else Config.ramByte a

/-- The byte at a physical address, `M[a]` (R48). -/
def State.byteAt (s : State) (a : Nat) : Byte :=
  (s.mem.read a).getD (Memory.unlisted a)

/-- Whether a store changes the byte at a physical address (R42, R43). -/
def writable (a : Nat) : Bool :=
  if inRom a then false else if inVectors a then vectorAreaWritable else true

/-- `M[a] <- b`, nothing in the ROM (R43, R49). -/
def State.storeByte (s : State) (a : Word) (b : Byte) : State :=
  if writable a.toNat then { s with mem := s.mem.write a.toNat b } else s

/-- The word at a physical address: the byte at the address is the high half (R44, R48). -/
def State.wordAt (s : State) (a : Word) : Word :=
  s.byteAt a.toNat ++ s.byteAt (a + 1).toNat

/-- The bits 15..8 of a word (R44). -/
def highByte (v : Word) : Byte := v.extractLsb' 8 8

/-- The bits 7..0 of a word (R44, R47). -/
def lowByte (v : Word) : Byte := v.extractLsb' 0 8

/-- A word stored at a physical address, high byte first (R44, R49). -/
def State.storeWord (s : State) (a : Word) (v : Word) : State :=
  (s.storeByte a (highByte v)).storeByte (a + 1) (lowByte v)

/-- Bytes placed from outside the machine, in the ROM too: what a loader or a test harness does (R257; log 5). -/
def State.placeBytes (s : State) (a : Word) : List Byte → State
  | [] => s
  | b :: rest => State.placeBytes { s with mem := s.mem.write a.toNat b } (a + 1) rest

/-! ### Memory accesses of the CPU (R46 to R49, R56) -/

/-- `MmuTranslate` at its default (R56, decision D22): none is a memory protection violation. -/
def mmuTranslate (p enable : Bool) (base limit addr : Word) : Option Word :=
  if p || !enable then some addr
  else if limit ≤ addr then none
  else some (addr + base)

/-- The physical address of a logical one, in the mode and under the MMU of `s` (R48). -/
def State.translate (s : State) (a : Word) : Except Abort Word :=
  match mmuTranslate s.flag.p s.io.mmu.enable s.io.mmu.base s.io.mmu.limit a with
  | some pa => .ok pa
  | none => .error (.raise .memoryProtection)

/-- The physical address of a word access: the odd address is found first (R46, R50). -/
def State.wordAddr (s : State) (a : Word) : Except Abort Word :=
  if a.getLsbD 0 then .error (.raise .oddAddress) else s.translate a

/-- `MemRead(a, 1)` (R48). -/
def State.read8 (s : State) (a : Word) : Except Abort Byte := do
  let pa ← s.translate a
  .ok (s.byteAt pa.toNat)

/-- `MemRead(a, 2)` (R48). -/
def State.read16 (s : State) (a : Word) : Except Abort Word := do
  let pa ← s.wordAddr a
  .ok (s.wordAt pa)

/-- `MemWrite(a, 1, v)` (R49). -/
def State.write8 (s : State) (a : Word) (v : Byte) : Except Abort State := do
  let pa ← s.translate a
  .ok (s.storeByte pa v)

/-- `MemWrite(a, 2, v)` (R49). -/
def State.write16 (s : State) (a : Word) (v : Word) : Except Abort State := do
  let pa ← s.wordAddr a
  .ok (s.storeWord pa v)

/-- The byte at a physical address is the ROM's and no image of it was placed (U32). -/
def State.unknownRom (s : State) (a : Word) : Bool :=
  inRom a.toNat && (s.mem.read a.toNat).isNone

/-- `Fetch16()` (R17): the word at `pc`, and `pc` advanced. A word of the unknown ROM is refused (U32). -/
def State.fetch16 (s : State) : Except Abort (Word × State) := do
  let pa ← s.wordAddr s.pc
  if s.unknownRom pa || s.unknownRom (pa + 1) then .error (.refuse .executeFromUnknownRom)
  else .ok (s.wordAt pa, { s with pc := s.pc + 2 })

/-! ### Exceptions and interrupts (R200, R205 to R209) -/

/-- The vector address of an exception (R200). -/
def Exc.vector : Exc → Word
  | .oddAddress => 0xFFF4
  | .memoryProtection => 0xFFF6
  | .zeroDivide => 0xFFF8
  | .privilegeViolation => 0xFFFA
  | .undefinedInstruction => 0xFFFC
  | .svc => 0xFFFE

/-- The vector address of an interrupt (R200). -/
def Irq.vector : Irq → Word
  | .timer0 => 0xFFE0
  | .timer1 => 0xFFE2
  | .rn4020Rx => 0xFFE4
  | .rn4020Tx => 0xFFE6
  | .ft232rlRx => 0xFFE8
  | .ft232rlTx => 0xFFEA
  | .tecRx => 0xFFEC
  | .tecTx => 0xFFEE
  | .usd => 0xFFF0
  | .adc => 0xFFF2

/-- The state a handler starts in, but for its address: P set, E cleared, the saved PC and the old FLAG pushed on the
system stack; an odd SSP makes a push fail (R205). -/
def State.pushFrame (s : State) (savedPc : Word) : Except Abort State := do
  let tmp := s.flag.toWord
  let s1 := { s with flag := { s.flag with p := true, e := false } }
  let sp1 := s1.get .ssp - 2
  let s2 ← (s1.set .ssp sp1).write16 sp1 savedPc
  let sp2 := sp1 - 2
  (s2.set .ssp sp2).write16 sp2 tmp

/-- `TrapEntry(v)` (R205): the frame is pushed and PC loaded from the vector word; a fault of these accesses leaves the
model stuck (R208). -/
def trapEntry (vector savedPc : Word) (s : State) : Result :=
  match s.pushFrame savedPc with
  | .error _ => .fault .stuckTrapEntry
  | .ok t =>
    match t.read16 vector with
    | .error _ => .fault .stuckTrapEntry
    | .ok handler => .next { t with pc := handler }

/-- `FaultSavedPc` at its default: `pc` at the moment of the raise (R206, decision D19). -/
def faultSavedPc (_cause : Exc) (pc : Word) : Word := pc

/-- The PC an exception saves (R206): SVC always the advanced `pc`, the five faults by `FaultSavedPc`. -/
def excSavedPc (x : Exc) (pc : Word) : Word :=
  match x with
  | .svc => pc
  | x => faultSavedPc x pc

/-- `raise X`: trap entry from the state before any write of the instruction (R201, R209). -/
def takeException (x : Exc) (s : State) : Result :=
  trapEntry x.vector (excSavedPc x s.pc) s

/-- The end of an instruction begun in `s`: its next state, or the exception it raises, taken from `s` (R209), or its
refusal. -/
def conclude (s : State) (r : Except Abort State) : Result :=
  match r with
  | .ok t => .next t
  | .error (.raise x) => takeException x s
  | .error (.refuse r) => .refused r

/-- The return from a trap (R173, R207): FLAG then PC popped from the stack of the mode the instruction began in;
`load` says which flags the popped word writes. -/
def returnFromTrap (load : Flags → Word → Flags) (s : State) : Except Abort State := do
  let sp := s.readReg .sp
  let f ← s.read16 sp
  let t ← s.read16 (sp + 2)
  let s1 := s.writeReg .sp (sp + 4)
  .ok { s1 with flag := load s.flag f, pc := t }

/-- The privilege check of a member of `PRIV_SET` (R213, R220). -/
def State.requirePrivilege (s : State) (op : Config.PrivOp) : Except Abort Unit :=
  if privSet op && !s.flag.p then .error (.raise .privilegeViolation) else .ok ()

/-- A request bit (R202). -/
def Irqs.get (q : Irqs) : Irq → Bool
  | .timer0 => q.timer0
  | .timer1 => q.timer1
  | .rn4020Rx => q.rn4020Rx
  | .rn4020Tx => q.rn4020Tx
  | .ft232rlRx => q.ft232rlRx
  | .ft232rlTx => q.ft232rlTx
  | .tecRx => q.tecRx
  | .tecTx => q.tecTx
  | .usd => q.usd
  | .adc => q.adc

/-- The request bits with one of them written. -/
def Irqs.set (q : Irqs) (v : Irq) (b : Bool) : Irqs :=
  match v with
  | .timer0 => { q with timer0 := b }
  | .timer1 => { q with timer1 := b }
  | .rn4020Rx => { q with rn4020Rx := b }
  | .rn4020Tx => { q with rn4020Tx := b }
  | .ft232rlRx => { q with ft232rlRx := b }
  | .ft232rlTx => { q with ft232rlTx := b }
  | .tecRx => { q with tecRx := b }
  | .tecTx => { q with tecTx := b }
  | .usd => { q with usd := b }
  | .adc => { q with adc := b }

/-- The interrupt to accept at a boundary: the pending one of highest priority, while E = 1 (R201 step 1, R203, R204). -/
def State.pending (s : State) : Option Irq :=
  if s.flag.e then irqPriority.find? s.irq.get else none

/-- Acceptance of an interrupt: its request is cleared and the trap entered with the boundary's `pc` (R201, R203, R206). -/
def acceptInterrupt (v : Irq) (s : State) : Result :=
  let s1 := { s with irq := s.irq.set v false, halted := false }
  trapEntry v.vector s1.pc s1

/-! ### Free values (93_implementation_defined.md section 1, `any value`; log 16, 33) -/

/-- One free word. -/
def State.drawWord (s : State) : Word × State :=
  (Config.freeWord s.draws, { s with draws := s.draws + 1 })

/-- Four free condition flags. -/
def State.drawCond (s : State) : Cond × State :=
  ({ v := Config.freeBit s.draws, c := Config.freeBit (s.draws + 1), s := Config.freeBit (s.draws + 2),
     z := Config.freeBit (s.draws + 3) },
   { s with draws := s.draws + 4 })

end Sys2Proof.Machine
end

