-- ==== Sys2Proof/Machine/Flags.lean ====
section
/-! DEFINITION. Every flag computation the spec gives: additions, subtractions, logic (spec/41_arith_logic.md R110),
multiplication and division (spec/42_mul_div.md R120(b)), shifts (spec/43_shift.md R130), and the jump conditions
(spec/30_encoding.md R76). -/

namespace Sys2Proof.Machine

/-- Z (R110). -/
def isZero (r : Word) : Bool := r == 0

/-- The flags of `a + b` (R110): C the carry out of bit 15, V the signed overflow. -/
def addFlags (a b : Word) : Cond :=
  { v := a.msb == b.msb && (a + b).msb != a.msb
    c := 65536 ≤ a.toNat + b.toNat
    s := (a + b).msb
    z := isZero (a + b) }

/-- The flags of `a − b` (R110): C the borrow, V the signed overflow. -/
def subFlags (a b : Word) : Cond :=
  { v := a.msb != b.msb && (a - b).msb != a.msb
    c := a.toNat < b.toNat
    s := (a - b).msb
    z := isZero (a - b) }

/-- The logical operations `LogicFlags` is asked about (R110). -/
inductive LogicOp
  | and
  | or
  | xor
  deriving DecidableEq, Repr

/-- `LogicFlags` at its default: (V, C) = (0, 0) (R110, decision D6). -/
def logicVC (_op : LogicOp) (_a _b : Word) : Bool × Bool := (false, false)

/-- The flags of a logical operation on `a` and `b` with result `r` (R110). -/
def logicFlags (op : LogicOp) (a b r : Word) : Cond :=
  { v := (logicVC op a b).1, c := (logicVC op a b).2, s := r.msb, z := isZero r }

/-- The operations `MulDivFlags` is asked about (R120(b)). -/
inductive MulDivOp
  | mul
  | div
  | mod
  | mull
  | divl
  deriving DecidableEq, Repr

/-- `MulDivFlags` at its default: (V, C) = (0, 0) (R120(b), decision D8). -/
def mulDivVC (_op : MulDivOp) (_a _b _r : Word) : Bool × Bool := (false, false)

/-- The flags of a multiplication or division whose new Rd is `r` (R120(b)). -/
def mulDivFlags (op : MulDivOp) (a b r : Word) : Cond :=
  { v := (mulDivVC op a b r).1, c := (mulDivVC op a b r).2, s := r.msb, z := isZero r }

/-- The four shifts (R131 to R134). -/
inductive ShiftOp
  | shla
  | shll
  | shra
  | shrl
  deriving DecidableEq, Repr

/-- `ShiftCount` (R130(a)). -/
def shiftCount (b : Word) : Nat := (b &&& shiftCountMask).toNat

/-- The bit a shift by `n` moves out last: bit 16 − n to the left, bit n − 1 to the right, none for n = 0 (R130(b)). -/
def lastShiftedOut (op : ShiftOp) (a : Word) (n : Nat) : Bool :=
  if n = 0 then false
  else match op with
    | .shla | .shll => n ≤ 16 && a.getLsbD (16 - n)
    | .shra => if n ≤ 16 then a.getLsbD (n - 1) else a.msb
    | .shrl => a.getLsbD (n - 1)

/-- `ShiftFlags` at its default: V = 0, C = the last bit shifted out (R130(b), decision D9). -/
def shiftVC (op : ShiftOp) (a : Word) (n : Nat) : Bool × Bool := (false, lastShiftedOut op a n)

/-- The flags of a shift of `a` by `n` with result `r` (R130(b)). -/
def shiftFlags (op : ShiftOp) (a : Word) (n : Nat) (r : Word) : Cond :=
  { v := (shiftVC op a n).1, c := (shiftVC op a n).2, s := r.msb, z := isZero r }

/-! ### The jump conditions (R76) -/

/-- `S xor V`: "less than" of signed numbers after CMP (R19). -/
def Flags.less (f : Flags) : Bool := f.s != f.v

/-- JGT: not (Z or (S xor V)). -/
def Flags.greater (f : Flags) : Bool := !(f.z || f.less)

/-- JHI: not (Z or C). -/
def Flags.higher (f : Flags) : Bool := !(f.z || f.c)

end Sys2Proof.Machine
end

