-- ==== Sys2Proof/Machine/Operands.lean ====
section
/-! DEFINITION. The addressing modes: effective addresses (spec/30_encoding.md R79), source operands (R80), the short
forms the assembler chooses (R84), and the register pairs of MULL and DIVL (spec/42_mul_div.md R126). -/

namespace Sys2Proof.Machine

/-- `sext_16` of a 4-bit field (R78). -/
def sext16 (v : BitVec 4) : Word := v.signExtend 16

/-- `zext_16` of a byte (R47). -/
def zext16 (b : Byte) : Word := b.zeroExtend 16

/-! ### Effective addresses (R79, R51) -/

/-- Indexed: `Dsp + Rx`, modulo 65536. -/
def eaIndexed (s : State) (dsp : Word) (rx : Reg) : Word := dsp + s.readReg rx

/-- FP relative: `sext(D4) × 2 + FP`, modulo 65536. -/
def eaFpRel (s : State) (d4 : BitVec 4) : Word := sext16 d4 * 2 + s.readReg .fp

/-- ST's effective address (R102). -/
def dstAddr (s : State) : Dst → Word
  | .direct dsp => dsp
  | .indexed dsp rx => eaIndexed s dsp rx
  | .fpRel d4 => eaFpRel s d4
  | .indirect rx => s.readReg rx
  | .byteIndirect rx => s.readReg rx

/-- A jump's or CALL's target: the effective address itself (R81, R140). -/
def targetAddr (s : State) : Target → Word
  | .direct dsp => dsp
  | .indexed dsp rx => eaIndexed s dsp rx
  | .indirect rx => s.readReg rx

/-- IN's and OUT's effective address (R160, R161). -/
def portAddr (s : State) : Port → Word
  | .direct dsp => dsp
  | .indirect rx => s.readReg rx
  | .byteIndirect rx => s.readReg rx

/-- The mode whose datum is 8 bits (R47). -/
def portIsByte : Port → Bool
  | .direct _ => false
  | .indirect _ => false
  | .byteIndirect _ => true

/-! ### Source operands -/

/-- `Operand(m)` (R80): obtained once, before the operation; a read that raises abandons the instruction. -/
def operand (s : State) : Src → Except Abort Word
  | .direct dsp => s.read16 dsp
  | .indexed dsp rx => s.read16 (eaIndexed s dsp rx)
  | .imm v => .ok v
  | .fpRel d4 => s.read16 (eaFpRel s d4)
  | .reg rs => .ok (s.readReg rs)
  | .imm4 i4 => .ok (sext16 i4)
  | .indirect rx => s.read16 (s.readReg rx)
  | .byteIndirect rx => do
    let b ← s.read8 (s.readReg rx)
    .ok (zext16 b)

/-! ### The assembler's automatic choice of the short forms (R84) -/

/-- `OP Rd,#v`: format *5 when `v` fits −8..+7, else format *2. -/
def immediateForm (v : Word) : Src :=
  if -8 ≤ v.toInt ∧ v.toInt ≤ 7 then .imm4 (v.truncate 4) else .imm v

/-- `OP Rd,d,FP`: format *3 when `d` is even and in −16..+14, else format *1 with FP. -/
def fpOffsetForm (d : Word) : Src :=
  if -16 ≤ d.toInt ∧ d.toInt ≤ 14 ∧ d.toInt % 2 = 0 then .fpRel (d.extractLsb' 1 4) else .indexed d .fp

/-! ### Register pairs -/

/-- `Rd + 1` of an admitted pair; none for an odd Rd and for USP (R126). -/
def Reg.pairHigh : Reg → Option Reg
  | .g0 => some .g1
  | .g2 => some .g3
  | .g4 => some .g5
  | .g6 => some .g7
  | .g8 => some .g9
  | .g10 => some .g11
  | .fp => some .sp
  | .g1 | .g3 | .g5 | .g7 | .g9 | .g11 | .sp | .usp => none

end Sys2Proof.Machine
end

