-- ==== Sys2Proof/Machine/ArithLogic.lean ====
section
/-! DEFINITION. ADD, SUB, CMP, AND, OR, XOR, ADDS (spec/41_arith_logic.md). -/

namespace Sys2Proof.Machine

/-- The shape the family shares: the operand is obtained, then Rd is read, Rd is written and the four condition flags
with it (R110 to R117). `f a b` is the new Rd, `c a b` the flags. -/
def binaryOp (f : Word → Word → Word) (c : Word → Word → Cond) (rd : Reg) (ea : Src) (s : State) : Result :=
  conclude s do
    let b ← operand s ea
    let a := s.readReg rd
    .ok ((s.writeReg rd (f a b)).setCond (c a b))

/-- ADD Rd,EA (R111). -/
def execAdd (rd : Reg) (ea : Src) (s : State) : Result :=
  binaryOp (fun a b => a + b) addFlags rd ea s

/-- SUB Rd,EA (R112). -/
def execSub (rd : Reg) (ea : Src) (s : State) : Result :=
  binaryOp (fun a b => a - b) subFlags rd ea s

/-- CMP Rd,EA (R113): the flags of the subtraction, Rd not written. -/
def execCmp (rd : Reg) (ea : Src) (s : State) : Result :=
  conclude s do
    let b ← operand s ea
    .ok (s.setCond (subFlags (s.readReg rd) b))

/-- AND Rd,EA (R114). -/
def execAnd (rd : Reg) (ea : Src) (s : State) : Result :=
  binaryOp (fun a b => a &&& b) (fun a b => logicFlags .and a b (a &&& b)) rd ea s

/-- OR Rd,EA (R115). -/
def execOr (rd : Reg) (ea : Src) (s : State) : Result :=
  binaryOp (fun a b => a ||| b) (fun a b => logicFlags .or a b (a ||| b)) rd ea s

/-- XOR Rd,EA (R116). -/
def execXor (rd : Reg) (ea : Src) (s : State) : Result :=
  binaryOp (fun a b => a ^^^ b) (fun a b => logicFlags .xor a b (a ^^^ b)) rd ea s

/-- ADDS Rd,EA (R117): the flags are those of adding the doubled operand. -/
def execAdds (rd : Reg) (ea : Src) (s : State) : Result :=
  binaryOp (fun a b => a + b * 2) (fun a b => addFlags a (b * 2)) rd ea s

end Sys2Proof.Machine
end

