-- ==== Sys2Proof/Machine/Devices.lean ====
section
/-! DEFINITION. The I/O space: the rows of the I/O map (spec/60_exceptions.md R224), what IN reads from each and what
OUT writes to it (R225 to R238), and the accesses of spec/20_memory.md R53. -/

namespace Sys2Proof.Machine

/-- The ports of the I/O map (R224). `free` are the free and reserved rows (R234). -/
inductive IoPort
  | timerValue (t : TimerId)
  | timerControl (t : TimerId)
  | serialData (p : SerialId)
  | serialStat (p : SerialId)
  | usdStat
  | usdMemAddr
  | usdBlkAddrH
  | usdBlkAddrL
  | ext
  | adcRef
  | extHi
  | boardMode
  | adc (ch : AdcCh)
  | rnCmd
  | mmuEnable
  | mmuBase
  | mmuLimit
  | consoleData
  | consoleAddr
  | rotary
  | func
  | free
  deriving DecidableEq, Repr

/-- The row an I/O address lies in (R224): the address without its bit 0. -/
def portOf (a : Byte) : IoPort :=
  match (a &&& 0xFE).toNat with
  | 0x00 => .timerValue .timer0
  | 0x02 => .timerControl .timer0
  | 0x04 => .timerValue .timer1
  | 0x06 => .timerControl .timer1
  | 0x08 => .serialData .ft232rl
  | 0x0A => .serialStat .ft232rl
  | 0x0C => .serialData .tec
  | 0x0E => .serialStat .tec
  | 0x10 => .usdStat
  | 0x12 => .usdMemAddr
  | 0x14 => .usdBlkAddrH
  | 0x16 => .usdBlkAddrL
  | 0x18 => .ext
  | 0x1A => .adcRef
  | 0x1C => .extHi
  | 0x1E => .boardMode
  | 0x20 => .adc .ch0
  | 0x22 => .adc .ch1
  | 0x24 => .adc .ch2
  | 0x26 => .adc .ch3
  | 0x28 => .serialData .rn4020
  | 0x2A => .serialStat .rn4020
  | 0x2C => .rnCmd
  | 0xF0 => .mmuEnable
  | 0xF4 => .mmuBase
  | 0xF6 => .mmuLimit
  | 0xF8 => .consoleData
  | 0xFA => .consoleAddr
  | 0xFC => .rotary
  | 0xFE => .func
  | _ => .free

/-- A 16-bit port: a row whose name spans both byte columns (R52, R224). -/
def IoPort.isWide : IoPort → Bool
  | .timerValue _ | .timerControl _ | .usdMemAddr | .usdBlkAddrH | .usdBlkAddrL | .mmuBase | .mmuLimit
  | .consoleData | .consoleAddr => true
  | _ => false

/-! ### The devices by their names -/

/-- A timer. -/
def Devices.timer (d : Devices) : TimerId → Timer
  | .timer0 => d.timer0
  | .timer1 => d.timer1

/-- The devices with a timer replaced. -/
def Devices.setTimer (d : Devices) (t : TimerId) (x : Timer) : Devices :=
  match t with
  | .timer0 => { d with timer0 := x }
  | .timer1 => { d with timer1 := x }

/-- A serial port. -/
def Devices.serial (d : Devices) : SerialId → Serial
  | .ft232rl => d.ft232rl
  | .tec => d.tec
  | .rn4020 => d.rn4020

/-- The devices with a serial port replaced. -/
def Devices.setSerial (d : Devices) (p : SerialId) (x : Serial) : Devices :=
  match p with
  | .ft232rl => { d with ft232rl := x }
  | .tec => { d with tec := x }
  | .rn4020 => { d with rn4020 := x }

/-- A channel's conversion result (R232). -/
def Adc.sample (d : Adc) : AdcCh → Byte
  | .ch0 => d.ch0
  | .ch1 => d.ch1
  | .ch2 => d.ch2
  | .ch3 => d.ch3

/-- The converter with a channel's result replaced. -/
def Adc.setSample (d : Adc) (ch : AdcCh) (b : Byte) : Adc :=
  match ch with
  | .ch0 => { d with ch0 := b }
  | .ch1 => { d with ch1 := b }
  | .ch2 => { d with ch2 := b }
  | .ch3 => { d with ch3 := b }

/-! ### What IN reads -/

/-- Serial status "TR00 0000" (R228). -/
def Serial.statByte (p : Serial) : Byte := BitVec.ofBool p.txReady ++ BitVec.ofBool p.rxReady ++ 0#6

/-- uSD-Stat "0000 IE00" (R229). -/
def Usd.statByte (u : Usd) : Byte := 0#4 ++ BitVec.ofBool u.idle ++ BitVec.ofBool u.error ++ 0#2

/-- What a port presents to IN as 16 bits, when the spec gives it: a device's current port value (R201, R225 to R232,
R237), 0000h where D05 prints it (R234, R236). None where no read value is printed: output-only ports (R238) and
ports whose direction is not printed; an 8-bit port stands in bits 7..0 (R53). -/
def Devices.present (d : Devices) : IoPort → Option Word
  | .timerValue t => some (d.timer t).current
  | .timerControl t => some (d.timer t).flag
  | .serialData p => some ((d.serial p).received.zeroExtend 16)
  | .serialStat p => some ((d.serial p).statByte.zeroExtend 16)
  | .usdStat => some (d.usd.statByte.zeroExtend 16)
  | .usdMemAddr => none
  | .usdBlkAddrH => none
  | .usdBlkAddrL => none
  | .ext => some (d.ext.pins.zeroExtend 16)
  | .adcRef => none
  | .extHi => none
  | .boardMode => some (d.boardMode.zeroExtend 16)
  | .adc ch => some ((d.adc.sample ch).zeroExtend 16)
  | .rnCmd => none
  | .mmuEnable => none
  | .mmuBase => some 0
  | .mmuLimit => some 0
  | .consoleData => some d.console.dataSw
  | .consoleAddr => some d.console.addrReg
  | .rotary => some (d.console.rotary.zeroExtend 16)
  | .func => some (d.console.func.zeroExtend 16)
  | .free => some 0

/-- The bits a port without a printed read value may show: its width, and of RN4020-Cmd its printed layout
"0000 FHCS" (R224, R233, R238). -/
def IoPort.freeMask : IoPort → Word
  | .rnCmd => 0x000F
  | p => if p.isWide then 0xFFFF else 0x00FF

/-- One read of a port by IN: `any value` within the port's bits where none is printed (R238, U17, U29; log 33). -/
def State.portIn (s : State) (p : IoPort) : Word × State :=
  match s.io.present p with
  | some v => (v, s)
  | none => (s.drawWord.1 &&& p.freeMask, s.drawWord.2)

/-! ### What OUT writes -/

/-- Timer control "I000 … 000S": I is bit 15, S bit 0 (R226, 90_conflicts.md C14). -/
def Timer.control (t : Timer) (v : Word) : Timer :=
  { t with intEnable := v.getLsbD 15, start := v.getLsbD 0 }

/-- Serial control "TR00 0000" (R228). -/
def Serial.control (p : Serial) (b : Byte) : Serial :=
  { p with txIntEnable := b.getLsbD 7, rxIntEnable := b.getLsbD 6 }

/-- uSD-Ctrl "0000 EIRW" (R229). -/
def Usd.control (u : Usd) (b : Byte) : Usd :=
  { u with intEnable := b.getLsbD 3, init := b.getLsbD 2, read := b.getLsbD 1, write := b.getLsbD 0 }

/-- One write of a port by OUT. An 8-bit port takes bits 7..0 (R53); bits not named in a control byte are ignored
(U20); input-only, free and reserved ports change nothing (R234, R238). -/
def Devices.portOut (d : Devices) (p : IoPort) (v : Word) : Devices :=
  let b := lowByte v
  match p with
  | .timerValue t => d.setTimer t { d.timer t with period := v }
  | .timerControl t => d.setTimer t ((d.timer t).control v)
  | .serialData q => d.setSerial q { d.serial q with transmitted := b }
  | .serialStat q => d.setSerial q ((d.serial q).control b)
  | .usdStat => { d with usd := d.usd.control b }
  | .usdMemAddr => { d with usd := { d.usd with memAddr := v } }
  | .usdBlkAddrH => { d with usd := { d.usd with blkAddrH := v } }
  | .usdBlkAddrL => { d with usd := { d.usd with blkAddrL := v } }
  | .ext => { d with ext := { d.ext with driven := b } }
  | .adcRef => { d with adc := { d.adc with reference := b } }
  | .extHi => { d with ext := { d.ext with hiOutput := b.getLsbD 7, hiValue := b.extractLsb' 0 4 } }
  | .boardMode => d
  | .adc _ => d
  | .rnCmd => { d with rnCmd := { f := b.getLsbD 3, h := b.getLsbD 2, c := b.getLsbD 1, s := b.getLsbD 0 } }
  | .mmuEnable => { d with mmu := { d.mmu with enable := b.getLsbD 0 } }
  | .mmuBase => { d with mmu := { d.mmu with base := v } }
  | .mmuLimit => { d with mmu := { d.mmu with limit := v } }
  | .consoleData => { d with console := { d.console with dataReg := v } }
  | .consoleAddr => d
  | .rotary => d
  | .func => d
  | .free => d

/-! ### The accesses of IN and OUT (R53) -/

/-- The I/O address of an effective address, by `IO_HIGH_POLICY` (R53). -/
def ioAddress (ea : Word) : Except Abort Byte :=
  if ea.extractLsb' 8 8 = 0#8 then .ok (lowByte ea)
  else match ioHighPolicy with
    | .refuse => .error (.refuse .ioAddressHigh)
    | .truncate => .ok (lowByte ea)

/-- The checks of an I/O access of one byte (`byte`) or one word at `a`: an odd word and half a 16-bit port are refused
(R53). -/
def ioAligned (byte : Bool) (a : Byte) : Except Abort Unit :=
  if byte then
    if (portOf a).isWide then .error (.refuse .ioMisaligned) else .ok ()
  else if a.getLsbD 0 then .error (.refuse .ioMisaligned) else .ok ()

/-- A byte access to the even half of a row "00H | name": it reads 00h and writes nothing (R53). -/
def ioConstantHalf (byte : Bool) (a : Byte) : Bool := byte && !a.getLsbD 0

/-- `IoRead(a, n)`, zero-extended to 16 bits, and the state after the port was read (R53). -/
def State.ioRead (s : State) (byte : Bool) (a : Byte) : Except Abort (Word × State) := do
  ioAligned byte a
  .ok (if ioConstantHalf byte a then (0, s) else s.portIn (portOf a))

/-- `IoWrite(a, n, v)` (R53). -/
def State.ioWrite (s : State) (byte : Bool) (a : Byte) (v : Word) : Except Abort State := do
  ioAligned byte a
  .ok (if ioConstantHalf byte a then s else { s with io := s.io.portOut (portOf a) v })

end Sys2Proof.Machine
end

