-- ==== Sys2Proof/Machine/InOut.lean ====
section
/-! DEFINITION. IN, OUT (spec/45_io.md). -/

namespace Sys2Proof.Machine

/-- IN Rd,EA (R160). -/
def execInp (rd : Reg) (ea : Port) (s : State) : Result :=
  conclude s do
    s.requirePrivilege .inp
    let a ← ioAddress (portAddr s ea)
    let r ← s.ioRead (portIsByte ea) a
    .ok (r.2.writeReg rd r.1)

/-- OUT Rd,EA (R161). -/
def execOut (rd : Reg) (ea : Port) (s : State) : Result :=
  conclude s do
    s.requirePrivilege .out
    let a ← ioAddress (portAddr s ea)
    s.ioWrite (portIsByte ea) a (s.readReg rd)

end Sys2Proof.Machine
end

