-- ==== Sys2Proof/Machine/Jump.lean ====
section
/-! DEFINITION. The fifteen jumps and CALL (spec/44_jump_call.md). -/

namespace Sys2Proof.Machine

/-- The shape of every jump (R140): `pc ← EA` when the condition holds, nothing else; memory at the target is not read
and an odd target is accepted. -/
def jumpIf (cond : Bool) (ea : Target) (s : State) : Result :=
  .next (if cond then { s with pc := targetAddr s ea } else s)

/-- JZ (R141). -/
def execJz (ea : Target) (s : State) : Result := jumpIf s.flag.z ea s

/-- JC (R142). -/
def execJc (ea : Target) (s : State) : Result := jumpIf s.flag.c ea s

/-- JM (R143). -/
def execJm (ea : Target) (s : State) : Result := jumpIf s.flag.s ea s

/-- JO (R144). -/
def execJo (ea : Target) (s : State) : Result := jumpIf s.flag.v ea s

/-- JGT: not (Z or (S xor V)) (R145). -/
def execJgt (ea : Target) (s : State) : Result := jumpIf s.flag.greater ea s

/-- JGE: not (S xor V) (R146). -/
def execJge (ea : Target) (s : State) : Result := jumpIf (!s.flag.less) ea s

/-- JLE: Z or (S xor V) (R147). -/
def execJle (ea : Target) (s : State) : Result := jumpIf (s.flag.z || s.flag.less) ea s

/-- JLT: S xor V (R148). -/
def execJlt (ea : Target) (s : State) : Result := jumpIf s.flag.less ea s

/-- JNZ (R149). -/
def execJnz (ea : Target) (s : State) : Result := jumpIf (!s.flag.z) ea s

/-- JNC (R150). -/
def execJnc (ea : Target) (s : State) : Result := jumpIf (!s.flag.c) ea s

/-- JNM (R151). -/
def execJnm (ea : Target) (s : State) : Result := jumpIf (!s.flag.s) ea s

/-- JNO (R152). -/
def execJno (ea : Target) (s : State) : Result := jumpIf (!s.flag.v) ea s

/-- JHI: not (Z or C) (R153). -/
def execJhi (ea : Target) (s : State) : Result := jumpIf s.flag.higher ea s

/-- JLS: Z or C (R154). -/
def execJls (ea : Target) (s : State) : Result := jumpIf (s.flag.z || s.flag.c) ea s

/-- JMP (R155). -/
def execJmp (ea : Target) (s : State) : Result := jumpIf true ea s

/-- CALL EA (R156): the target is computed first, then the advanced `pc` is pushed. -/
def execCall (ea : Target) (s : State) : Result :=
  conclude s do
    let t := targetAddr s ea
    let sp := s.readReg .sp - 2
    let s1 ← s.write16 sp s.pc
    let s2 := s1.writeReg .sp sp
    .ok { s2 with pc := t }

end Sys2Proof.Machine
end

