-- ==== Sys2Proof/Machine/LoadStore.lean ====
section
/-! DEFINITION. NO, LD, ST, LD Rd,FLAG (spec/40_load_store.md). Every meaning starts from the state after the fetches:
`pc` is already past the whole instruction (spec/10_state.md R17). -/

namespace Sys2Proof.Machine

/-- NO (R100): nothing. -/
def execNo (s : State) : Result := .next s

/-- LD Rd,EA (R101). -/
def execLd (rd : Reg) (ea : Src) (s : State) : Result :=
  conclude s do
    let v ← operand s ea
    .ok (s.writeReg rd v)

/-- The store of ST: one byte in the byte form, one word in the others (R102). -/
def storeOperand (s : State) (ea : Dst) (v : Word) : Except Abort State :=
  match ea with
  | .byteIndirect _ => s.write8 (dstAddr s ea) (lowByte v)
  | _ => s.write16 (dstAddr s ea) v

/-- ST Rd,EA (R102): `[EA] ← Rd` (90_conflicts.md C5). -/
def execSt (rd : Reg) (ea : Dst) (s : State) : Result :=
  conclude s (storeOperand s ea (s.readReg rd))

/-- LD Rd,FLAG (R103). -/
def execLdFlag (rd : Reg) (s : State) : Result :=
  .next (s.writeReg rd s.flag.toWord)

end Sys2Proof.Machine
end

