-- ==== Sys2Proof/Machine/MulDiv.lean ====
section
/-! DEFINITION. MUL, DIV, MOD, MULL, DIVL (spec/42_mul_div.md). `MULDIV_SIGNED` = false is this hardware; its other
value is written too (R120(a)). -/

namespace Sys2Proof.Machine

/-- A word as 32 bits, by `MULDIV_SIGNED` (R120(a)). -/
def widen (a : Word) : BitVec 32 := if mulDivSigned then a.signExtend 32 else a.zeroExtend 32

/-- The 32-bit product (R124). -/
def product (a b : Word) : BitVec 32 := widen a * widen b

/-- The quotient of words, the divisor not zero (R122). -/
def quotient (a b : Word) : Word := if mulDivSigned then a.sdiv b else a / b

/-- The remainder of words, the divisor not zero (R123). -/
def remainder (a b : Word) : Word := if mulDivSigned then a.srem b else a % b

/-- DIV has no representable quotient: −32768 / −1, which only the signed reading has (R122, U7). -/
def quotientOverflows (a b : Word) : Bool := mulDivSigned && a == 0x8000 && b == 0xFFFF

/-- The 32-bit quotient of DIVL (R125). -/
def longQuotient (n : BitVec 32) (b : Word) : BitVec 32 :=
  if mulDivSigned then n.sdiv (widen b) else n / widen b

/-- The 32-bit remainder of DIVL (R125). -/
def longRemainder (n : BitVec 32) (b : Word) : BitVec 32 :=
  if mulDivSigned then n.srem (widen b) else n % widen b

/-- The quotient of DIVL does not fit 16 bits (R125, U6). -/
def longQuotientOverflows (n : BitVec 32) (b : Word) : Bool :=
  widen ((longQuotient n b).truncate 16) != longQuotient n b

/-- The check of DIV, MOD and DIVL (R120(c), R212). -/
def requireNonZero (b : Word) : Except Abort Unit :=
  if b = 0 then .error (.raise .zeroDivide) else .ok ()

/-- `any value` for Rd and the condition flags (U7). -/
def State.freeResult (s : State) (rd : Reg) : State :=
  let d := s.drawWord
  let c := d.2.drawCond
  (c.2.writeReg rd d.1).setCond c.1

/-- `any value` for Rd, its pair register and the condition flags (R125, U6). -/
def State.freePair (s : State) (rd hi : Reg) : State :=
  let d := s.drawWord
  let e := d.2.drawWord
  let c := e.2.drawCond
  ((c.2.writeReg rd d.1).writeReg hi e.1).setCond c.1

/-- MUL Rd,EA (R121). -/
def execMul (rd : Reg) (ea : Src) (s : State) : Result :=
  conclude s do
    let b ← operand s ea
    let a := s.readReg rd
    .ok ((s.writeReg rd (a * b)).setCond (mulDivFlags .mul a b (a * b)))

/-- DIV Rd,EA (R122). -/
def execDiv (rd : Reg) (ea : Src) (s : State) : Result :=
  conclude s do
    let b ← operand s ea
    requireNonZero b
    let a := s.readReg rd
    if quotientOverflows a b then .ok (s.freeResult rd)
    else .ok ((s.writeReg rd (quotient a b)).setCond (mulDivFlags .div a b (quotient a b)))

/-- MOD Rd,EA (R123). -/
def execMod (rd : Reg) (ea : Src) (s : State) : Result :=
  conclude s do
    let b ← operand s ea
    requireNonZero b
    let a := s.readReg rd
    .ok ((s.writeReg rd (remainder a b)).setCond (mulDivFlags .mod a b (remainder a b)))

/-- MULL Rd,EA (R124): the high word to Rd+1, the low word to Rd, the flags from the low word. -/
def execMull (rd : Reg) (ea : Src) (s : State) : Result :=
  match Reg.pairHigh rd with
  | none => .refused .oddPairRegister
  | some hi =>
    conclude s do
      let b ← operand s ea
      let a := s.readReg rd
      let p := product a b
      let low := p.extractLsb' 0 16
      .ok (((s.writeReg hi (p.extractLsb' 16 16)).writeReg rd low).setCond (mulDivFlags .mull a b low))

/-- DIVL Rd,EA (R125): the quotient to Rd, the remainder to Rd+1; a quotient that does not fit leaves both registers
and the condition flags free. -/
def execDivl (rd : Reg) (ea : Src) (s : State) : Result :=
  match Reg.pairHigh rd with
  | none => .refused .oddPairRegister
  | some hi =>
    conclude s do
      let b ← operand s ea
      requireNonZero b
      let n := s.readReg hi ++ s.readReg rd
      if longQuotientOverflows n b then .ok (s.freePair rd hi)
      else
        let q := (longQuotient n b).extractLsb' 0 16
        let r := (longRemainder n b).extractLsb' 0 16
        .ok (((s.writeReg rd q).writeReg hi r).setCond (mulDivFlags .divl (s.readReg rd) b q))

end Sys2Proof.Machine
end

