-- ==== Sys2Proof/Machine/Shift.lean ====
section
/-! DEFINITION. SHLA, SHLL, SHRA, SHRL (spec/43_shift.md). -/

namespace Sys2Proof.Machine

/-- The shape the family shares (R130): `f a n` is the new Rd. -/
def shiftOp (op : ShiftOp) (f : Word → Nat → Word) (rd : Reg) (ea : Src) (s : State) : Result :=
  conclude s do
    let b ← operand s ea
    let a := s.readReg rd
    let n := shiftCount b
    .ok ((s.writeReg rd (f a n)).setCond (shiftFlags op a n (f a n)))

/-- SHLA Rd,EA (R131). -/
def execShla (rd : Reg) (ea : Src) (s : State) : Result :=
  shiftOp .shla (fun a n => a <<< n) rd ea s

/-- SHLL Rd,EA (R132). -/
def execShll (rd : Reg) (ea : Src) (s : State) : Result :=
  shiftOp .shll (fun a n => a <<< n) rd ea s

/-- SHRA Rd,EA (R133): copies of bit 15 enter. -/
def execShra (rd : Reg) (ea : Src) (s : State) : Result :=
  shiftOp .shra (fun a n => a.sshiftRight n) rd ea s

/-- SHRL Rd,EA (R134): zeros enter. -/
def execShrl (rd : Reg) (ea : Src) (s : State) : Result :=
  shiftOp .shrl (fun a n => a >>> n) rd ea s

end Sys2Proof.Machine
end

