-- ==== Sys2Proof/Machine/Stack.lean ====
section
/-! DEFINITION. PUSH, POP, RET, RETI (spec/46_stack_return.md). -/

namespace Sys2Proof.Machine

/-- Rd names the active stack pointer: Dh, or Eh while P = 0 (R170, R172). -/
def State.namesActiveSp (s : State) (rd : Reg) : Bool :=
  Reg.bank s.flag.p rd == Reg.bank s.flag.p .sp

/-- PUSH Rd (R170). -/
def execPush (rd : Reg) (s : State) : Result :=
  if s.namesActiveSp rd then .refused .pushPopOfSp
  else conclude s do
    let sp := s.readReg .sp - 2
    let s1 ← s.write16 sp (s.readReg rd)
    .ok (s1.writeReg .sp sp)

/-- POP Rd (R172). -/
def execPop (rd : Reg) (s : State) : Result :=
  if s.namesActiveSp rd then .refused .pushPopOfSp
  else conclude s do
    let sp := s.readReg .sp
    let v ← s.read16 sp
    .ok ((s.writeReg .sp (sp + 2)).writeReg rd v)

/-- RET (R171): the popped address is not checked. -/
def execRet (s : State) : Result :=
  conclude s do
    let sp := s.readReg .sp
    let t ← s.read16 sp
    let s1 := s.writeReg .sp (sp + 2)
    .ok { s1 with pc := t }

/-- All the flags of the popped word (R173). -/
def loadFlags (_old : Flags) (w : Word) : Flags := Flags.ofWord w

/-- `keepEP`: V, C, S and Z of the popped word, E and P kept (R173). -/
def loadCondFlags (old : Flags) (w : Word) : Flags :=
  { Flags.ofWord w with e := old.e, p := old.p }

/-- RETI (R173): in user mode by `RETI_USER`. -/
def execReti (s : State) : Result :=
  if s.flag.p then conclude s (returnFromTrap loadFlags s)
  else match retiUser with
    | .refuse => .refused .retiInUserMode
    | .keepEP => conclude s (returnFromTrap loadCondFlags s)
    | .privViolation => takeException .privilegeViolation s

end Sys2Proof.Machine
end

