-- ==== Sys2Proof/Machine/System.lean ====
section
/-! DEFINITION. EI, DI, SVC, HALT (spec/47_system.md). -/

namespace Sys2Proof.Machine

/-- EI (R180). -/
def execEi (s : State) : Result :=
  conclude s do
    s.requirePrivilege .ei
    .ok { s with flag := { s.flag with e := true } }

/-- DI (R181). -/
def execDi (s : State) : Result :=
  conclude s do
    s.requirePrivilege .di
    .ok { s with flag := { s.flag with e := false } }

/-- SVC (R182): trap entry, in either mode. -/
def execSvc (s : State) : Result := takeException .svc s

/-- HALT (R183): `pc` already points after it. -/
def execHalt (s : State) : Result :=
  conclude s do
    s.requirePrivilege .halt
    .ok { s with halted := true }

end Sys2Proof.Machine
end

