-- ==== Sys2Proof/Machine/Oracle.lean ====
section
/-! DEFINITION. The devices and the operator between two instructions: the spec's `DeviceOracle`
(spec/20_memory.md R61, spec/60_exceptions.md R201, R202, R216, R227, R237; log 32, 34, 35). -/

namespace Sys2Proof.Machine

/-- A request of this interrupt counts: the device's own enable bit is 1 (R202, R216), and a timer has been started
(R227). The A/D converter has no enable bit. -/
def Devices.mayRequest (d : Devices) : Irq → Bool
  | .timer0 => d.timer0.intEnable && d.timer0.start
  | .timer1 => d.timer1.intEnable && d.timer1.start
  | .rn4020Rx => d.rn4020.rxIntEnable
  | .rn4020Tx => d.rn4020.txIntEnable
  | .ft232rlRx => d.ft232rl.rxIntEnable
  | .ft232rlTx => d.ft232rl.txIntEnable
  | .tecRx => d.tec.rxIntEnable
  | .tecTx => d.tec.txIntEnable
  | .usd => d.usd.intEnable
  | .adc => true

/-- One move. -/
def State.move (s : State) : DeviceMove → State
  | .request v => if s.io.mayRequest v then { s with irq := s.irq.set v true } else s
  | .timerValue t v => { s with io := s.io.setTimer t { s.io.timer t with current := v } }
  | .timerFlag t v => { s with io := s.io.setTimer t { s.io.timer t with flag := v } }
  | .serialReceive p b => { s with io := s.io.setSerial p { s.io.serial p with received := b } }
  | .serialStatus p t r => { s with io := s.io.setSerial p { s.io.serial p with txReady := t, rxReady := r } }
  | .usdStatus i e => { s with io := { s.io with usd := { s.io.usd with idle := i, error := e } } }
  | .extPins b => { s with io := { s.io with ext := { s.io.ext with pins := b } } }
  | .adcSample ch b => { s with io := { s.io with adc := s.io.adc.setSample ch b } }
  | .storeByte a b => s.storeByte a b
  | .consoleSwitches d r f =>
    { s with io := { s.io with console := { s.io.console with dataSw := d, rotary := r, func := f } } }
  | .consoleAddress a => { s with io := { s.io with console := { s.io.console with addrReg := a } } }
  | .setReg q v => s.set q v
  | .setPc v => { s with pc := v }
  | .setFlag v => { s with flag := Flags.ofWord v }
  | .setHalted b => { s with halted := b }

/-- The moves of one boundary, in their order. -/
def State.moves (s : State) : List DeviceMove → State
  | [] => s
  | m :: ms => State.moves (s.move m) ms

/-- An instruction boundary: the scheduled moves are made; with none scheduled the devices are quiet (R201). -/
def State.boundary (s : State) : State :=
  match s.oracle with
  | [] => s
  | ms :: rest => State.moves { s with oracle := rest } ms

end Sys2Proof.Machine
end

