-- ==== Sys2Proof/Machine/Cycle.lean ====
section
/-! DEFINITION. The instruction cycle (spec/60_exceptions.md R201): interrupts, fetch, decoding, execution. -/

namespace Sys2Proof.Machine

/-- A word that is no instruction (R201 step 3): a blank OP byte raises UndefinedInstruction, with only the first word
fetched (R214); everything else is refused by its name. -/
def rejectWord (r : DecodeStop) (s : State) : Result :=
  match r with
  | .undefinedOp => takeException .undefinedInstruction s
  | .mbzField => .refused .mbzField
  | .condD => .refused .condD
  | .pcOperand => .refused .pcOperand
  | .oddPairRegister => .refused .oddPairRegister

/-- Steps 4 to 6 of the cycle, the first word decoded to `mk`: the second word is fetched where the format has one,
and the instruction executed; its own meaning makes the privilege check (R201). -/
def executeDecoded (w1 : Word) (mk : Word → Instr) (s : State) : Result :=
  if hasSecondWord w1 then
    match s.fetch16 with
    | .error r => conclude s (.error r)
    | .ok (w2, s2) => exec (mk w2) s2
  else exec (mk 0) s

/-- Steps 2 to 6 of the cycle. -/
def fetchExecute (s : State) : Result :=
  match s.fetch16 with
  | .error r => conclude s (.error r)
  | .ok (w1, s1) =>
    match decodeFirst w1 with
    | .error r => rejectWord r s1
    | .ok mk => executeDecoded w1 mk s1

/-- The cycle after the boundary's moves (R201): a halted CPU takes no step unless `HALT_WAKES_ON_IRQ` lets a request
wake it (R183); a pending request is accepted before the fetch. -/
def cycle (s : State) : Result :=
  if s.halted && !(haltWakesOnIrq && s.pending.isSome) then .fault .halted
  else match s.pending with
    | some v => acceptInterrupt v s
    | none => fetchExecute s

end Sys2Proof.Machine
end

