-- ==== Sys2Proof/Machine/Step.lean ====
section
/-! DEFINITION. One step of the machine: the moves scheduled for the boundary, then the instruction cycle
(spec/60_exceptions.md R201). -/

namespace Sys2Proof.Machine

/-- One step (R201). -/
def step (s : State) : Host.Outcome State Fault Refusal :=
  cycle s.boundary

/-- `s` with an instruction of the opcode table stored where the next step fetches: at `pc`, in the ROM too (it stands
for the image that a harness places, R257; log 5). Only what would keep that step from the fetch is changed: a
scheduled move, HALT, a pending request with E = 1, an odd `pc`, the MMU in user mode. -/
def State.withFetchWord (s : State) (nbits w : Nat) : State :=
  let pc := s.pc &&& 0xFFFE
  let t := s.placeBytes pc (tableBytes nbits w)
  { t with
    pc := pc
    oracle := []
    halted := false
    flag := { s.flag with e := s.flag.e && s.pending.isNone }
    io := { s.io with mmu := { s.io.mmu with enable := s.io.mmu.enable && s.flag.p } } }

end Sys2Proof.Machine
end

