-- ==== Sys2Proof/Safety.lean ====
section
/-! DEFINITION. The terms the statements are written in: what a run keeps, what an instruction leaves unchanged, and
what counts as a run that did not stop. -/

namespace Sys2Proof.Machine

/-- The invariant of the representation: memory is in its canonical form (log 4). -/
abbrev State.Inv (s : State) : Prop := s.mem.wf = true

/-- A step that gave a next state: no fault, no refusal. -/
def ranOn : Result → Bool
  | .next _ => true
  | .fault _ => false
  | .refused _ => false

/-- The four condition flags as one datum. -/
def State.cond (s : State) : Cond := { v := s.flag.v, c := s.flag.c, s := s.flag.s, z := s.flag.z }

/-- Every register outside `qs` keeps its content. -/
def SameRegsBut (qs : List PReg) (s t : State) : Prop := ∀ q, q ∉ qs → t.get q = s.get q

/-- Every byte of memory reads as before. -/
def SameBytes (s t : State) : Prop := ∀ a, t.byteAt a = s.byteAt a

/-- Every byte of memory reads as before, but for the writable ones among the addresses `as` (R42, R43). -/
def SameBytesBut (as : List Nat) (s t : State) : Prop := ∀ a, a ∉ as ∨ writable a = false → t.byteAt a = s.byteAt a

/-- The word `v` lies at the physical address `a`, high byte first, wherever a store can reach (R42 to R44). -/
def HoldsWord (t : State) (a v : Word) : Prop :=
  (writable a.toNat = true → t.byteAt a.toNat = highByte v) ∧
  (writable (a + 1).toNat = true → t.byteAt (a + 1).toNat = lowByte v)

/-- E, P, the halt, the requests, the devices, the MMU, the console and the model's own fields are as before. -/
def SameSystem (s t : State) : Prop :=
  t.flag.e = s.flag.e ∧ t.flag.p = s.flag.p ∧ t.halted = s.halted ∧ t.irq = s.irq ∧ t.io = s.io ∧
  t.draws = s.draws ∧ t.oracle = s.oracle

/-- What an instruction that stores nothing and only writes the registers `qs`, the condition flags and PC keeps. -/
def OnlyRegs (qs : List PReg) (s t : State) : Prop := SameRegsBut qs s t ∧ SameBytes s t ∧ SameSystem s t

/-- `r` answers a next state that holds `v` in `q` and the condition flags `c`, and keeps everything else. -/
def Yields (r : Result) (s : State) (q : PReg) (v : Word) (c : Cond) : Prop :=
  ∃ t, r = .next t ∧ t.get q = v ∧ t.cond = c ∧ t.pc = s.pc ∧ OnlyRegs [q] s t

/-- `r` answers a next state that holds `low` in `q`, `high` in `q'` and the condition flags `c`, and keeps everything
else. -/
def YieldsPair (r : Result) (s : State) (q q' : PReg) (low high : Word) (c : Cond) : Prop :=
  ∃ t, r = .next t ∧ t.get q = low ∧ t.get q' = high ∧ t.cond = c ∧ t.pc = s.pc ∧ OnlyRegs [q, q'] s t

/-- `t` is `s` with the word `v` stored at the physical address `pa` (nothing where no store reaches), the registers
`qs` and PC apart. -/
def StoresWord (qs : List PReg) (pa v : Word) (s t : State) : Prop :=
  HoldsWord t pa v ∧ SameBytesBut [pa.toNat, (pa + 1).toNat] s t ∧ SameRegsBut qs s t ∧ SameSystem s t ∧
  t.cond = s.cond

/-- `i` goes to the target exactly when `taken`, changes nothing but PC, and is encoded in the jump group with the
condition code `cc` (R76, R140). -/
def JumpsWhen (i : Instr) (cc : BitVec 4) (taken : Bool) (ea : Target) (s : State) : Prop :=
  exec i s = .next (if taken then { s with pc := targetAddr s ea } else s) ∧
  ∃ w, (encode i).head? = some w ∧ rdField w = cc ∧ opByte w ∈ [0xA0#8, 0xA1#8, 0xA6#8]

/-- `t` is the state in which the handler of `vector` starts, entered from `s` with the saved PC `savedPc` (R205). -/
def EntersTrap (vector savedPc : Word) (s t : State) : Prop :=
  t.flag = { s.flag with p := true, e := false } ∧
  t.get .ssp = s.get .ssp - 4 ∧
  HoldsWord t (s.get .ssp - 2) savedPc ∧
  HoldsWord t (s.get .ssp - 4) s.flag.toWord ∧
  t.pc = t.wordAt vector ∧
  SameRegsBut [.ssp] s t ∧
  SameBytesBut [(s.get .ssp - 1).toNat, (s.get .ssp - 2).toNat, (s.get .ssp - 3).toNat, (s.get .ssp - 4).toNat] s t ∧
  t.halted = s.halted ∧ t.irq = s.irq ∧ t.io = s.io ∧ t.draws = s.draws ∧ t.oracle = s.oracle

/-- No interrupt is accepted at this boundary: E = 0, or nothing requested (R203). -/
def NoInterrupt (s : State) : Prop := s.flag.e = false ∨ ∀ v, s.irq.get v = false

/-- The byte at the physical address `a` lies in the ROM, and no image of it was placed (R41, R43, U32). -/
def RomUnknown (s : State) (a : Word) : Prop := 0xF000 ≤ a.toNat ∧ a.toNat ≤ 0xFFDF ∧ s.mem.read a.toNat = none

/-- The word at PC can be fetched, from the physical address `pa`: the checks of a word access let it through, and no
byte of it is of unknown content (R17, R48). -/
def FetchesFrom (s : State) (pa : Word) : Prop :=
  s.wordAddr s.pc = .ok pa ∧ ¬ RomUnknown s pa ∧ ¬ RomUnknown s (pa + 1)

/-- The checks let the fetch at PC through, and a byte of its word is in the unknown ROM (U32). -/
def FetchesUnknownRom (s : State) : Prop :=
  ∃ pa, s.wordAddr s.pc = .ok pa ∧ (RomUnknown s pa ∨ RomUnknown s (pa + 1))

/-- The OP bytes whose cell of the OP map is blank, as ranges (R77(a)). -/
def blankRanges : List (Nat × Nat) :=
  [(0x01, 0x07), (0x12, 0x12), (0x15, 0x15), (0x78, 0x7F), (0xA2, 0xA5), (0xA7, 0xA7), (0xAA, 0xAD), (0xAF, 0xAF),
   (0xB1, 0xB5), (0xB9, 0xBD), (0xC1, 0xC3), (0xC5, 0xC7), (0xC8, 0xCF), (0xD1, 0xD3), (0xD5, 0xD7), (0xD8, 0xDF),
   (0xE1, 0xE3), (0xE5, 0xE7), (0xE8, 0xEF), (0xF1, 0xF7), (0xF8, 0xFE)]

/-- An OP byte with a blank cell. -/
def isBlankOp (op : Byte) : Bool := blankRanges.any fun r => r.1 ≤ op.toNat && op.toNat ≤ r.2

/-- The seventeen instructions with the eight source forms (R81). -/
def sourceInstrs : List (Reg → Src → Instr) :=
  [.ld, .add, .sub, .cmp, .and, .or, .xor, .adds, .mul, .div, .mod, .mull, .divl, .shla, .shll, .shra, .shrl]

/-- The form of ST that stores one byte (R102). -/
def dstIsByte : Dst → Bool
  | .byteIndirect _ => true
  | _ => false

/-- An I/O access that R53 defines: a word at an even address, or a byte that is not half of a 16-bit port. -/
def ioDefined (ea : Port) (a : Byte) : Bool :=
  if portIsByte ea then !(portOf a).isWide else !a.getLsbD 0

end Sys2Proof.Machine
end

