-- ==== Sys2Proof/Certificates/Slice0/Obligations.lean ====
section
/-! DEFINITION. The statements for the provers. "log n" is notes/assumptions/n.md; a clause that rests on a log entry
is the spec's decision or the model's choice, not the sheet's word. -/

open Sys2Proof Sys2Proof.Machine

/-! ### Encoding (spec/30_encoding.md) -/

/-- Every well-formed instruction's words decode to it, whatever bytes follow. Strict must-be-zero fields: log 19. -/
def Obligations.DecodeOfEncode : Prop :=
  ∀ (i : Instr) (rest : List Byte), i.wf = true → decodeBytes (wordBytes (encode i) ++ rest) = .ok (i, rest)

/-- Bytes that decode to an instruction are its encoding, and it is well-formed: each word has one meaning (log 17 to
20). -/
def Obligations.EncodeOfDecode : Prop :=
  ∀ (bs : List Byte) (i : Instr) (rest : List Byte), decodeBytes bs = .ok (i, rest) →
    i.wf = true ∧ bs = wordBytes (encode i) ++ rest

/-- The decoder calls a word undefined exactly when its OP byte is one of the 93 blank cells (R77(a); log 20). -/
def Obligations.UndefinedOpBytes : Prop :=
  (∀ w : Word, decodeFirst w = .error .undefinedOp ↔ isBlankOp (opByte w) = true) ∧
  (List.range 256).countP (fun n => isBlankOp (BitVec.ofNat 8 n)) = 93

/-- The decoder refuses condition code Dh exactly in the jump group, once the must-be-zero field of mode 0 is zero
(R77(b), R82; log 20). -/
def Obligations.ConditionDRefused : Prop :=
  ∀ w : Word, decodeFirst w = .error .condD ↔
    opByte w ∈ [0xA0#8, 0xA1#8, 0xA6#8] ∧ rdField w = 0xD ∧ (opByte w = 0xA0 → rxField w = 0)

/-- The words of the encoding section's examples decode to the instructions they stand for. -/
def Obligations.SampleWordsDecode : Prop :=
  decode 0x0810 0x1000 = .ok (.ld .g1 (.direct 0x1000)) ∧
  decode 0x0912 0x1000 = .ok (.ld .g1 (.indexed 0x1000 .g2)) ∧
  decode 0x0A10 0x1234 = .ok (.ld .g1 (.imm 0x1234)) ∧
  decode 0x0B1E 0 = .ok (.ld .g1 (.fpRel 0xE)) ∧
  decode 0x0C12 0 = .ok (.ld .g1 (.reg .g2)) ∧
  decode 0x0D1F 0 = .ok (.ld .g1 (.imm4 0xF)) ∧
  decode 0x0E12 0 = .ok (.ld .g1 (.indirect .g2)) ∧
  decode 0x0F12 0 = .ok (.ld .g1 (.byteIndirect .g2)) ∧
  decode 0xC030 0 = .ok (.push .g3) ∧
  decode 0xD000 0 = .ok .ret ∧
  decode 0x1400 0 = .ok (.ldFlag .g0) ∧
  decode 0xA0F0 0x0100 = .ok (.jmp (.direct 0x0100)) ∧
  decode 0xAE05 0 = .ok (.call (.indirect .g5)) ∧
  decode 0xB000 0x0008 = .ok (.inp .g0 (.direct 0x0008))

/-! ### The step (spec/60_exceptions.md R201) -/

/-- A fetch answers exactly when the word at PC can be fetched, with the two bytes memory holds there, high byte first, and
PC past them (R17, R45, R48, R60; log 6, 36). At a boundary without an accepted interrupt, a word that decodes is run: one
word when its encoding has one, else two; PC is past the whole instruction when it runs (R17, R72, R201). The second word is
fetched before the instruction's own privilege check (log 25), and PC advances modulo 65536 (log 8); where a fetch cannot
be made because the ROM's content is unknown: log 5. -/
def Obligations.StepRunsDecodedInstruction : Prop :=
  (∀ (s u : State) (w : Word), s.fetch16 = .ok (w, u) ↔
    ∃ pa, FetchesFrom s pa ∧ w = s.byteAt pa.toNat ++ s.byteAt (pa + 1).toNat ∧ u = { s with pc := s.pc + 2 }) ∧
  (∀ (w1 w2 : Word) (i : Instr), decode w1 w2 = .ok i →
    (encode i).length = if hasSecondWord w1 then 2 else 1) ∧
  (∀ (s : State) (pa : Word), s.boundary.halted = false → NoInterrupt s.boundary → FetchesFrom s.boundary pa →
    let w1 := s.boundary.byteAt pa.toNat ++ s.boundary.byteAt (pa + 1).toNat
    let s1 := { s.boundary with pc := s.boundary.pc + 2 }
    s.boundary.fetch16 = .ok (w1, s1) ∧
    (hasSecondWord w1 = false → ∀ w2 i, decode w1 w2 = .ok i → step s = exec i s1) ∧
    (hasSecondWord w1 = true → ∀ pa2, FetchesFrom s1 pa2 →
      let w2 := s1.byteAt pa2.toNat ++ s1.byteAt (pa2 + 1).toNat
      let s2 := { s.boundary with pc := s.boundary.pc + 4 }
      s1.fetch16 = .ok (w2, s2) ∧ ∀ i, decode w1 w2 = .ok i → step s = exec i s2))

/-- With E = 1 the pending request of lowest vector address is accepted before the fetch: it is cleared, the others
stay, and its handler is entered with the boundary's PC: P set, E cleared, PC and FLAG pushed on SSP, PC from the
vector word (R201, R203 to R206; log 24 to 27). The entry is log 24, the saved PC log 25, the choice among requests
log 26, the moment of acceptance log 27. With an odd SSP the entry is stuck (R208; log 24). The ten vectors are those of
R200. -/
def Obligations.StepAcceptsInterrupt : Prop :=
  ∀ (s : State) (v : Irq),
    s.boundary.halted = false → s.boundary.flag.e = true → s.boundary.irq.get v = true →
    (∀ v', s.boundary.irq.get v' = true → v.vector.toNat ≤ v'.vector.toNat) →
    ((s.boundary.get .ssp).getLsbD 0 = false →
      ∃ t, step s = .next t ∧
        EntersTrap v.vector s.boundary.pc { s.boundary with irq := t.irq } t ∧
        t.irq.get v = false ∧ ∀ v', v' ≠ v → t.irq.get v' = s.boundary.irq.get v') ∧
    ((s.boundary.get .ssp).getLsbD 0 = true → step s = .fault .stuckTrapEntry) ∧
    [Irq.timer0, .timer1, .rn4020Rx, .rn4020Tx, .ft232rlRx, .ft232rlTx, .tecRx, .tecTx, .usd, .adc].map Irq.vector =
      [0xFFE0, 0xFFE2, 0xFFE4, 0xFFE6, 0xFFE8, 0xFFEA, 0xFFEC, 0xFFEE, 0xFFF0, 0xFFF2]

/-- What a step does when a fetch or the decoding raises: an odd PC (log 7), a PC the MMU's check turns away (log 28), a
blank OP byte (log 20), a second word that cannot be fetched; the exception is taken with the PC of that moment (log 25)
and entered as log 24 says (R17, R56, R201, R205, R206, R210, R211, R214). -/
def Obligations.StepTakesFetchExceptions : Prop :=
  ∀ s : State, s.boundary.halted = false → NoInterrupt s.boundary →
    (s.boundary.pc.getLsbD 0 = true → step s = takeException .oddAddress s.boundary) ∧
    (s.boundary.pc.getLsbD 0 = false → s.boundary.flag.p = false → s.boundary.io.mmu.enable = true →
      s.boundary.io.mmu.limit.toNat ≤ s.boundary.pc.toNat → step s = takeException .memoryProtection s.boundary) ∧
    (∀ w u, s.boundary.fetch16 = .ok (w, u) → isBlankOp (opByte w) = true →
      step s = takeException .undefinedInstruction { s.boundary with pc := s.boundary.pc + 2 }) ∧
    (∀ w u mk x, s.boundary.fetch16 = .ok (w, u) → decodeFirst w = .ok mk → hasSecondWord w = true →
      u.fetch16 = .error (.raise x) →
      step s = takeException x { s.boundary with pc := s.boundary.pc + 2 })

/-- Where a step stops: a halted CPU (R183, log 30), a word the decoder refuses (R14, R73, R77(b), R126; log 17 to
20), an instruction of which a byte of the first or of the second word lies in the unknown ROM, in either mode and through
the MMU too (R43, R56, U32; log 5, 28). The field value Fh alone names no register (R14; log 17). -/
def Obligations.StepStops : Prop :=
  (∀ f : BitVec 4, Reg.ofField f = none ↔ f = 0xF) ∧
  ∀ s : State,
    (s.boundary.halted = true → step s = .fault .halted) ∧
    (s.boundary.halted = false → NoInterrupt s.boundary →
      (∀ w u, s.boundary.fetch16 = .ok (w, u) → decodeFirst w = .error .mbzField → step s = .refused .mbzField) ∧
      (∀ w u, s.boundary.fetch16 = .ok (w, u) → decodeFirst w = .error .condD → step s = .refused .condD) ∧
      (∀ w u, s.boundary.fetch16 = .ok (w, u) → decodeFirst w = .error .pcOperand → step s = .refused .pcOperand) ∧
      (∀ w u, s.boundary.fetch16 = .ok (w, u) → decodeFirst w = .error .oddPairRegister →
        step s = .refused .oddPairRegister) ∧
      (FetchesUnknownRom s.boundary → step s = .refused .executeFromUnknownRom) ∧
      (∀ w u mk, s.boundary.fetch16 = .ok (w, u) → decodeFirst w = .ok mk → hasSecondWord w = true →
        FetchesUnknownRom u → step s = .refused .executeFromUnknownRom))

/-! ### Reset and invariants -/

/-- What reset leaves, by the spec's parameters and assumptions (R251, R254; log 3, 31), RN4020-Cmd = 0001 as printed
(R233); the first step after reset with nothing placed is refused (U32; log 5). -/
def Obligations.ResetValues : Prop :=
  State.reset.pc = 0xF000 ∧ State.reset.flag.toWord = 0x0040 ∧ State.reset.halted = false ∧
  (∀ v, State.reset.irq.get v = false) ∧ State.reset.io.mmu.enable = false ∧
  State.reset.io.rnCmd = { f := false, h := false, c := false, s := true } ∧
  (∀ t, (State.reset.io.timer t).intEnable = false ∧ (State.reset.io.timer t).start = false) ∧
  (∀ p, (State.reset.io.serial p).txIntEnable = false ∧ (State.reset.io.serial p).rxIntEnable = false) ∧
  State.reset.io.usd.intEnable = false ∧ State.reset.io.ext.hiOutput = false ∧
  step State.reset = .refused .executeFromUnknownRom

/-- The memory of the state after reset is in canonical form (log 4). -/
def Obligations.ResetMemoryCanonical : Prop := State.reset.Inv

/-- Every step keeps memory in canonical form: rising addresses below 65536 (log 4). -/
def Obligations.StepKeepsMemoryCanonical : Prop :=
  ∀ s t : State, s.Inv → step s = .next t → t.Inv

/-- No step, of the CPU, the devices or the operator, changes a byte of the ROM (R41, R43; log 37). -/
def Obligations.StepNeverChangesRom : Prop :=
  ∀ (s t : State) (a : Nat), step s = .next t → 0xF000 ≤ a → a ≤ 0xFFDF → t.byteAt a = s.byteAt a

/-- While the devices and the operator are quiet, P rises only by trap entry, and falls only by RETI (word D400h)
popping a FLAG word with bit 6 = 0 (R219; log 23, 24). -/
def Obligations.PrivilegeTransitions : Prop :=
  ∀ s t : State, s.oracle = [] → step s = .next t →
    (s.flag.p = false → t.flag.p = true →
      ∃ vector : Word, 0xFFE0 ≤ vector.toNat ∧ vector.getLsbD 0 = false ∧ t.pc = t.wordAt vector ∧
        t.get .ssp = s.get .ssp - 4 ∧ t.flag.e = false ∧ HoldsWord t (s.get .ssp - 4) s.flag.toWord) ∧
    (s.flag.p = true → t.flag.p = false →
      (∃ u, s.fetch16 = .ok (0xD400, u)) ∧ (s.wordAt (s.get .ssp)).getLsbD 6 = false)

/-- What user mode cannot change while the devices and the operator are quiet: the devices and the MMU, the halt; and,
as long as it stays in user mode, SSP, E and the requests (R222; log 21). -/
def Obligations.UserModeProtects : Prop :=
  ∀ s t : State, s.oracle = [] → s.flag.p = false → step s = .next t →
    t.io = s.io ∧ t.halted = s.halted ∧
    (t.flag.p = false → t.get .ssp = s.get .ssp ∧ t.flag.e = s.flag.e ∧ t.irq = s.irq)

/-- A user-mode step that stays in user mode, with the MMU on and an even limit, stores only inside the window of
`limit` bytes from `base`. With an odd limit the rule checks only the first byte of a word (R49, R56, R222; log 28). -/
def Obligations.MmuConfinesUserStores : Prop :=
  ∀ (s t : State) (a : Nat), s.oracle = [] → s.flag.p = false → s.io.mmu.enable = true →
    s.io.mmu.limit.getLsbD 0 = false → step s = .next t → t.flag.p = false →
    (∀ k : Nat, k < s.io.mmu.limit.toNat → a ≠ (s.io.mmu.base.toNat + k) % 65536) →
    t.byteAt a = s.byteAt a

/-- No instruction touches a request or the schedule, only OUT writes a device, only HALT halts (R57, R183, R202; log
44). A request bit is set at a boundary, by the schedule, exactly when the device's own enable bit is 1, and stays set
(R202, R216; log 32); the A/D converter has no enable bit, and a timer must also run (R227; log 35). -/
def Obligations.InstructionsKeepDevices : Prop :=
  (∀ (i : Instr) (s t : State), exec i s = .next t →
    t.irq = s.irq ∧ t.oracle = s.oracle ∧ ((∀ rd ea, i ≠ .out rd ea) → t.io = s.io) ∧
    (i ≠ .halt → t.halted = s.halted)) ∧
  (∀ (s : State) (v : Irq), s.boundary.irq.get v = true ↔
    s.irq.get v = true ∨
    ∃ ms rest, s.oracle = ms :: rest ∧ DeviceMove.request v ∈ ms ∧ s.io.mayRequest v = true) ∧
  (∀ d : Devices,
    d.mayRequest .timer0 = (d.timer0.intEnable && d.timer0.start) ∧
    d.mayRequest .timer1 = (d.timer1.intEnable && d.timer1.start) ∧
    d.mayRequest .rn4020Rx = d.rn4020.rxIntEnable ∧ d.mayRequest .rn4020Tx = d.rn4020.txIntEnable ∧
    d.mayRequest .ft232rlRx = d.ft232rl.rxIntEnable ∧ d.mayRequest .ft232rlTx = d.ft232rl.txIntEnable ∧
    d.mayRequest .tecRx = d.tec.rxIntEnable ∧ d.mayRequest .tecTx = d.tec.txIntEnable ∧
    d.mayRequest .usd = d.usd.intEnable ∧ d.mayRequest .adc = true)

/-! ### Registers and memory -/

/-- Register number Dh is SSP or USP by P, Eh is USP (R13). The numbers 0h to Ch name G0 to G11 and FP, whatever P is: a
read gives the register's content, a write replaces it and nothing else, no register is wired to a constant, and FP is the
base of the FP relative mode (R11, R12). -/
def Obligations.StackPointerBanking : Prop :=
  ∀ (s : State) (v : Word),
    Reg.toField .sp = 0xD ∧ Reg.toField .usp = 0xE ∧
    s.readReg .sp = (if s.flag.p then s.get .ssp else s.get .usp) ∧
    (s.flag.p = true → s.writeReg .sp v = { s with regs := { s.regs with ssp := v } }) ∧
    (s.flag.p = false → s.writeReg .sp v = { s with regs := { s.regs with usp := v } }) ∧
    s.readReg .usp = s.get .usp ∧
    s.writeReg .usp v = { s with regs := { s.regs with usp := v } } ∧
    (s.flag.p = false → ∀ r : Reg, (s.writeReg r v).get .ssp = s.get .ssp) ∧
    (s.flag.p = false → ∀ r : Reg, Reg.bank s.flag.p r ≠ .ssp) ∧
    Reg.ofField 0xD = some .sp ∧ Reg.ofField 0xE = some .usp ∧ (∀ r : Reg, Reg.ofField r.toField = some r) ∧
    (∀ r : Reg, s.readReg r = s.get (Reg.bank s.flag.p r) ∧ s.writeReg r v = s.set (Reg.bank s.flag.p r) v) ∧
    (∀ (p : Bool) (k : Nat), k < 13 → (Reg.ofField (BitVec.ofNat 4 k)).map (Reg.bank p) =
      [PReg.g0, .g1, .g2, .g3, .g4, .g5, .g6, .g7, .g8, .g9, .g10, .g11, .fp][k]?) ∧
    (∀ k : Nat, k < 13 → (Reg.ofField (BitVec.ofNat 4 k)).map s.readReg =
      [s.regs.g0, s.regs.g1, s.regs.g2, s.regs.g3, s.regs.g4, s.regs.g5, s.regs.g6, s.regs.g7, s.regs.g8, s.regs.g9,
        s.regs.g10, s.regs.g11, s.regs.fp][k]?) ∧
    (∀ k : Nat, k < 13 → (Reg.ofField (BitVec.ofNat 4 k)).map (fun r => (s.writeReg r v).regs) =
      [{ s.regs with g0 := v }, { s.regs with g1 := v }, { s.regs with g2 := v }, { s.regs with g3 := v },
        { s.regs with g4 := v }, { s.regs with g5 := v }, { s.regs with g6 := v }, { s.regs with g7 := v },
        { s.regs with g8 := v }, { s.regs with g9 := v }, { s.regs with g10 := v }, { s.regs with g11 := v },
        { s.regs with fp := v }][k]?) ∧
    (∀ r : Reg, s.writeReg r v = { s with regs := (s.writeReg r v).regs } ∧ (s.writeReg r v).readReg r = v) ∧
    dstAddr s (.fpRel 0) = s.regs.fp

/-- A word is its two bytes, the high byte at the lower address, and a listed byte reads as listed; a word stored where a
store can reach reads back (R44, R48, R49; log 4, 6); stores reach everything but F000h to FFDFh, where they change nothing
(R41 to R43; log 37). -/
def Obligations.WordStoreReadsBack : Prop :=
  ∀ (s : State) (a v : Word),
    s.wordAt a = s.byteAt a.toNat ++ s.byteAt (a + 1).toNat ∧
    (∀ k b, s.mem.read k = some b → s.byteAt k = b) ∧
    (∀ k : Nat, writable k = !inRom k ∧ (inRom k = true ↔ 0xF000 ≤ k ∧ k ≤ 0xFFDF)) ∧
    (writable a.toNat = true → writable (a + 1).toNat = true →
      (s.storeWord a v).wordAt a = v ∧ (s.storeWord a v).byteAt a.toNat = v.extractLsb' 8 8 ∧
      (s.storeWord a v).byteAt (a + 1).toNat = v.extractLsb' 0 8) ∧
    (∀ k : Nat, k ≠ a.toNat → k ≠ (a + 1).toNat → (s.storeWord a v).byteAt k = s.byteAt k) ∧
    (inRom a.toNat = true → inRom (a + 1).toNat = true → s.storeWord a v = s)

/-- The checks of a memory access, in their order: for a word an odd logical address, then the MMU in user mode, else
the access happens at the relocated address; a byte access has no alignment requirement (R46 to R50, R56; log 7, 26,
28). The address a word access or a byte access comes to is said by itself too. -/
def Obligations.MemoryAccessChecks : Prop :=
  ∀ (s : State) (a v : Word) (b : Byte),
    (a.getLsbD 0 = true → s.wordAddr a = .error (.raise .oddAddress) ∧
      s.read16 a = .error (.raise .oddAddress) ∧ s.write16 a v = .error (.raise .oddAddress)) ∧
    (a.getLsbD 0 = false → s.wordAddr a = s.translate a) ∧
    (s.flag.p = false → s.io.mmu.enable = true → s.io.mmu.limit.toNat ≤ a.toNat →
      s.translate a = .error (.raise .memoryProtection) ∧
      (a.getLsbD 0 = false →
        s.read16 a = .error (.raise .memoryProtection) ∧ s.write16 a v = .error (.raise .memoryProtection)) ∧
      s.read8 a = .error (.raise .memoryProtection) ∧ s.write8 a b = .error (.raise .memoryProtection)) ∧
    (s.flag.p = false → s.io.mmu.enable = true → a.toNat < s.io.mmu.limit.toNat →
      s.translate a = .ok (a + s.io.mmu.base) ∧
      (a.getLsbD 0 = false →
        s.read16 a = .ok (s.wordAt (a + s.io.mmu.base)) ∧
        s.write16 a v = .ok (s.storeWord (a + s.io.mmu.base) v)) ∧
      s.read8 a = .ok (s.byteAt (a + s.io.mmu.base).toNat) ∧
      s.write8 a b = .ok (s.storeByte (a + s.io.mmu.base) b)) ∧
    (s.flag.p = true ∨ s.io.mmu.enable = false →
      s.translate a = .ok a ∧
      (a.getLsbD 0 = false → s.read16 a = .ok (s.wordAt a) ∧ s.write16 a v = .ok (s.storeWord a v)) ∧
      s.read8 a = .ok (s.byteAt a.toNat) ∧ s.write8 a b = .ok (s.storeByte a b))

/-- The operand of each of the eight modes, by the spec's table of operands (R79, R80), the byte zero-extended
(log 9) and the sums modulo 65536 (log 8); the effective address of ST in each of its modes (R79, R102), of the jumps and
CALL (R79, R140), of IN and OUT (R79, R160, R161), and which of these modes move a byte. -/
def Obligations.OperandForms : Prop :=
  ∀ s : State,
    (∀ dsp, operand s (.direct dsp) = s.read16 dsp) ∧
    (∀ dsp rx, operand s (.indexed dsp rx) =
      s.read16 (BitVec.ofNat 16 (dsp.toNat + (s.readReg rx).toNat))) ∧
    (∀ v, operand s (.imm v) = .ok v) ∧
    (∀ d4 : BitVec 4, operand s (.fpRel d4) =
      s.read16 (BitVec.ofInt 16 (2 * d4.toInt + ((s.get .fp).toNat : Int)))) ∧
    (∀ rs, operand s (.reg rs) = .ok (s.readReg rs)) ∧
    (∀ i4 : BitVec 4, operand s (.imm4 i4) = .ok (BitVec.ofInt 16 i4.toInt)) ∧
    (∀ rx, operand s (.indirect rx) = s.read16 (s.readReg rx)) ∧
    (∀ rx b, s.read8 (s.readReg rx) = .ok b → operand s (.byteIndirect rx) = .ok (BitVec.ofNat 16 b.toNat)) ∧
    (∀ rx r, s.read8 (s.readReg rx) = .error r → operand s (.byteIndirect rx) = .error r) ∧
    (∀ dsp, dstAddr s (.direct dsp) = dsp ∧ targetAddr s (.direct dsp) = dsp ∧ portAddr s (.direct dsp) = dsp) ∧
    (∀ dsp rx,
      dstAddr s (.indexed dsp rx) = BitVec.ofNat 16 (dsp.toNat + (s.readReg rx).toNat) ∧
      targetAddr s (.indexed dsp rx) = BitVec.ofNat 16 (dsp.toNat + (s.readReg rx).toNat)) ∧
    (∀ d4 : BitVec 4, dstAddr s (.fpRel d4) = BitVec.ofInt 16 (2 * d4.toInt + ((s.get .fp).toNat : Int))) ∧
    (∀ rx, dstAddr s (.indirect rx) = s.readReg rx ∧ targetAddr s (.indirect rx) = s.readReg rx ∧
      portAddr s (.indirect rx) = s.readReg rx) ∧
    (∀ rx, dstAddr s (.byteIndirect rx) = s.readReg rx ∧ portAddr s (.byteIndirect rx) = s.readReg rx) ∧
    (∀ ea, dstIsByte ea = true ↔ ∃ rx, ea = .byteIndirect rx) ∧
    (∀ ea, portIsByte ea = true ↔ ∃ rx, ea = .byteIndirect rx)

/-- `sext_16` copies bit 3 of a 4-bit field into bits 15 to 4, which gives −8 to 7 (R78); the I4 operand is it (R80), and
the FP relative address is twice it plus FP (R79), modulo 65536 (log 8). -/
def Obligations.SignExtension : Prop :=
  ∀ v : BitVec 4,
    (∀ k, k < 4 → (sext16 v).getLsbD k = v.getLsbD k) ∧
    (∀ k, 4 ≤ k → k < 16 → (sext16 v).getLsbD k = v.getLsbD 3) ∧
    (sext16 v).toInt = (if v.toNat < 8 then (v.toNat : Int) else (v.toNat : Int) - 16) ∧
    -8 ≤ (sext16 v).toInt ∧ (sext16 v).toInt ≤ 7 ∧
    (∀ s : State, operand s (.imm4 v) = .ok (sext16 v)) ∧
    (∀ s : State, operand s (.fpRel v) = s.read16 (sext16 v * 2 + s.get .fp))

/-- The two encodings the assembler chooses between give the same operand, and the short one is one word (R84). The ranges
at which it chooses the short one, −8 to 7 and the even −16 to 14, are the spec's inference from the field widths
(log 47). -/
def Obligations.ShortFormsEquivalent : Prop :=
  ∀ (s : State) (v : Word) (rd : Reg),
    operand s (immediateForm v) = operand s (.imm v) ∧
    operand s (fpOffsetForm v) = operand s (.indexed v .fp) ∧
    ((encode (.ld rd (immediateForm v))).length = 1 ↔ -8 ≤ v.toInt ∧ v.toInt ≤ 7) ∧
    ((encode (.ld rd (fpOffsetForm v))).length = 1 ↔ -16 ≤ v.toInt ∧ v.toInt ≤ 14 ∧ v.getLsbD 0 = false)

/-! ### Exceptions (spec/60_exceptions.md) -/

/-- Taking an exception: the handler of its vector word is entered with the PC of the moment (R200, R205, R206; log 24,
25); with an odd SSP trap entry is stuck (R208; log 24). -/
def Obligations.TakingAnException : Prop :=
  ∀ (x : Exc) (s : State),
    ((s.get .ssp).getLsbD 0 = false → ∃ t, takeException x s = .next t ∧ EntersTrap x.vector s.pc s t) ∧
    ((s.get .ssp).getLsbD 0 = true → takeException x s = .fault .stuckTrapEntry) ∧
    Exc.vector .oddAddress = 0xFFF4 ∧ Exc.vector .memoryProtection = 0xFFF6 ∧ Exc.vector .zeroDivide = 0xFFF8 ∧
    Exc.vector .privilegeViolation = 0xFFFA ∧ Exc.vector .undefinedInstruction = 0xFFFC ∧ Exc.vector .svc = 0xFFFE

/-- RETI undoes trap entry, through any vector and with any saved PC, of an exception and of an interrupt: run in the
handler's state, with the frame where stores reach, it restores PC, FLAG and SSP, and every register (R205 to R207; log
24, 25). -/
def Obligations.RetiUndoesTrapEntry : Prop :=
  ∀ s : State, (∀ k : Nat, k < 4 → writable (s.get .ssp - 4 + BitVec.ofNat 16 k).toNat = true) →
    (∀ (vector savedPc : Word) (t : State), trapEntry vector savedPc s = .next t →
      exec .reti t = .next { t with regs := s.regs, flag := s.flag, pc := savedPc }) ∧
    (∀ (x : Exc) (t : State), takeException x s = .next t →
      exec .reti t = .next { t with regs := s.regs, flag := s.flag, pc := s.pc }) ∧
    (∀ (v : Irq) (t : State), acceptInterrupt v s = .next t →
      exec .reti t = .next { t with regs := s.regs, flag := s.flag, pc := s.pc })

/-- An operand that cannot be read makes each of the seventeen source instructions take that exception from the state
before it, so that no register and no flag was written (R80, R209; log 7). -/
def Obligations.OperandFaultIsTaken : Prop :=
  ∀ (mk : Reg → Src → Instr) (rd : Reg) (ea : Src) (s : State) (x : Exc), mk ∈ sourceInstrs →
    (mk rd ea).wf = true → operand s ea = .error (.raise x) → exec (mk rd ea) s = takeException x s

/-- A store or a stack access that fails is taken from the state before the instruction: nothing was written, the stack
pointer not moved (R46, R102, R156, R170 to R173, R209; log 7). -/
def Obligations.StoreAndStackFaultsAreTaken : Prop :=
  ∀ (s : State) (x : Exc),
    (∀ rd ea, dstIsByte ea = false → s.wordAddr (dstAddr s ea) = .error (.raise x) →
      exec (.st rd ea) s = takeException x s) ∧
    (∀ rd ea, dstIsByte ea = true → s.translate (dstAddr s ea) = .error (.raise x) →
      exec (.st rd ea) s = takeException x s) ∧
    (s.wordAddr (s.readReg .sp - 2) = .error (.raise x) →
      (∀ ea, exec (.call ea) s = takeException x s) ∧
      (∀ rd, Reg.bank s.flag.p rd ≠ Reg.bank s.flag.p .sp → exec (.push rd) s = takeException x s)) ∧
    (s.wordAddr (s.readReg .sp) = .error (.raise x) →
      exec .ret s = takeException x s ∧
      (∀ rd, Reg.bank s.flag.p rd ≠ Reg.bank s.flag.p .sp → exec (.pop rd) s = takeException x s) ∧
      (s.flag.p = true → exec .reti s = takeException x s))

/-- DIV, MOD and DIVL by zero take ZeroDivide with Rd, Rd+1 and the flags unchanged (R120, R212; log 15). -/
def Obligations.ZeroDivideIsTaken : Prop :=
  ∀ (rd : Reg) (ea : Src) (s : State), operand s ea = .ok 0 →
    exec (.div rd ea) s = takeException .zeroDivide s ∧ exec (.mod rd ea) s = takeException .zeroDivide s ∧
    (rd.headsPair = true → exec (.divl rd ea) s = takeException .zeroDivide s)

/-- IN, OUT, EI, DI and HALT in user mode take PrivilegeViolation and do nothing else (R213, R220; log 21). -/
def Obligations.PrivilegedTrapInUserMode : Prop :=
  ∀ s : State, s.flag.p = false →
    (∀ rd ea, exec (.inp rd ea) s = takeException .privilegeViolation s) ∧
    (∀ rd ea, exec (.out rd ea) s = takeException .privilegeViolation s) ∧
    exec .ei s = takeException .privilegeViolation s ∧ exec .di s = takeException .privilegeViolation s ∧
    exec .halt s = takeException .privilegeViolation s

/-- SVC enters the handler of FFFEh in either mode, the saved PC past it (R182, R206, R215; log 24). -/
def Obligations.SvcEntersItsHandler : Prop :=
  ∀ s : State, (s.get .ssp).getLsbD 0 = false →
    ∃ t, exec .svc s = .next t ∧ EntersTrap 0xFFFE s.pc s t

/-- The forms the spec refuses, each by its name: PUSH and POP of the active stack pointer (log 42), RETI in user mode
(log 23), MULL and DIVL without a pair (log 18), I/O addresses above FFh and undefined I/O accesses (log 29). -/
def Obligations.RefusedForms : Prop :=
  ∀ (s : State) (rd : Reg),
    (Reg.bank s.flag.p rd = Reg.bank s.flag.p .sp →
      exec (.push rd) s = .refused .pushPopOfSp ∧ exec (.pop rd) s = .refused .pushPopOfSp) ∧
    (s.flag.p = false → exec .reti s = .refused .retiInUserMode) ∧
    (rd.headsPair = false → ∀ ea,
      exec (.mull rd ea) s = .refused .oddPairRegister ∧ exec (.divl rd ea) s = .refused .oddPairRegister) ∧
    (s.flag.p = true → ∀ ea, 0xFF < (portAddr s ea).toNat →
      exec (.inp rd ea) s = .refused .ioAddressHigh ∧ exec (.out rd ea) s = .refused .ioAddressHigh) ∧
    (s.flag.p = true → ∀ (ea : Port) (a : Byte), portAddr s ea = a.zeroExtend 16 → ioDefined ea a = false →
      exec (.inp rd ea) s = .refused .ioMisaligned ∧ exec (.out rd ea) s = .refused .ioMisaligned)

/-! ### NO, LD, ST (spec/40_load_store.md) -/

/-- NO changes nothing (PC is past it) and is the word 0000h (R100); a word 00xyh with xy ≠ 00h is refused (R73; log
19). -/
def Obligations.NoDoesNothing : Prop :=
  (∀ s : State, exec .no s = .next s) ∧ encode .no = [0x0000] ∧ decode 0x0000 0 = .ok .no ∧
  (∀ w : Word, opByte w = 0 → w ≠ 0 → decodeFirst w = .error .mbzField)

/-- LD writes the operand to Rd and no flag (R101). -/
def Obligations.LoadWritesOperand : Prop :=
  ∀ (rd : Reg) (ea : Src) (s : State) (v : Word), operand s ea = .ok v →
    Yields (exec (.ld rd ea) s) s (Reg.bank s.flag.p rd) v s.cond

/-- LD Rd,FLAG writes 0000 0000 EP00 VCSZ in either mode (R18, R103; bits without storage: log 22). -/
def Obligations.LoadFlagReadsFlag : Prop :=
  ∀ (rd : Reg) (s : State),
    Yields (exec (.ldFlag rd) s) s (Reg.bank s.flag.p rd) s.flag.toWord s.cond ∧
    s.flag.toWord.getLsbD 7 = s.flag.e ∧ s.flag.toWord.getLsbD 6 = s.flag.p ∧
    s.flag.toWord.getLsbD 3 = s.flag.v ∧ s.flag.toWord.getLsbD 2 = s.flag.c ∧
    s.flag.toWord.getLsbD 1 = s.flag.s ∧ s.flag.toWord.getLsbD 0 = s.flag.z ∧
    s.flag.toWord.getLsbD 4 = false ∧ s.flag.toWord.getLsbD 5 = false ∧
    (∀ k, 8 ≤ k → s.flag.toWord.getLsbD k = false)

/-- ST writes Rd's word, or its low byte in the byte form, at the effective address and nothing else (R102; log 9, 37,
43). -/
def Obligations.StoreWritesMemory : Prop :=
  ∀ (rd : Reg) (ea : Dst) (s : State) (pa : Word),
    (dstIsByte ea = false → s.wordAddr (dstAddr s ea) = .ok pa →
      ∃ t, exec (.st rd ea) s = .next t ∧ t.pc = s.pc ∧ StoresWord [] pa (s.readReg rd) s t) ∧
    (dstIsByte ea = true → s.translate (dstAddr s ea) = .ok pa →
      ∃ t, exec (.st rd ea) s = .next t ∧ t.pc = s.pc ∧ t.cond = s.cond ∧
        (writable pa.toNat = true → t.byteAt pa.toNat = (s.readReg rd).extractLsb' 0 8) ∧
        SameBytesBut [pa.toNat] s t ∧ SameRegsBut [] s t ∧ SameSystem s t)

/-! ### ADD, SUB, CMP, AND, OR, XOR, ADDS (spec/41_arith_logic.md) -/

/-- ADD: the sum modulo 65536; C the carry out of bit 15, V set when the signed sum does not fit, S and Z of the result
(R110, R111; log 10). -/
def Obligations.AddResult : Prop :=
  ∀ (rd : Reg) (ea : Src) (s : State) (b : Word), operand s ea = .ok b →
    let a := s.readReg rd
    Yields (exec (.add rd ea) s) s (Reg.bank s.flag.p rd) (BitVec.ofNat 16 (a.toNat + b.toNat))
      { v := decide (a.toInt + b.toInt < -32768 ∨ 32767 < a.toInt + b.toInt)
        c := decide (65536 ≤ a.toNat + b.toNat)
        s := (a + b).getLsbD 15
        z := decide (a + b = 0) }

/-- SUB and CMP: the difference modulo 65536, which only SUB writes; C the borrow, V set when the signed difference does
not fit, S and Z of the difference (R110, R112, R113; log 10). -/
def Obligations.SubtractAndCompare : Prop :=
  ∀ (rd : Reg) (ea : Src) (s : State) (b : Word), operand s ea = .ok b →
    let a := s.readReg rd
    let c : Cond :=
      { v := decide (a.toInt - b.toInt < -32768 ∨ 32767 < a.toInt - b.toInt)
        c := decide (a.toNat < b.toNat)
        s := (a - b).getLsbD 15
        z := decide (a = b) }
    Yields (exec (.sub rd ea) s) s (Reg.bank s.flag.p rd) (BitVec.ofInt 16 ((a.toNat : Int) - b.toNat)) c ∧
    Yields (exec (.cmp rd ea) s) s (Reg.bank s.flag.p rd) a c

/-- AND, OR, XOR bit by bit; S and Z of the result, V = C = 0 (R110, R114 to R116; log 11). -/
def Obligations.LogicalResults : Prop :=
  ∀ (rd : Reg) (ea : Src) (s : State) (b : Word), operand s ea = .ok b →
    let a := s.readReg rd
    let q := Reg.bank s.flag.p rd
    let c := fun r : Word => ({ v := false, c := false, s := r.getLsbD 15, z := decide (r = 0) } : Cond)
    (∃ r, (∀ k, k < 16 → r.getLsbD k = (a.getLsbD k && b.getLsbD k)) ∧ Yields (exec (.and rd ea) s) s q r (c r)) ∧
    (∃ r, (∀ k, k < 16 → r.getLsbD k = (a.getLsbD k || b.getLsbD k)) ∧ Yields (exec (.or rd ea) s) s q r (c r)) ∧
    (∃ r, (∀ k, k < 16 → r.getLsbD k = (a.getLsbD k != b.getLsbD k)) ∧ Yields (exec (.xor rd ea) s) s q r (c r))

/-- ADDS: Rd plus twice the operand; the flags are those of adding the doubled operand modulo 65536 (R117; log 10). -/
def Obligations.AddScaledResult : Prop :=
  ∀ (rd : Reg) (ea : Src) (s : State) (b : Word), operand s ea = .ok b →
    let a := s.readReg rd
    let b2 := BitVec.ofNat 16 (2 * b.toNat)
    Yields (exec (.adds rd ea) s) s (Reg.bank s.flag.p rd) (BitVec.ofNat 16 (a.toNat + 2 * b.toNat))
      { v := decide (a.toInt + b2.toInt < -32768 ∨ 32767 < a.toInt + b2.toInt)
        c := decide (65536 ≤ a.toNat + b2.toNat)
        s := (a + b2).getLsbD 15
        z := decide (a + b2 = 0) }

/-! ### MUL, DIV, MOD, MULL, DIVL (spec/42_mul_div.md) -/

/-- MUL: the low 16 bits of the product; S and Z of it, V = C = 0 (R120, R121; log 13). -/
def Obligations.MultiplyResult : Prop :=
  ∀ (rd : Reg) (ea : Src) (s : State) (b : Word), operand s ea = .ok b →
    let r := BitVec.ofNat 16 ((s.readReg rd).toNat * b.toNat)
    Yields (exec (.mul rd ea) s) s (Reg.bank s.flag.p rd) r
      { v := false, c := false, s := r.getLsbD 15, z := decide (r = 0) }

/-- DIV and MOD: the unsigned quotient and remainder; S and Z of the new Rd, V = C = 0 (R120, R122, R123; log 12,
13). -/
def Obligations.DivideAndModulo : Prop :=
  ∀ (rd : Reg) (ea : Src) (s : State) (b : Word), operand s ea = .ok b → b ≠ 0 →
    let q := BitVec.ofNat 16 ((s.readReg rd).toNat / b.toNat)
    let r := BitVec.ofNat 16 ((s.readReg rd).toNat % b.toNat)
    Yields (exec (.div rd ea) s) s (Reg.bank s.flag.p rd) q
      { v := false, c := false, s := q.getLsbD 15, z := decide (q = 0) } ∧
    Yields (exec (.mod rd ea) s) s (Reg.bank s.flag.p rd) r
      { v := false, c := false, s := r.getLsbD 15, z := decide (r = 0) }

/-- MULL: the 32-bit unsigned product, its high word in Rd+1 and its low word in Rd; S and Z of the low word, V = C = 0
(R120, R124, R126; log 12, 13, 18). The register of the pair's high word is the one whose number is one above Rd's, and
exactly an even Rd other than Eh has one (R126; log 18). -/
def Obligations.MultiplyLongResult : Prop :=
  (∀ rd hi : Reg, Reg.pairHigh rd = some hi → hi.toField = rd.toField + 1) ∧
  (∀ rd : Reg, (Reg.pairHigh rd).isSome = rd.headsPair ∧
    (rd.headsPair = true ↔ rd.toField.getLsbD 0 = false ∧ rd.toField ≠ 0xE)) ∧
  ∀ (rd : Reg) (hi : Reg) (ea : Src) (s : State) (b : Word), Reg.pairHigh rd = some hi → operand s ea = .ok b →
    let p := (s.readReg rd).toNat * b.toNat
    let low := BitVec.ofNat 16 p
    YieldsPair (exec (.mull rd ea) s) s (Reg.bank s.flag.p rd) (Reg.bank s.flag.p hi) low (BitVec.ofNat 16 (p / 65536))
      { v := false, c := false, s := low.getLsbD 15, z := decide (low = 0) }

/-- DIVL whose quotient fits 16 bits: the quotient of the pair in Rd, the remainder in Rd+1; S and Z of the quotient,
V = C = 0 (R120, R125, R126; log 12, 13, 18). -/
def Obligations.DivideLongResult : Prop :=
  ∀ (rd : Reg) (hi : Reg) (ea : Src) (s : State) (b : Word), Reg.pairHigh rd = some hi → operand s ea = .ok b →
    b ≠ 0 → ((s.readReg hi).toNat * 65536 + (s.readReg rd).toNat) / b.toNat < 65536 →
    let n := (s.readReg hi).toNat * 65536 + (s.readReg rd).toNat
    let q := BitVec.ofNat 16 (n / b.toNat)
    YieldsPair (exec (.divl rd ea) s) s (Reg.bank s.flag.p rd) (Reg.bank s.flag.p hi) q (BitVec.ofNat 16 (n % b.toNat))
      { v := false, c := false, s := q.getLsbD 15, z := decide (q = 0) }

/-- DIVL whose quotient does not fit runs on: Rd, Rd+1 and V, C, S, Z are free values, of which nothing is said, and
everything else is kept but the count of free values used (R125, U6; log 16, 41). -/
def Obligations.DivideLongOverflow : Prop :=
  ∀ (rd : Reg) (hi : Reg) (ea : Src) (s : State) (b : Word), Reg.pairHigh rd = some hi → operand s ea = .ok b →
    b ≠ 0 → 65536 ≤ ((s.readReg hi).toNat * 65536 + (s.readReg rd).toNat) / b.toNat →
    ∃ t, exec (.divl rd ea) s = .next t ∧ t.pc = s.pc ∧
      SameRegsBut [Reg.bank s.flag.p rd, Reg.bank s.flag.p hi] s t ∧ SameBytes s t ∧
      SameSystem { s with draws := t.draws } t

/-- DIVL undoes MULL: with the same non-zero operand, Rd is the original Rd and Rd+1 is 0 (R125; log 18). -/
def Obligations.DivideLongUndoesMultiplyLong : Prop :=
  ∀ (rd : Reg) (hi : Reg) (ea : Src) (s : State) (b : Word), Reg.pairHigh rd = some hi → operand s ea = .ok b → b ≠ 0 →
    ∃ t, exec (.mull rd ea) s = .next t ∧
      ∀ ea', operand t ea' = .ok b →
        ∃ u, exec (.divl rd ea') t = .next u ∧ u.readReg rd = s.readReg rd ∧ u.readReg hi = 0

/-! ### SHLA, SHLL, SHRA, SHRL (spec/43_shift.md) -/

/-- SHLA and SHLL by n = operand mod 16: times 2^n modulo 65536; C the last bit shifted out, none for n = 0, V = 0, S and
Z of the result (R130 to R132; log 14). -/
def Obligations.ShiftLeftResults : Prop :=
  ∀ (rd : Reg) (ea : Src) (s : State) (b : Word), operand s ea = .ok b →
    let a := s.readReg rd
    let n := b.toNat % 16
    let r := BitVec.ofNat 16 (a.toNat * 2 ^ n)
    let c : Cond := { v := false, c := decide (n ≠ 0) && a.getLsbD (16 - n), s := r.getLsbD 15, z := decide (r = 0) }
    Yields (exec (.shla rd ea) s) s (Reg.bank s.flag.p rd) r c ∧
    Yields (exec (.shll rd ea) s) s (Reg.bank s.flag.p rd) r c

/-- SHRA and SHRL by n = operand mod 16: the signed and the unsigned floor of a / 2^n; C the last bit shifted out, none
for n = 0, V = 0, S and Z of the result (R130, R133, R134; log 14). -/
def Obligations.ShiftRightResults : Prop :=
  ∀ (rd : Reg) (ea : Src) (s : State) (b : Word), operand s ea = .ok b →
    let a := s.readReg rd
    let n := b.toNat % 16
    let c := fun r : Word =>
      ({ v := false, c := decide (n ≠ 0) && a.getLsbD (n - 1), s := r.getLsbD 15, z := decide (r = 0) } : Cond)
    let ra := BitVec.ofInt 16 (a.toInt / 2 ^ n)
    let rl := BitVec.ofNat 16 (a.toNat / 2 ^ n)
    Yields (exec (.shra rd ea) s) s (Reg.bank s.flag.p rd) ra (c ra) ∧
    Yields (exec (.shrl rd ea) s) s (Reg.bank s.flag.p rd) rl (c rl)

/-! ### Jumps and CALL (spec/44_jump_call.md) -/

/-- The eight jumps on one flag: PC becomes the effective address exactly when the flag is as named, nothing else
changes (R141 to R144, R149 to R152). -/
def Obligations.FlagJumps : Prop :=
  ∀ (ea : Target) (s : State),
    JumpsWhen (.jz ea) 0x0 s.flag.z ea s ∧ JumpsWhen (.jc ea) 0x1 s.flag.c ea s ∧
    JumpsWhen (.jm ea) 0x2 s.flag.s ea s ∧ JumpsWhen (.jo ea) 0x3 s.flag.v ea s ∧
    JumpsWhen (.jnz ea) 0x8 (!s.flag.z) ea s ∧ JumpsWhen (.jnc ea) 0x9 (!s.flag.c) ea s ∧
    JumpsWhen (.jnm ea) 0xA (!s.flag.s) ea s ∧ JumpsWhen (.jno ea) 0xB (!s.flag.v) ea s

/-- The jumps that combine flags (JGT, JGE, JLE and JLT on Z and S xor V, JHI and JLS on Z and C) and JMP, which always
jumps: PC becomes the effective address exactly when the condition holds, nothing else changes (R145 to R148, R153 to R155). -/
def Obligations.CombinedJumps : Prop :=
  ∀ (ea : Target) (s : State),
    JumpsWhen (.jgt ea) 0x4 (!(s.flag.z || (s.flag.s ^^ s.flag.v))) ea s ∧
    JumpsWhen (.jge ea) 0x5 (!(s.flag.s ^^ s.flag.v)) ea s ∧
    JumpsWhen (.jle ea) 0x6 (s.flag.z || (s.flag.s ^^ s.flag.v)) ea s ∧
    JumpsWhen (.jlt ea) 0x7 (s.flag.s ^^ s.flag.v) ea s ∧
    JumpsWhen (.jhi ea) 0xC (!(s.flag.z || s.flag.c)) ea s ∧
    JumpsWhen (.jls ea) 0xE (s.flag.z || s.flag.c) ea s ∧
    JumpsWhen (.jmp ea) 0xF true ea s

/-- The compare-jump table: after `CMP Rd,EA` each jump is taken exactly when its relation holds between Rd and the
operand (R19, R76, R113). -/
def Obligations.CompareThenJump : Prop :=
  ∀ (rd : Reg) (ea : Src) (s : State) (b : Word), operand s ea = .ok b →
    let a := s.readReg rd
    ∃ t, exec (.cmp rd ea) s = .next t ∧ ∀ tg : Target,
      let goes := fun taken : Prop => fun r : Result =>
        (taken → r = .next { t with pc := targetAddr t tg }) ∧ (¬ taken → r = .next t)
      goes (b.toInt < a.toInt) (exec (.jgt tg) t) ∧ goes (b.toInt ≤ a.toInt) (exec (.jge tg) t) ∧
      goes (a.toInt ≤ b.toInt) (exec (.jle tg) t) ∧ goes (a.toInt < b.toInt) (exec (.jlt tg) t) ∧
      goes (b.toNat < a.toNat) (exec (.jhi tg) t) ∧ goes (b.toNat ≤ a.toNat) (exec (.jnc tg) t) ∧
      goes (a.toNat ≤ b.toNat) (exec (.jls tg) t) ∧ goes (a.toNat < b.toNat) (exec (.jc tg) t) ∧
      goes (a = b) (exec (.jz tg) t) ∧ goes (a ≠ b) (exec (.jnz tg) t)

/-- CALL pushes the address of the next instruction on the stack of the current mode and goes to the target computed
before the push (R156; log 7, 8). -/
def Obligations.CallPushesAndJumps : Prop :=
  ∀ (ea : Target) (s : State) (pa : Word), s.wordAddr (s.readReg .sp - 2) = .ok pa →
    ∃ t, exec (.call ea) s = .next t ∧ t.pc = targetAddr s ea ∧ t.readReg .sp = s.readReg .sp - 2 ∧
      StoresWord [Reg.bank s.flag.p .sp] pa s.pc s t

/-! ### PUSH, POP, RET, RETI (spec/46_stack_return.md) -/

/-- RET pops PC, which is not checked, from the stack of the current mode, SP + 2 modulo 65536 (log 8); the word is D000h
(R171). A stack read that fails is taken with nothing changed (R209; log 7). -/
def Obligations.RetPopsPc : Prop :=
  encode .ret = [0xD000] ∧ ∀ s : State,
    (∀ v, s.read16 (s.readReg .sp) = .ok v →
      ∃ t, exec .ret s = .next t ∧ t.pc = v ∧ t.readReg .sp = s.readReg .sp + 2 ∧ t.cond = s.cond ∧
        OnlyRegs [Reg.bank s.flag.p .sp] s t) ∧
    (∀ x, s.read16 (s.readReg .sp) = .error (.raise x) → exec .ret s = takeException x s)

/-- PUSH and POP of a register that is not the active stack pointer: PUSH stores it at SP − 2, POP loads it from SP, SP
moves by 2 modulo 65536, and nothing else changes (R170, R172; log 8, 42). -/
def Obligations.PushAndPop : Prop :=
  ∀ (rd : Reg) (s : State), Reg.bank s.flag.p rd ≠ Reg.bank s.flag.p .sp →
    (∀ pa, s.wordAddr (s.readReg .sp - 2) = .ok pa →
      ∃ t, exec (.push rd) s = .next t ∧ t.pc = s.pc ∧ t.readReg .sp = s.readReg .sp - 2 ∧
        StoresWord [Reg.bank s.flag.p .sp] pa (s.readReg rd) s t) ∧
    (∀ v, s.read16 (s.readReg .sp) = .ok v →
      ∃ t, exec (.pop rd) s = .next t ∧ t.pc = s.pc ∧ t.readReg .sp = s.readReg .sp + 2 ∧ t.readReg rd = v ∧
        t.cond = s.cond ∧ OnlyRegs [Reg.bank s.flag.p rd, Reg.bank s.flag.p .sp] s t)

/-- RET returns behind its CALL: the stack word where stores reach, PC and every register are as they were before the
CALL (R156, R171). -/
def Obligations.RetUndoesCall : Prop :=
  ∀ (ea : Target) (s : State) (pa : Word), s.wordAddr (s.readReg .sp - 2) = .ok pa →
    writable pa.toNat = true → writable (pa + 1).toNat = true →
    ∃ t, exec (.call ea) s = .next t ∧ exec .ret t = .next { t with pc := s.pc, regs := s.regs }

/-- RETI in privileged mode pops FLAG, then PC, from the system stack, whatever P the popped FLAG has (R173; log 8,
22, 23). -/
def Obligations.RetiPopsFlagAndPc : Prop :=
  ∀ s : State, s.flag.p = true → (s.get .ssp).getLsbD 0 = false →
    let f := s.wordAt (s.get .ssp)
    ∃ t, exec .reti s = .next t ∧ t.pc = s.wordAt (s.get .ssp + 2) ∧ t.get .ssp = s.get .ssp + 4 ∧
      t.flag = { e := f.getLsbD 7, p := f.getLsbD 6, v := f.getLsbD 3, c := f.getLsbD 2, s := f.getLsbD 1,
                 z := f.getLsbD 0 } ∧
      SameRegsBut [.ssp] s t ∧ SameBytes s t ∧ t.halted = s.halted ∧ t.irq = s.irq ∧ t.io = s.io ∧
      t.draws = s.draws ∧ t.oracle = s.oracle

/-! ### EI, DI, HALT (spec/47_system.md) -/

/-- EI, DI and HALT in privileged mode: only E, only E, only the halt (R180, R181, R183; log 21, 27, 30). -/
def Obligations.EiDiHalt : Prop :=
  ∀ s : State, s.flag.p = true →
    exec .ei s = .next { s with flag := { s.flag with e := true } } ∧
    exec .di s = .next { s with flag := { s.flag with e := false } } ∧
    exec .halt s = .next { s with halted := true }

/-! ### IN, OUT and the I/O map (spec/45_io.md, spec/60_exceptions.md) -/

/-- IN in privileged mode: Rd becomes what the port presents, 0 for the even byte of an 8-bit row; where no read value
is printed, a free value within the port's bits, of which nothing else is said (R53, R160, R238; log 29, 33). IN itself
changes no device and no memory: what reading a port consumes is left to the schedule (log 44). -/
def Obligations.InReadsPort : Prop :=
  ∀ (rd : Reg) (ea : Port) (s : State) (a : Byte), s.flag.p = true → portAddr s ea = a.zeroExtend 16 →
    ioDefined ea a = true →
    ∃ t, exec (.inp rd ea) s = .next t ∧ t.pc = s.pc ∧ t.cond = s.cond ∧
      SameRegsBut [Reg.bank s.flag.p rd] s t ∧ SameBytes s t ∧ SameSystem { s with draws := t.draws } t ∧
      (if portIsByte ea && !a.getLsbD 0 then t.readReg rd = 0 ∧ t.draws = s.draws
       else match s.io.present (portOf a) with
         | some v => t.readReg rd = v ∧ t.draws = s.draws
         | none => t.readReg rd &&& (portOf a).freeMask = t.readReg rd)

/-- OUT in privileged mode: the port's device takes Rd, nothing for the even byte of an 8-bit row, and nothing else
changes (R53, R161; log 29). -/
def Obligations.OutWritesPort : Prop :=
  ∀ (rd : Reg) (ea : Port) (s : State) (a : Byte), s.flag.p = true → portAddr s ea = a.zeroExtend 16 →
    ioDefined ea a = true →
    exec (.out rd ea) s =
      .next (if portIsByte ea && !a.getLsbD 0 then s
             else { s with io := s.io.portOut (portOf a) (s.readReg rd) })

/-- What a value written to each row of the I/O map sets, at both its addresses, by the spec's bit layouts (R224 to R238).
The address of Timer1's control, the place of a timer's I and the one row of the uSD's control and status are the readings
of log 43; the ready, status and current-value fields stay as they were (log 44); bits a layout does not name are ignored (log 45); the
input-only, the reserved and the free rows take nothing (R234, R238; log 29); what a timer does with its period is the
schedule's (log 38). -/
def Obligations.PortsOut : Prop :=
  ∀ (d : Devices) (v : Word),
    let b : Byte := v.extractLsb' 0 8
    let row := fun (a : Byte) (d' : Devices) => d.portOut (portOf a) v = d' ∧ d.portOut (portOf (a + 1)) v = d'
    row 0x00 { d with timer0 := { d.timer0 with period := v } } ∧
    row 0x02 { d with timer0 := { d.timer0 with intEnable := v.getLsbD 15, start := v.getLsbD 0 } } ∧
    row 0x04 { d with timer1 := { d.timer1 with period := v } } ∧
    row 0x06 { d with timer1 := { d.timer1 with intEnable := v.getLsbD 15, start := v.getLsbD 0 } } ∧
    row 0x08 { d with ft232rl := { d.ft232rl with transmitted := b } } ∧
    row 0x0A { d with ft232rl := { d.ft232rl with txIntEnable := b.getLsbD 7, rxIntEnable := b.getLsbD 6 } } ∧
    row 0x0C { d with tec := { d.tec with transmitted := b } } ∧
    row 0x0E { d with tec := { d.tec with txIntEnable := b.getLsbD 7, rxIntEnable := b.getLsbD 6 } } ∧
    row 0x10 { d with usd := { d.usd with intEnable := b.getLsbD 3, init := b.getLsbD 2, read := b.getLsbD 1,
                                          write := b.getLsbD 0 } } ∧
    row 0x12 { d with usd := { d.usd with memAddr := v } } ∧
    row 0x14 { d with usd := { d.usd with blkAddrH := v } } ∧
    row 0x16 { d with usd := { d.usd with blkAddrL := v } } ∧
    row 0x18 { d with ext := { d.ext with driven := b } } ∧
    row 0x1A { d with adc := { d.adc with reference := b } } ∧
    row 0x1C { d with ext := { d.ext with hiOutput := b.getLsbD 7, hiValue := b.extractLsb' 0 4 } } ∧
    row 0x28 { d with rn4020 := { d.rn4020 with transmitted := b } } ∧
    row 0x2A { d with rn4020 := { d.rn4020 with txIntEnable := b.getLsbD 7, rxIntEnable := b.getLsbD 6 } } ∧
    row 0x2C { d with rnCmd := { f := b.getLsbD 3, h := b.getLsbD 2, c := b.getLsbD 1, s := b.getLsbD 0 } } ∧
    row 0xF0 { d with mmu := { d.mmu with enable := v.getLsbD 0 } } ∧
    row 0xF4 { d with mmu := { d.mmu with base := v } } ∧
    row 0xF6 { d with mmu := { d.mmu with limit := v } } ∧
    row 0xF8 { d with console := { d.console with dataReg := v } } ∧
    (∀ a : Byte, (0x1E ≤ a.toNat ∧ a.toNat ≤ 0x27) ∨ (0x2E ≤ a.toNat ∧ a.toNat ≤ 0xEF) ∨
        a.toNat = 0xF2 ∨ a.toNat = 0xF3 ∨ 0xFA ≤ a.toNat →
      d.portOut (portOf a) v = d)

/-- What each row of the I/O map presents, at both its addresses, by the spec's bit layouts (R224 to R237): the uSD status
in row 10h and Timer1's flag in 06h by the readings of log 43, a timer's value and flag word as the schedule left them
(log 38); 0000h for the reserved
and the free rows and where the spec takes D05's print (R234, R236; log 29); the rows without a printed read value and the
bits a free value may have there (log 33); the rows that are 16 bits wide (R224). -/
def Obligations.PortsIn : Prop :=
  ∀ d : Devices,
    let row := fun (a : Byte) (r : Option Word) => d.present (portOf a) = r ∧ d.present (portOf (a + 1)) = r
    let free := fun (a : Byte) (bits : Word) =>
      row a none ∧ (portOf a).freeMask = bits ∧ (portOf (a + 1)).freeMask = bits
    row 0x00 (some d.timer0.current) ∧ row 0x02 (some d.timer0.flag) ∧
    row 0x04 (some d.timer1.current) ∧ row 0x06 (some d.timer1.flag) ∧
    row 0x08 (some (d.ft232rl.received.zeroExtend 16)) ∧
    row 0x0A (some (0#8 ++ BitVec.ofBool d.ft232rl.txReady ++ BitVec.ofBool d.ft232rl.rxReady ++ 0#6)) ∧
    row 0x0C (some (d.tec.received.zeroExtend 16)) ∧
    row 0x0E (some (0#8 ++ BitVec.ofBool d.tec.txReady ++ BitVec.ofBool d.tec.rxReady ++ 0#6)) ∧
    row 0x10 (some (0#12 ++ BitVec.ofBool d.usd.idle ++ BitVec.ofBool d.usd.error ++ 0#2)) ∧
    row 0x18 (some (d.ext.pins.zeroExtend 16)) ∧
    row 0x1E (some (0#13 ++ d.boardMode)) ∧
    row 0x20 (some (d.adc.ch0.zeroExtend 16)) ∧
    row 0x22 (some (d.adc.ch1.zeroExtend 16)) ∧
    row 0x24 (some (d.adc.ch2.zeroExtend 16)) ∧
    row 0x26 (some (d.adc.ch3.zeroExtend 16)) ∧
    row 0x28 (some (d.rn4020.received.zeroExtend 16)) ∧
    row 0x2A (some (0#8 ++ BitVec.ofBool d.rn4020.txReady ++ BitVec.ofBool d.rn4020.rxReady ++ 0#6)) ∧
    row 0xF8 (some d.console.dataSw) ∧ row 0xFA (some d.console.addrReg) ∧
    row 0xFC (some (0#11 ++ d.console.rotary)) ∧ row 0xFE (some (0#12 ++ d.console.func)) ∧
    (∀ a : Byte, (0x2E ≤ a.toNat ∧ a.toNat ≤ 0xEF) ∨ (0xF2 ≤ a.toNat ∧ a.toNat ≤ 0xF7) →
      d.present (portOf a) = some 0) ∧
    free 0x12 0xFFFF ∧ free 0x14 0xFFFF ∧ free 0x16 0xFFFF ∧ free 0x1A 0x00FF ∧ free 0x1C 0x00FF ∧
    free 0x2C 0x000F ∧ free 0xF0 0x00FF ∧
    (∀ a : Byte, (portOf a).isWide = true ↔
      (a &&& 0xFE) ∈ [0x00#8, 0x02#8, 0x04#8, 0x06#8, 0x12#8, 0x14#8, 0x16#8, 0xF4#8, 0xF6#8, 0xF8#8, 0xFA#8])
end

