-- ==== Sys2Proof/Laws/Decode.lean ====
section
/-! SUPPORT. The fields of a packed word, the register fields, and a word as two bytes: what proofs about the decoder and
the encoder cite. -/

namespace Sys2Proof

/-! ### Fields -/

theorem packWord_toNat (op : BitVec 5) (m : BitVec 3) (rd rx : BitVec 4) :
    (packWord op m rd rx).toNat = op.toNat * 2048 + m.toNat * 256 + rd.toNat * 16 + rx.toNat := by
  unfold packWord
  rw [BitVec.toNat_append, ← Nat.shiftLeft_add_eq_or_of_lt rx.isLt, BitVec.toNat_append,
    ← Nat.shiftLeft_add_eq_or_of_lt rd.isLt, BitVec.toNat_append, ← Nat.shiftLeft_add_eq_or_of_lt m.isLt]
  simp only [Nat.shiftLeft_eq]
  omega

@[simp] theorem opField_packWord (op : BitVec 5) (m : BitVec 3) (rd rx : BitVec 4) :
    opField (packWord op m rd rx) = op := by
  apply BitVec.eq_of_toNat_eq
  simp only [opField, BitVec.extractLsb'_toNat, packWord_toNat, Nat.shiftRight_eq_div_pow]
  omega

@[simp] theorem modeField_packWord (op : BitVec 5) (m : BitVec 3) (rd rx : BitVec 4) :
    modeField (packWord op m rd rx) = m := by
  apply BitVec.eq_of_toNat_eq
  simp only [modeField, BitVec.extractLsb'_toNat, packWord_toNat, Nat.shiftRight_eq_div_pow]
  omega

@[simp] theorem rdField_packWord (op : BitVec 5) (m : BitVec 3) (rd rx : BitVec 4) :
    rdField (packWord op m rd rx) = rd := by
  apply BitVec.eq_of_toNat_eq
  simp only [rdField, BitVec.extractLsb'_toNat, packWord_toNat, Nat.shiftRight_eq_div_pow]
  omega

@[simp] theorem rxField_packWord (op : BitVec 5) (m : BitVec 3) (rd rx : BitVec 4) :
    rxField (packWord op m rd rx) = rx := by
  apply BitVec.eq_of_toNat_eq
  simp only [rxField, BitVec.extractLsb'_toNat, packWord_toNat, Nat.shiftRight_eq_div_pow]
  omega

/-- A word is made of its four fields (R70, R71). -/
theorem packWord_fields (w : Word) : packWord (opField w) (modeField w) (rdField w) (rxField w) = w := by
  apply BitVec.eq_of_toNat_eq
  rw [packWord_toNat]
  simp only [opField, modeField, rdField, rxField, BitVec.extractLsb'_toNat, Nat.shiftRight_eq_div_pow]
  omega

/-- The OP byte is the operation and the mode (R71). -/
theorem opByte_toNat (w : Word) : (opByte w).toNat = (opField w).toNat * 8 + (modeField w).toNat := by
  simp only [opByte, opField, modeField, BitVec.extractLsb'_toNat, Nat.shiftRight_eq_div_pow]
  omega

@[simp] theorem decodeFirst_packWord (op : BitVec 5) (m : BitVec 3) (rd rx : BitVec 4) :
    decodeFirst (packWord op m rd rx) = decodeFields op m rd rx := by
  simp [decodeFirst]

@[simp] theorem hasSecondWord_packWord (op : BitVec 5) (m : BitVec 3) (rd rx : BitVec 4) :
    hasSecondWord (packWord op m rd rx) = (decide (m.toNat < 3) && decide (1 ≤ op.toNat) && decide (op.toNat ≤ 23)) := by
  simp [hasSecondWord]

/-- A word is its two bytes, high byte first (R45). -/
@[simp] theorem append_bytes (w : Word) : w.extractLsb' 8 8 ++ w.extractLsb' 0 8 = w := by
  apply BitVec.eq_of_toNat_eq
  rw [BitVec.toNat_append, ← Nat.shiftLeft_add_eq_or_of_lt (w.extractLsb' 0 8).isLt]
  simp only [BitVec.extractLsb'_toNat, Nat.shiftRight_eq_div_pow, Nat.shiftLeft_eq]
  omega

theorem append_toNat (a b : Byte) : (a ++ b).toNat = a.toNat * 256 + b.toNat := by
  rw [BitVec.toNat_append, ← Nat.shiftLeft_add_eq_or_of_lt b.isLt, Nat.shiftLeft_eq]

@[simp] theorem extract_high_append (a b : Byte) : (a ++ b).extractLsb' 8 8 = a := by
  apply BitVec.eq_of_toNat_eq
  simp only [BitVec.extractLsb'_toNat, append_toNat, Nat.shiftRight_eq_div_pow]
  omega

@[simp] theorem extract_low_append (a b : Byte) : (a ++ b).extractLsb' 0 8 = b := by
  apply BitVec.eq_of_toNat_eq
  simp only [BitVec.extractLsb'_toNat, append_toNat, Nat.shiftRight_eq_div_pow]
  omega

/-! ### Register fields (R11, R14) -/

@[simp] theorem Reg.ofField_toField (r : Reg) : Reg.ofField r.toField = some r := by cases r <;> rfl

theorem Reg.toField_of_ofField {f : BitVec 4} {r : Reg} (h : Reg.ofField f = some r) : r.toField = f := by
  revert f r; decide

@[simp] theorem regField_toField (r : Reg) : regField r.toField = .ok r := by simp [regField]

theorem regField_ok {f : BitVec 4} {r : Reg} : regField f = .ok r ↔ f = r.toField := by
  constructor
  · intro h
    unfold regField at h
    split at h
    · rename_i q hq
      simp only [Except.ok.injEq] at h
      exact h ▸ (Reg.toField_of_ofField hq).symm
    · simp at h
  · rintro rfl; exact regField_toField r

@[simp] theorem zeroField_zero : zeroField 0#4 = .ok () := rfl

theorem zeroField_ok {f : BitVec 4} : zeroField f = .ok () ↔ f = 0 := by
  simp [zeroField, mbzPolicy]

/-- A register field that does not hold Fh names a register. -/
theorem regField_error {f : BitVec 4} {r : DecodeStop} (h : regField f = .error r) : r = .pcOperand ∧ f = 0xF := by
  unfold regField at h
  split at h
  · simp at h
  · rename_i hn
    refine ⟨by simpa using h.symm, ?_⟩
    clear h
    revert f; decide

theorem zeroField_error {f : BitVec 4} {r : DecodeStop} (h : zeroField f = .error r) : r = .mbzField ∧ f ≠ 0 := by
  unfold zeroField at h
  split at h
  · simp at h
  · rename_i hn
    exact ⟨by simpa using h.symm, fun h0 => hn (Or.inl h0)⟩

end Sys2Proof
end

