-- ==== Sys2Proof/Laws/State.lean ====
section
/-! SUPPORT. One lemma for each field of the state under each named update, and the registers' read-over-write laws, so
that no later proof unfolds a record update. -/

namespace Sys2Proof.Machine

/-! ### `State.set`, `State.writeReg`, `State.setCond` -/

@[simp] theorem State.set_pc (s : State) (q : PReg) (v : Word) : (s.set q v).pc = s.pc := rfl

@[simp] theorem State.set_flag (s : State) (q : PReg) (v : Word) : (s.set q v).flag = s.flag := rfl

@[simp] theorem State.set_halted (s : State) (q : PReg) (v : Word) : (s.set q v).halted = s.halted := rfl

@[simp] theorem State.set_irq (s : State) (q : PReg) (v : Word) : (s.set q v).irq = s.irq := rfl

@[simp] theorem State.set_mem (s : State) (q : PReg) (v : Word) : (s.set q v).mem = s.mem := rfl

@[simp] theorem State.set_io (s : State) (q : PReg) (v : Word) : (s.set q v).io = s.io := rfl

@[simp] theorem State.set_draws (s : State) (q : PReg) (v : Word) : (s.set q v).draws = s.draws := rfl

@[simp] theorem State.set_oracle (s : State) (q : PReg) (v : Word) : (s.set q v).oracle = s.oracle := rfl

@[simp] theorem State.set_regs (s : State) (q : PReg) (v : Word) : (s.set q v).regs = s.regs.set q v := rfl

@[simp] theorem State.writeReg_pc (s : State) (r : Reg) (v : Word) : (s.writeReg r v).pc = s.pc := rfl

@[simp] theorem State.writeReg_flag (s : State) (r : Reg) (v : Word) : (s.writeReg r v).flag = s.flag := rfl

@[simp] theorem State.writeReg_halted (s : State) (r : Reg) (v : Word) : (s.writeReg r v).halted = s.halted := rfl

@[simp] theorem State.writeReg_irq (s : State) (r : Reg) (v : Word) : (s.writeReg r v).irq = s.irq := rfl

@[simp] theorem State.writeReg_mem (s : State) (r : Reg) (v : Word) : (s.writeReg r v).mem = s.mem := rfl

@[simp] theorem State.writeReg_io (s : State) (r : Reg) (v : Word) : (s.writeReg r v).io = s.io := rfl

@[simp] theorem State.writeReg_draws (s : State) (r : Reg) (v : Word) : (s.writeReg r v).draws = s.draws := rfl

@[simp] theorem State.writeReg_oracle (s : State) (r : Reg) (v : Word) : (s.writeReg r v).oracle = s.oracle := rfl

@[simp] theorem State.setCond_regs (s : State) (c : Cond) : (s.setCond c).regs = s.regs := rfl

@[simp] theorem State.setCond_pc (s : State) (c : Cond) : (s.setCond c).pc = s.pc := rfl

@[simp] theorem State.setCond_halted (s : State) (c : Cond) : (s.setCond c).halted = s.halted := rfl

@[simp] theorem State.setCond_irq (s : State) (c : Cond) : (s.setCond c).irq = s.irq := rfl

@[simp] theorem State.setCond_mem (s : State) (c : Cond) : (s.setCond c).mem = s.mem := rfl

@[simp] theorem State.setCond_io (s : State) (c : Cond) : (s.setCond c).io = s.io := rfl

@[simp] theorem State.setCond_draws (s : State) (c : Cond) : (s.setCond c).draws = s.draws := rfl

@[simp] theorem State.setCond_oracle (s : State) (c : Cond) : (s.setCond c).oracle = s.oracle := rfl

@[simp] theorem State.setCond_flag_e (s : State) (c : Cond) : (s.setCond c).flag.e = s.flag.e := rfl

@[simp] theorem State.setCond_flag_p (s : State) (c : Cond) : (s.setCond c).flag.p = s.flag.p := rfl

@[simp] theorem State.setCond_flag_v (s : State) (c : Cond) : (s.setCond c).flag.v = c.v := rfl

@[simp] theorem State.setCond_flag_c (s : State) (c : Cond) : (s.setCond c).flag.c = c.c := rfl

@[simp] theorem State.setCond_flag_s (s : State) (c : Cond) : (s.setCond c).flag.s = c.s := rfl

@[simp] theorem State.setCond_flag_z (s : State) (c : Cond) : (s.setCond c).flag.z = c.z := rfl

/-! ### Stores -/

@[simp] theorem State.storeByte_regs (s : State) (a : Word) (b : Byte) : (s.storeByte a b).regs = s.regs := by
  unfold State.storeByte; split <;> rfl

@[simp] theorem State.storeByte_pc (s : State) (a : Word) (b : Byte) : (s.storeByte a b).pc = s.pc := by
  unfold State.storeByte; split <;> rfl

@[simp] theorem State.storeByte_flag (s : State) (a : Word) (b : Byte) : (s.storeByte a b).flag = s.flag := by
  unfold State.storeByte; split <;> rfl

@[simp] theorem State.storeByte_halted (s : State) (a : Word) (b : Byte) : (s.storeByte a b).halted = s.halted := by
  unfold State.storeByte; split <;> rfl

@[simp] theorem State.storeByte_irq (s : State) (a : Word) (b : Byte) : (s.storeByte a b).irq = s.irq := by
  unfold State.storeByte; split <;> rfl

@[simp] theorem State.storeByte_io (s : State) (a : Word) (b : Byte) : (s.storeByte a b).io = s.io := by
  unfold State.storeByte; split <;> rfl

@[simp] theorem State.storeByte_draws (s : State) (a : Word) (b : Byte) : (s.storeByte a b).draws = s.draws := by
  unfold State.storeByte; split <;> rfl

@[simp] theorem State.storeByte_oracle (s : State) (a : Word) (b : Byte) : (s.storeByte a b).oracle = s.oracle := by
  unfold State.storeByte; split <;> rfl

@[simp] theorem State.storeWord_regs (s : State) (a v : Word) : (s.storeWord a v).regs = s.regs := by
  simp [State.storeWord]

@[simp] theorem State.storeWord_pc (s : State) (a v : Word) : (s.storeWord a v).pc = s.pc := by
  simp [State.storeWord]

@[simp] theorem State.storeWord_flag (s : State) (a v : Word) : (s.storeWord a v).flag = s.flag := by
  simp [State.storeWord]

@[simp] theorem State.storeWord_halted (s : State) (a v : Word) : (s.storeWord a v).halted = s.halted := by
  simp [State.storeWord]

@[simp] theorem State.storeWord_irq (s : State) (a v : Word) : (s.storeWord a v).irq = s.irq := by
  simp [State.storeWord]

@[simp] theorem State.storeWord_io (s : State) (a v : Word) : (s.storeWord a v).io = s.io := by
  simp [State.storeWord]

@[simp] theorem State.storeWord_draws (s : State) (a v : Word) : (s.storeWord a v).draws = s.draws := by
  simp [State.storeWord]

@[simp] theorem State.storeWord_oracle (s : State) (a v : Word) : (s.storeWord a v).oracle = s.oracle := by
  simp [State.storeWord]

/-! ### Free values -/

@[simp] theorem State.drawWord_regs (s : State) : s.drawWord.2.regs = s.regs := rfl

@[simp] theorem State.drawCond_regs (s : State) : s.drawCond.2.regs = s.regs := rfl

@[simp] theorem State.drawWord_pc (s : State) : s.drawWord.2.pc = s.pc := rfl

@[simp] theorem State.drawCond_pc (s : State) : s.drawCond.2.pc = s.pc := rfl

@[simp] theorem State.drawWord_flag (s : State) : s.drawWord.2.flag = s.flag := rfl

@[simp] theorem State.drawCond_flag (s : State) : s.drawCond.2.flag = s.flag := rfl

@[simp] theorem State.drawWord_halted (s : State) : s.drawWord.2.halted = s.halted := rfl

@[simp] theorem State.drawCond_halted (s : State) : s.drawCond.2.halted = s.halted := rfl

@[simp] theorem State.drawWord_irq (s : State) : s.drawWord.2.irq = s.irq := rfl

@[simp] theorem State.drawCond_irq (s : State) : s.drawCond.2.irq = s.irq := rfl

@[simp] theorem State.drawWord_mem (s : State) : s.drawWord.2.mem = s.mem := rfl

@[simp] theorem State.drawCond_mem (s : State) : s.drawCond.2.mem = s.mem := rfl

@[simp] theorem State.drawWord_io (s : State) : s.drawWord.2.io = s.io := rfl

@[simp] theorem State.drawCond_io (s : State) : s.drawCond.2.io = s.io := rfl

@[simp] theorem State.drawWord_oracle (s : State) : s.drawWord.2.oracle = s.oracle := rfl

@[simp] theorem State.drawCond_oracle (s : State) : s.drawCond.2.oracle = s.oracle := rfl

/-! ### Registers -/

@[simp] theorem Regs.get_set_same (r : Regs) (q : PReg) (v : Word) : (r.set q v).get q = v := by
  cases q <;> rfl

theorem Regs.get_set_other (r : Regs) (q q' : PReg) (v : Word) (h : q' ≠ q) : (r.set q v).get q' = r.get q' := by
  cases q <;> cases q' <;> first | rfl | exact absurd rfl h

theorem State.get_eq (s : State) (q : PReg) : s.get q = s.regs.get q := rfl

@[simp] theorem State.get_set_same (s : State) (q : PReg) (v : Word) : (s.set q v).get q = v := by
  simp [State.get_eq]

theorem State.get_set_other (s : State) (q q' : PReg) (v : Word) (h : q' ≠ q) : (s.set q v).get q' = s.get q' := by
  simp [State.get_eq, Regs.get_set_other _ _ _ _ h]

/-- Registers are equal when every one of them is. -/
theorem Regs.ext_get {r r' : Regs} (h : ∀ q, r.get q = r'.get q) : r = r' := by
  cases r; cases r'
  have h0 := h .g0; have h1 := h .g1; have h2 := h .g2; have h3 := h .g3; have h4 := h .g4; have h5 := h .g5
  have h6 := h .g6; have h7 := h .g7; have h8 := h .g8; have h9 := h .g9; have h10 := h .g10; have h11 := h .g11
  have h12 := h .fp; have h13 := h .ssp; have h14 := h .usp
  simp only [Regs.get] at *
  subst h0 h1 h2 h3 h4 h5 h6 h7 h8 h9 h10 h11 h12 h13 h14
  rfl

@[simp] theorem State.setCond_get (s : State) (c : Cond) (q : PReg) : (s.setCond c).get q = s.get q := rfl

@[simp] theorem State.storeByte_get (s : State) (a : Word) (b : Byte) (q : PReg) :
    (s.storeByte a b).get q = s.get q := by
  simp [State.get_eq]

@[simp] theorem State.storeWord_get (s : State) (a v : Word) (q : PReg) : (s.storeWord a v).get q = s.get q := by
  simp [State.get_eq]

@[simp] theorem State.readReg_writeReg_same (s : State) (r : Reg) (v : Word) : (s.writeReg r v).readReg r = v := by
  simp [State.readReg, State.writeReg]

@[simp] theorem State.readReg_setCond (s : State) (c : Cond) (r : Reg) : (s.setCond c).readReg r = s.readReg r := rfl

theorem State.get_writeReg_other (s : State) (r : Reg) (q : PReg) (v : Word) (h : q ≠ Reg.bank s.flag.p r) :
    (s.writeReg r v).get q = s.get q :=
  State.get_set_other s _ q v h

@[simp] theorem State.get_writeReg_same (s : State) (r : Reg) (v : Word) :
    (s.writeReg r v).get (Reg.bank s.flag.p r) = v :=
  State.get_set_same s _ v

/-! ### Memory bytes and the operations that leave them alone -/

theorem State.byteAt_eq (s : State) (a : Nat) : s.byteAt a = (s.mem.read a).getD (Memory.unlisted a) := rfl

/-- What a state's memory reads as depends on the memory alone. -/
theorem State.byteAt_congr {s t : State} (h : t.mem = s.mem) (a : Nat) : t.byteAt a = s.byteAt a := by
  simp [State.byteAt_eq, h]

@[simp] theorem State.byteAt_set (s : State) (q : PReg) (v : Word) (a : Nat) : (s.set q v).byteAt a = s.byteAt a := rfl

@[simp] theorem State.byteAt_writeReg (s : State) (r : Reg) (v : Word) (a : Nat) :
    (s.writeReg r v).byteAt a = s.byteAt a := rfl

@[simp] theorem State.byteAt_setCond (s : State) (c : Cond) (a : Nat) : (s.setCond c).byteAt a = s.byteAt a := rfl

end Sys2Proof.Machine
end

