-- ==== Sys2Proof/Laws/Memory.lean ====
section
/-! SUPPORT. Memory as data: a read after a write, and the canonical form that every operation keeps. -/

namespace Sys2Proof.Machine

/-! ### Reads after writes -/

@[simp] theorem Memory.read_write_same (m : Memory) (a : Nat) (v : Byte) :
    Memory.read (Memory.write m a v) a = some v := by
  induction m with
  | nil => simp [Memory.write, Memory.read]
  | cons c rest ih =>
    obtain ⟨k, b⟩ := c
    simp only [Memory.write]
    split
    · simp [Memory.read]
    · split
      · simp [Memory.read]
      · rename_i h
        simp [Memory.read, h, ih]

theorem Memory.read_write_other (m : Memory) (a a' : Nat) (v : Byte) (h : a' ≠ a) :
    Memory.read (Memory.write m a v) a' = Memory.read m a' := by
  induction m with
  | nil => simp [Memory.write, Memory.read, h]
  | cons c rest ih =>
    obtain ⟨k, b⟩ := c
    simp only [Memory.write]
    split
    · simp [Memory.read, h]
    · split
      · rename_i hk; subst hk; simp [Memory.read, h]
      · simp only [Memory.read, ih]

/-! ### The canonical form -/

/-- Every address of a memory lies above `k` and in the 64 KiB space, rising. -/
def Memory.above (k : Nat) : Memory → Prop
  | [] => True
  | (a, _) :: rest => k < a ∧ a < 65536 ∧ Memory.above a rest

theorem Memory.wf_cons {a : Nat} {b : Byte} {m : Memory} :
    Memory.wf ((a, b) :: m) = true ↔ a < 65536 ∧ Memory.above a m := by
  induction m generalizing a b with
  | nil => simp [Memory.wf, Memory.above]
  | cons c rest ih =>
    obtain ⟨k, v⟩ := c
    simp only [Memory.wf, Memory.above, Bool.and_eq_true, decide_eq_true_eq, ih]
    constructor
    · rintro ⟨h1, h2, h3⟩; exact ⟨by omega, h1, h2, h3⟩
    · rintro ⟨_, h1, h2, h3⟩; exact ⟨h1, h2, h3⟩

theorem Memory.above_write {k a : Nat} {m : Memory} {v : Byte} (hk : k < a) (ha : a < 65536)
    (h : Memory.above k m) : Memory.above k (Memory.write m a v) := by
  induction m generalizing k with
  | nil => exact ⟨hk, ha, trivial⟩
  | cons c rest ih =>
    obtain ⟨j, b⟩ := c
    obtain ⟨h1, h2, h3⟩ := h
    simp only [Memory.write]
    split
    · exact ⟨hk, ha, by assumption, h2, h3⟩
    · split
      · rename_i hj; subst hj; exact ⟨hk, ha, h3⟩
      · exact ⟨h1, h2, ih (by omega) h3⟩

/-- A write inside the address space keeps the canonical form. -/
theorem Memory.wf_write {a : Nat} {m : Memory} {v : Byte} (ha : a < 65536) (h : Memory.wf m = true) :
    Memory.wf (Memory.write m a v) = true := by
  cases m with
  | nil => simpa [Memory.write, Memory.wf] using ha
  | cons c rest =>
    obtain ⟨k, b⟩ := c
    have hc := Memory.wf_cons.mp h
    simp only [Memory.write]
    split
    · exact Memory.wf_cons.mpr ⟨ha, by assumption, hc⟩
    · split
      · rename_i hk; subst hk; exact Memory.wf_cons.mpr hc
      · exact Memory.wf_cons.mpr ⟨hc.1, Memory.above_write (by omega) ha hc.2⟩

/-- Equal reads make equal memories: the form is canonical. -/
theorem Memory.read_above {k : Nat} {m : Memory} (h : Memory.above k m) {a : Nat} (ha : a ≤ k) :
    Memory.read m a = none := by
  induction m generalizing k with
  | nil => rfl
  | cons c rest ih =>
    obtain ⟨j, b⟩ := c
    obtain ⟨h1, _, h3⟩ := h
    have : a ≠ j := by omega
    simp only [Memory.read, this, if_false]
    exact ih h3 (by omega)

/-! ### The state's stores -/

theorem State.storeByte_mem_wf {s : State} (a : Word) (b : Byte) (h : s.Inv) : (s.storeByte a b).Inv := by
  unfold State.storeByte State.Inv
  split
  · exact Memory.wf_write (by omega) h
  · exact h

theorem State.storeWord_mem_wf {s : State} (a v : Word) (h : s.Inv) : (s.storeWord a v).Inv :=
  State.storeByte_mem_wf _ _ (State.storeByte_mem_wf _ _ h)

theorem State.placeBytes_mem_wf {s : State} (a : Word) (bs : List Byte) (h : s.Inv) : (s.placeBytes a bs).Inv := by
  induction bs generalizing s a with
  | nil => exact h
  | cons b rest ih => exact ih (s := { s with mem := s.mem.write a.toNat b }) _ (Memory.wf_write (by omega) h)

/-- A stored byte reads back where a store can reach. -/
theorem State.byteAt_storeByte_same {s : State} {a : Word} {b : Byte} (h : writable a.toNat = true) :
    (s.storeByte a b).byteAt a.toNat = b := by
  simp [State.storeByte, h, State.byteAt_eq]

/-- A store leaves every other byte, and every byte it cannot reach. -/
theorem State.byteAt_storeByte_other {s : State} {a : Word} {b : Byte} {k : Nat}
    (h : k ≠ a.toNat ∨ writable k = false) : (s.storeByte a b).byteAt k = s.byteAt k := by
  unfold State.storeByte
  split
  · rename_i hw
    rcases h with h | h
    · simp [State.byteAt_eq, Memory.read_write_other _ _ _ _ h]
    · have : k ≠ a.toNat := by rintro rfl; simp [h] at hw
      simp [State.byteAt_eq, Memory.read_write_other _ _ _ _ this]
  · rfl

/-- Two neighbouring addresses of the 64 KiB space differ. -/
theorem toNat_succ_ne (a : Word) : (a + 1).toNat ≠ a.toNat := by
  bv_omega

/-- A stored word lies high byte first (R44, R49). -/
theorem State.storeWord_holds (s : State) (a v : Word) : HoldsWord (s.storeWord a v) a v := by
  refine ⟨fun h => ?_, fun h => ?_⟩
  · unfold State.storeWord
    rw [State.byteAt_storeByte_other (Or.inl (Ne.symm (toNat_succ_ne a)))]
    exact State.byteAt_storeByte_same h
  · exact State.byteAt_storeByte_same h

/-- A word store leaves every byte outside its two addresses. -/
theorem State.storeWord_others (s : State) (a v : Word) :
    SameBytesBut [a.toNat, (a + 1).toNat] s (s.storeWord a v) := by
  intro k hk
  have h1 : k ≠ (a + 1).toNat ∨ writable k = false := by
    rcases hk with h | h
    · left; intro e; simp [e] at h
    · exact Or.inr h
  have h2 : k ≠ a.toNat ∨ writable k = false := by
    rcases hk with h | h
    · left; intro e; simp [e] at h
    · exact Or.inr h
  unfold State.storeWord
  rw [State.byteAt_storeByte_other h1, State.byteAt_storeByte_other h2]

end Sys2Proof.Machine
end

