-- ==== Sys2Proof/Laws/Ops.lean ====
section
/-! SUPPORT. What each shared operation can do, said once: the accesses, the end of an instruction, trap entry, the
return, the ports. Later proofs cite these and do not unfold the operations. -/

namespace Sys2Proof.Machine

/-! ### Binds -/

/-- A computation answers when each of its parts does. -/
theorem bind_eq_ok {α β : Type} {x : Except Abort α} {f : α → Except Abort β} {b : β} :
    (x >>= f) = .ok b ↔ ∃ a, x = .ok a ∧ f a = .ok b := by
  cases x <;> simp [bind, Except.bind]

@[simp] theorem ok_bind {α β : Type} (a : α) (f : α → Except Abort β) : (Except.ok a >>= f) = f a := rfl

@[simp] theorem error_bind {α β : Type} (e : Abort) (f : α → Except Abort β) :
    ((Except.error e : Except Abort α) >>= f) = .error e := rfl

/-! ### Addresses -/

theorem State.translate_privileged {s : State} (h : s.flag.p = true) (a : Word) : s.translate a = .ok a := by
  simp [State.translate, mmuTranslate, h]

theorem State.translate_ok {s : State} {a pa : Word} :
    s.translate a = .ok pa ↔
      mmuTranslate s.flag.p s.io.mmu.enable s.io.mmu.base s.io.mmu.limit a = some pa := by
  unfold State.translate
  split <;> simp_all

/-- Translation can only fail as a memory protection violation. -/
theorem State.translate_error {s : State} {a : Word} {r : Abort} (h : s.translate a = .error r) :
    r = .raise .memoryProtection := by
  unfold State.translate at h
  split at h <;> simp_all

theorem State.wordAddr_ok {s : State} {a pa : Word} :
    s.wordAddr a = .ok pa ↔ a.getLsbD 0 = false ∧ s.translate a = .ok pa := by
  unfold State.wordAddr
  split <;> simp_all

/-- A word address fails as an odd address or as a memory protection violation, never as a refusal. -/
theorem State.wordAddr_error {s : State} {a : Word} {r : Abort} (h : s.wordAddr a = .error r) :
    r = .raise .oddAddress ∨ r = .raise .memoryProtection := by
  unfold State.wordAddr at h
  split at h
  · left; simpa using h.symm
  · exact Or.inr (State.translate_error h)

/-- An odd word address is turned away before the MMU (R50). -/
theorem State.wordAddr_odd {s : State} {a : Word} (h : a.getLsbD 0 = true) :
    s.wordAddr a = .error (.raise .oddAddress) := by
  unfold State.wordAddr
  rw [if_pos h]

theorem State.wordAddr_even {s : State} {a : Word} (h : a.getLsbD 0 = false) : s.wordAddr a = s.translate a := by
  unfold State.wordAddr
  rw [h]
  rfl

theorem State.wordAddr_privileged {s : State} (h : s.flag.p = true) {a : Word} (he : a.getLsbD 0 = false) :
    s.wordAddr a = .ok a :=
  State.wordAddr_ok.mpr ⟨he, State.translate_privileged h a⟩

/-! ### Reads and writes -/

theorem State.read8_ok {s : State} {a : Word} {b : Byte} :
    s.read8 a = .ok b ↔ ∃ pa, s.translate a = .ok pa ∧ s.byteAt pa.toNat = b := by
  simp [State.read8, bind_eq_ok]

theorem State.read16_ok {s : State} {a v : Word} :
    s.read16 a = .ok v ↔ ∃ pa, s.wordAddr a = .ok pa ∧ s.wordAt pa = v := by
  simp [State.read16, bind_eq_ok]

theorem State.write8_ok {s t : State} {a : Word} {b : Byte} :
    s.write8 a b = .ok t ↔ ∃ pa, s.translate a = .ok pa ∧ s.storeByte pa b = t := by
  simp [State.write8, bind_eq_ok]

theorem State.write16_ok {s t : State} {a v : Word} :
    s.write16 a v = .ok t ↔ ∃ pa, s.wordAddr a = .ok pa ∧ s.storeWord pa v = t := by
  simp [State.write16, bind_eq_ok]

theorem State.read16_error {s : State} {a : Word} {r : Abort} (h : s.read16 a = .error r) :
    r = .raise .oddAddress ∨ r = .raise .memoryProtection := by
  unfold State.read16 at h
  cases hw : s.wordAddr a with
  | error e => rw [hw] at h; simp only [error_bind, Except.error.injEq] at h; exact h ▸ State.wordAddr_error hw
  | ok pa => rw [hw] at h; simp at h

theorem State.write16_error {s : State} {a v : Word} {r : Abort} (h : s.write16 a v = .error r) :
    r = .raise .oddAddress ∨ r = .raise .memoryProtection := by
  unfold State.write16 at h
  cases hw : s.wordAddr a with
  | error e => rw [hw] at h; simp only [error_bind, Except.error.injEq] at h; exact h ▸ State.wordAddr_error hw
  | ok pa => rw [hw] at h; simp at h

theorem State.unknownRom_iff {s : State} {a : Word} : s.unknownRom a = true ↔ RomUnknown s a := by
  simp [State.unknownRom, RomUnknown, inRom, and_assoc]

theorem fetchesFrom_iff {s : State} {pa : Word} :
    FetchesFrom s pa ↔ s.wordAddr s.pc = .ok pa ∧ (s.unknownRom pa || s.unknownRom (pa + 1)) = false := by
  simp [FetchesFrom, ← State.unknownRom_iff]

/-- The fetch of a word of the unknown ROM is refused (U32). -/
theorem State.fetch16_unknownRom {s : State} (h : FetchesUnknownRom s) :
    s.fetch16 = .error (.refuse .executeFromUnknownRom) := by
  obtain ⟨pa, ha, hr⟩ := h
  have hu : (s.unknownRom pa || s.unknownRom (pa + 1)) = true := by
    simpa [← State.unknownRom_iff] using hr
  simp only [State.fetch16, ha, bind, Except.bind, hu, if_true]

theorem State.fetch16_ok {s t : State} {w : Word} :
    s.fetch16 = .ok (w, t) ↔
      ∃ pa, s.wordAddr s.pc = .ok pa ∧ (s.unknownRom pa || s.unknownRom (pa + 1)) = false ∧
        w = s.wordAt pa ∧ t = { s with pc := s.pc + 2 } := by
  simp only [State.fetch16, bind_eq_ok]
  refine exists_congr fun pa => and_congr_right fun _ => ?_
  cases s.unknownRom pa || s.unknownRom (pa + 1) <;> simp [eq_comm]

/-! ### The end of an instruction -/

@[simp] theorem conclude_ok (s t : State) : conclude s (.ok t) = .next t := rfl

@[simp] theorem conclude_raise (s : State) (x : Exc) : conclude s (.error (.raise x)) = takeException x s := rfl

@[simp] theorem conclude_refuse (s : State) (r : Refusal) : conclude s (.error (.refuse r)) = .refused r := rfl

/-- An instruction that answers a next state completed, or took an exception. -/
theorem conclude_next {s t : State} {r : Except Abort State} (h : conclude s r = .next t) :
    r = .ok t ∨ ∃ x, r = .error (.raise x) ∧ takeException x s = .next t := by
  match r, h with
  | .ok u, h => left; simpa using h
  | .error (.raise x), h => exact Or.inr ⟨x, rfl, h⟩

/-- The privilege check passes in privileged mode. -/
theorem State.requirePrivilege_privileged {s : State} (h : s.flag.p = true) (op : Config.PrivOp) :
    s.requirePrivilege op = .ok () := by
  simp [State.requirePrivilege, h]

/-- The privilege check of this hardware's set fails in user mode (R220). -/
theorem State.requirePrivilege_user {s : State} (h : s.flag.p = false) (op : Config.PrivOp) :
    s.requirePrivilege op = .error (.raise .privilegeViolation) := by
  cases op <;> simp [State.requirePrivilege, privSet, h]

/-! ### Trap entry -/

/-- The state trap entry leaves before it loads PC (R205). -/
def State.frameState (s : State) (savedPc : Word) : State :=
  let s1 := { s with flag := { s.flag with p := true, e := false } }
  let sp := s.get .ssp
  (((s1.set .ssp (sp - 2)).storeWord (sp - 2) savedPc).set .ssp (sp - 4)).storeWord (sp - 4) s.flag.toWord

theorem even_sub_two {a : Word} : (a - 2).getLsbD 0 = a.getLsbD 0 := by
  rw [BitVec.getLsbD, BitVec.getLsbD, Nat.testBit_zero, Nat.testBit_zero]
  have : (a - 2).toNat % 2 = a.toNat % 2 := by bv_omega
  rw [this]

theorem even_add_two {a : Word} : (a + 2).getLsbD 0 = a.getLsbD 0 := by
  rw [BitVec.getLsbD, BitVec.getLsbD, Nat.testBit_zero, Nat.testBit_zero]
  have : (a + 2).toNat % 2 = a.toNat % 2 := by bv_omega
  rw [this]

/-- The frame is pushed exactly when SSP is even. -/
theorem State.pushFrame_ok {s t : State} {savedPc : Word} :
    s.pushFrame savedPc = .ok t ↔ (s.get .ssp).getLsbD 0 = false ∧ t = s.frameState savedPc := by
  unfold State.pushFrame
  simp only [bind_eq_ok, State.write16_ok, State.wordAddr_ok]
  constructor
  · rintro ⟨u, ⟨pa, ⟨he, ht⟩, rfl⟩, pb, ⟨_, hu⟩, rfl⟩
    rw [State.translate_privileged (by simp)] at ht hu
    simp only [Except.ok.injEq] at ht hu
    subst ht hu
    refine ⟨by rw [even_sub_two] at he; exact he, ?_⟩
    simp only [State.frameState, State.get_eq]
    have : s.regs.get .ssp - 2 - 2 = s.regs.get .ssp - 4 := by bv_omega
    rw [this]
  · rintro ⟨he, rfl⟩
    have h1 : (s.regs.get .ssp - 2).getLsbD 0 = false := by
      rw [even_sub_two]; exact he
    refine ⟨_, ⟨_, ⟨?_, State.translate_privileged (by simp) _⟩, rfl⟩, _,
      ⟨?_, State.translate_privileged (by simp) _⟩, ?_⟩
    · exact h1
    · rw [even_sub_two]; exact h1
    · simp only [State.frameState, State.get_eq]
      have : s.regs.get .ssp - 2 - 2 = s.regs.get .ssp - 4 := by bv_omega
      rw [this]

theorem State.frameState_flag (s : State) (savedPc : Word) :
    (s.frameState savedPc).flag = { s.flag with p := true, e := false } := by
  simp [State.frameState]

theorem State.frameState_io (s : State) (savedPc : Word) : (s.frameState savedPc).io = s.io := by
  simp [State.frameState]

theorem State.frameState_irq (s : State) (savedPc : Word) : (s.frameState savedPc).irq = s.irq := by
  simp [State.frameState]

theorem State.frameState_halted (s : State) (savedPc : Word) : (s.frameState savedPc).halted = s.halted := by
  simp [State.frameState]

theorem State.frameState_ssp (s : State) (savedPc : Word) :
    (s.frameState savedPc).get .ssp = s.get .ssp - 4 := by
  simp [State.frameState]

theorem State.frameState_get_other (s : State) (savedPc : Word) {q : PReg} (h : q ≠ .ssp) :
    (s.frameState savedPc).get q = s.get q := by
  simp only [State.frameState, State.storeWord_get, State.get_set_other _ _ _ _ h]
  rfl

/-- What trap entry does when SSP and the vector address are even (R205). -/
theorem trapEntry_even {s : State} {vector savedPc : Word} (hs : (s.get .ssp).getLsbD 0 = false)
    (hv : vector.getLsbD 0 = false) :
    trapEntry vector savedPc s =
      .next { s.frameState savedPc with pc := (s.frameState savedPc).wordAt vector } := by
  have h1 : s.pushFrame savedPc = .ok (s.frameState savedPc) := State.pushFrame_ok.mpr ⟨hs, rfl⟩
  have h2 : (s.frameState savedPc).read16 vector = .ok ((s.frameState savedPc).wordAt vector) :=
    State.read16_ok.mpr ⟨vector, State.wordAddr_privileged (by simp [State.frameState_flag]) hv, rfl⟩
  simp [trapEntry, h1, h2]

/-- Trap entry with an odd SSP is stuck (R208). -/
theorem trapEntry_odd {s : State} {vector savedPc : Word} (hs : (s.get .ssp).getLsbD 0 = true) :
    trapEntry vector savedPc s = .fault .stuckTrapEntry := by
  unfold trapEntry
  split
  · rfl
  · rename_i t ht
    rw [State.pushFrame_ok, hs] at ht
    exact absurd ht.1 (by decide)

/-- All that trap entry does when it answers a next state: SSP and the vector address were even, the frame is pushed and
PC loaded from the vector word (R205). -/
theorem trapEntry_next {s t : State} {vector savedPc : Word} :
    trapEntry vector savedPc s = .next t ↔
      (s.get .ssp).getLsbD 0 = false ∧ vector.getLsbD 0 = false ∧
      t = { s.frameState savedPc with pc := (s.frameState savedPc).wordAt vector } := by
  constructor
  · intro h
    have hs : (s.get .ssp).getLsbD 0 = false := by
      by_contra hs
      rw [trapEntry_odd (by simpa using hs)] at h
      simp at h
    have hp : s.pushFrame savedPc = .ok (s.frameState savedPc) := State.pushFrame_ok.mpr ⟨hs, rfl⟩
    have hv : vector.getLsbD 0 = false := by
      by_contra hv
      have hr : (s.frameState savedPc).read16 vector = .error (.raise .oddAddress) := by
        rw [State.read16, State.wordAddr_odd (by simpa using hv)]
        rfl
      simp [trapEntry, hp, hr] at h
    rw [trapEntry_even hs hv] at h
    exact ⟨hs, hv, by simpa using h.symm⟩
  · rintro ⟨hs, hv, rfl⟩
    exact trapEntry_even hs hv

theorem Exc.vector_even (x : Exc) : x.vector.getLsbD 0 = false := by cases x <;> decide

theorem Irq.vector_even (v : Irq) : v.vector.getLsbD 0 = false := by cases v <;> decide

/-- An exception taken with an even SSP. -/
theorem takeException_even {s : State} (x : Exc) (hs : (s.get .ssp).getLsbD 0 = false) :
    takeException x s =
      .next { s.frameState (excSavedPc x s.pc) with
        pc := (s.frameState (excSavedPc x s.pc)).wordAt x.vector } :=
  trapEntry_even hs (Exc.vector_even x)

theorem excSavedPc_eq (x : Exc) (pc : Word) : excSavedPc x pc = pc := by cases x <;> rfl

/-! ### The return from a trap -/

theorem returnFromTrap_ok {load : Flags → Word → Flags} {s t : State} :
    returnFromTrap load s = .ok t ↔
      ∃ f pc, s.read16 (s.readReg .sp) = .ok f ∧ s.read16 (s.readReg .sp + 2) = .ok pc ∧
        t = { s.writeReg .sp (s.readReg .sp + 4) with flag := load s.flag f, pc := pc } := by
  simp only [returnFromTrap, bind_eq_ok, Except.ok.injEq]
  constructor
  · rintro ⟨f, hf, pc, hp, rfl⟩
    exact ⟨f, pc, hf, hp, rfl⟩
  · rintro ⟨f, pc, hf, hp, rfl⟩
    exact ⟨f, hf, pc, hp, rfl⟩

/-! ### Families -/

theorem binaryOp_of_operand {f : Word → Word → Word} {c : Word → Word → Cond} {rd : Reg} {ea : Src} {s : State}
    {b : Word} (h : operand s ea = .ok b) :
    binaryOp f c rd ea s =
      .next ((s.writeReg rd (f (s.readReg rd) b)).setCond (c (s.readReg rd) b)) := by
  simp [binaryOp, h]

theorem shiftOp_of_operand {op : ShiftOp} {f : Word → Nat → Word} {rd : Reg} {ea : Src} {s : State} {b : Word}
    (h : operand s ea = .ok b) :
    shiftOp op f rd ea s =
      .next ((s.writeReg rd (f (s.readReg rd) (shiftCount b))).setCond
        (shiftFlags op (s.readReg rd) (shiftCount b) (f (s.readReg rd) (shiftCount b)))) := by
  simp [shiftOp, h]

/-- An operand that cannot be read raises; it is never refused. -/
theorem operand_error {s : State} {ea : Src} {r : Abort} (h : operand s ea = .error r) :
    r = .raise .oddAddress ∨ r = .raise .memoryProtection := by
  cases ea <;> simp only [operand] at h
  case direct => exact State.read16_error h
  case indexed => exact State.read16_error h
  case fpRel => exact State.read16_error h
  case indirect => exact State.read16_error h
  case byteIndirect rx =>
    unfold State.read8 at h
    cases hw : s.translate (s.readReg rx) with
    | error e =>
      rw [hw] at h
      simp only [error_bind, Except.error.injEq] at h
      exact Or.inr (h ▸ State.translate_error hw)
    | ok pa => rw [hw] at h; simp at h
  all_goals simp at h

/-! ### Ports -/

/-- One read of a port changes at most the counter of free values. -/
theorem State.portIn_state (s : State) (p : IoPort) : (s.portIn p).2 = s ∨ (s.portIn p).2 = s.drawWord.2 := by
  unfold State.portIn
  split
  · exact Or.inl rfl
  · exact Or.inr rfl

theorem State.ioRead_ok {s t : State} {byte : Bool} {a : Byte} {v : Word} (h : s.ioRead byte a = .ok (v, t)) :
    t = s ∨ t = s.drawWord.2 := by
  simp only [State.ioRead, bind_eq_ok] at h
  obtain ⟨_, _, h⟩ := h
  simp only [Except.ok.injEq] at h
  split at h
  · simp only [Prod.mk.injEq] at h; exact Or.inl h.2.symm
  · rw [show t = (s.portIn (portOf a)).2 by rw [h]]; exact State.portIn_state s _

theorem State.ioWrite_ok {s t : State} {byte : Bool} {a : Byte} {v : Word} (h : s.ioWrite byte a v = .ok t) :
    t = s ∨ t = { s with io := s.io.portOut (portOf a) v } := by
  simp only [State.ioWrite, bind_eq_ok] at h
  obtain ⟨_, _, h⟩ := h
  simp only [Except.ok.injEq] at h
  split at h
  · exact Or.inl h.symm
  · exact Or.inr h.symm

end Sys2Proof.Machine
end

