-- ==== Sys2Proof/Laws/Oracle.lean ====
section
/-! SUPPORT. What a move of the devices or the operator can do to the request bits and to the enable bits that gate
them. -/

namespace Sys2Proof.Machine

theorem Irqs.get_set (q : Irqs) (v w : Irq) (b : Bool) : (q.set v b).get w = if w = v then b else q.get w := by
  cases v <;> cases w <;> rfl

@[simp] theorem Devices.mayRequest_setTimer_current (d : Devices) (t : TimerId) (x : Word) (v : Irq) :
    (d.setTimer t { d.timer t with current := x }).mayRequest v = d.mayRequest v := by
  cases t <;> cases v <;> rfl

@[simp] theorem Devices.mayRequest_setTimer_flag (d : Devices) (t : TimerId) (x : Word) (v : Irq) :
    (d.setTimer t { d.timer t with flag := x }).mayRequest v = d.mayRequest v := by
  cases t <;> cases v <;> rfl

@[simp] theorem Devices.mayRequest_setSerial_received (d : Devices) (p : SerialId) (b : Byte) (v : Irq) :
    (d.setSerial p { d.serial p with received := b }).mayRequest v = d.mayRequest v := by
  cases p <;> cases v <;> rfl

@[simp] theorem Devices.mayRequest_setSerial_status (d : Devices) (p : SerialId) (t r : Bool) (v : Irq) :
    (d.setSerial p { d.serial p with txReady := t, rxReady := r }).mayRequest v = d.mayRequest v := by
  cases p <;> cases v <;> rfl

/-- No move touches an enable bit: only OUT does. -/
@[simp] theorem State.move_mayRequest (s : State) (m : DeviceMove) (v : Irq) :
    (s.move m).io.mayRequest v = s.io.mayRequest v := by
  cases m with
  | request w => simp only [State.move]; split <;> rfl
  | timerValue t x => exact Devices.mayRequest_setTimer_current s.io t x v
  | timerFlag t x => exact Devices.mayRequest_setTimer_flag s.io t x v
  | serialReceive p b => exact Devices.mayRequest_setSerial_received s.io p b v
  | serialStatus p t r => exact Devices.mayRequest_setSerial_status s.io p t r v
  | storeByte a b => simp only [State.move, State.storeByte_io]
  | usdStatus i e => cases v <;> rfl
  | _ => rfl

/-- What a move does to a request bit: a request of its own interrupt sets it while the enable bit is 1. -/
theorem State.move_irq_get (s : State) (m : DeviceMove) (v : Irq) :
    (s.move m).irq.get v = (s.irq.get v || (decide (m = .request v) && s.io.mayRequest v)) := by
  cases m with
  | request w =>
    by_cases h : w = v
    · subst h; cases hm : s.io.mayRequest w <;> simp [State.move, hm, Irqs.get_set]
    · have hw : ¬ v = w := fun e => h e.symm
      simp only [State.move]
      split <;> simp [Irqs.get_set, h, hw]
  | storeByte a b => simp [State.move]
  | _ => simp [State.move]

/-- The enable bits after a boundary's moves. -/
theorem State.moves_mayRequest (ms : List DeviceMove) (s : State) (v : Irq) :
    (State.moves s ms).io.mayRequest v = s.io.mayRequest v := by
  induction ms generalizing s with
  | nil => rfl
  | cons m ms ih => simp [State.moves, ih]

end Sys2Proof.Machine
end

