-- ==== Sys2Proof/Laws/PerInstr.lean ====
section
/-! SUPPORT. The family `EncodedLength`: an instruction is encoded in two words exactly when its first word says so
(spec/30_encoding.md R72), else in one. One lemma for each constructor of `Instr`. -/

namespace Sys2Proof.Laws.EncodedLength

/-- The length these words have is the one their first word announces (R72). -/
def LengthFits (ws : List Word) : Prop :=
  ws.length = if hasSecondWord (ws.headD 0) then 2 else 1

/-- The length of the encoding is the one its first word announces (R72). -/
def Statement (i : Instr) : Prop := LengthFits (encode i)

/-! ### By shape; `op` is an operation with operand forms -/

theorem source_fits (op : BitVec 5) (rd : Reg) (ea : Src) (h : 1 ≤ op.toNat ∧ op.toNat ≤ 23) :
    LengthFits (encodeSrc op rd ea) := by
  cases ea <;> simp [LengthFits, encodeSrc, h]

theorem store_fits (op : BitVec 5) (rd : Reg) (ea : Dst) (h : 1 ≤ op.toNat ∧ op.toNat ≤ 23) :
    LengthFits (encodeDst op rd ea) := by
  cases ea <;> simp [LengthFits, encodeDst, h]

theorem target_fits (op : BitVec 5) (cc : BitVec 4) (ea : Target) (h : 1 ≤ op.toNat ∧ op.toNat ≤ 23) :
    LengthFits (encodeTarget op cc ea) := by
  cases ea <;> simp [LengthFits, encodeTarget, h]

theorem port_fits (op : BitVec 5) (rd : Reg) (ea : Port) (h : 1 ≤ op.toNat ∧ op.toNat ≤ 23) :
    LengthFits (encodePort op rd ea) := by
  cases ea <;> simp [LengthFits, encodePort, h]

/-- The operations from C0h on have one word. -/
theorem single_fits (op : BitVec 5) (m : BitVec 3) (rd rx : BitVec 4) (h : m.toNat < 3 → ¬ (1 ≤ op.toNat ∧ op.toNat ≤ 23)) :
    LengthFits [packWord op m rd rx] := by
  simp only [LengthFits, List.length_singleton, List.headD_cons, hasSecondWord_packWord]
  by_cases hm : m.toNat < 3
  · have := h hm
    simp [hm]
    omega
  · simp [hm]

/-! ### One lemma for each constructor -/

theorem no : Statement .no := single_fits _ _ _ _ (by decide)

theorem ld (rd : Reg) (ea : Src) : Statement (.ld rd ea) := source_fits _ rd ea (by decide)

theorem st (rd : Reg) (ea : Dst) : Statement (.st rd ea) := store_fits _ rd ea (by decide)

theorem ldFlag (rd : Reg) : Statement (.ldFlag rd) := single_fits _ _ _ _ (by decide)

theorem add (rd : Reg) (ea : Src) : Statement (.add rd ea) := source_fits _ rd ea (by decide)

theorem sub (rd : Reg) (ea : Src) : Statement (.sub rd ea) := source_fits _ rd ea (by decide)

theorem cmp (rd : Reg) (ea : Src) : Statement (.cmp rd ea) := source_fits _ rd ea (by decide)

theorem and (rd : Reg) (ea : Src) : Statement (.and rd ea) := source_fits _ rd ea (by decide)

theorem or (rd : Reg) (ea : Src) : Statement (.or rd ea) := source_fits _ rd ea (by decide)

theorem xor (rd : Reg) (ea : Src) : Statement (.xor rd ea) := source_fits _ rd ea (by decide)

theorem adds (rd : Reg) (ea : Src) : Statement (.adds rd ea) := source_fits _ rd ea (by decide)

theorem mul (rd : Reg) (ea : Src) : Statement (.mul rd ea) := source_fits _ rd ea (by decide)

theorem div (rd : Reg) (ea : Src) : Statement (.div rd ea) := source_fits _ rd ea (by decide)

theorem mod (rd : Reg) (ea : Src) : Statement (.mod rd ea) := source_fits _ rd ea (by decide)

theorem mull (rd : Reg) (ea : Src) : Statement (.mull rd ea) := source_fits _ rd ea (by decide)

theorem divl (rd : Reg) (ea : Src) : Statement (.divl rd ea) := source_fits _ rd ea (by decide)

theorem shla (rd : Reg) (ea : Src) : Statement (.shla rd ea) := source_fits _ rd ea (by decide)

theorem shll (rd : Reg) (ea : Src) : Statement (.shll rd ea) := source_fits _ rd ea (by decide)

theorem shra (rd : Reg) (ea : Src) : Statement (.shra rd ea) := source_fits _ rd ea (by decide)

theorem shrl (rd : Reg) (ea : Src) : Statement (.shrl rd ea) := source_fits _ rd ea (by decide)

theorem jz (ea : Target) : Statement (.jz ea) := target_fits _ _ ea (by decide)

theorem jc (ea : Target) : Statement (.jc ea) := target_fits _ _ ea (by decide)

theorem jm (ea : Target) : Statement (.jm ea) := target_fits _ _ ea (by decide)

theorem jo (ea : Target) : Statement (.jo ea) := target_fits _ _ ea (by decide)

theorem jgt (ea : Target) : Statement (.jgt ea) := target_fits _ _ ea (by decide)

theorem jge (ea : Target) : Statement (.jge ea) := target_fits _ _ ea (by decide)

theorem jle (ea : Target) : Statement (.jle ea) := target_fits _ _ ea (by decide)

theorem jlt (ea : Target) : Statement (.jlt ea) := target_fits _ _ ea (by decide)

theorem jnz (ea : Target) : Statement (.jnz ea) := target_fits _ _ ea (by decide)

theorem jnc (ea : Target) : Statement (.jnc ea) := target_fits _ _ ea (by decide)

theorem jnm (ea : Target) : Statement (.jnm ea) := target_fits _ _ ea (by decide)

theorem jno (ea : Target) : Statement (.jno ea) := target_fits _ _ ea (by decide)

theorem jhi (ea : Target) : Statement (.jhi ea) := target_fits _ _ ea (by decide)

theorem jls (ea : Target) : Statement (.jls ea) := target_fits _ _ ea (by decide)

theorem jmp (ea : Target) : Statement (.jmp ea) := target_fits _ _ ea (by decide)

theorem call (ea : Target) : Statement (.call ea) := target_fits _ _ ea (by decide)

theorem inp (rd : Reg) (ea : Port) : Statement (.inp rd ea) := port_fits _ rd ea (by decide)

theorem out (rd : Reg) (ea : Port) : Statement (.out rd ea) := port_fits _ rd ea (by decide)

theorem push (rd : Reg) : Statement (.push rd) := single_fits _ _ _ _ (by decide)

theorem pop (rd : Reg) : Statement (.pop rd) := single_fits _ _ _ _ (by decide)

theorem ret : Statement .ret := single_fits _ _ _ _ (by decide)

theorem reti : Statement .reti := single_fits _ _ _ _ (by decide)

theorem ei : Statement .ei := single_fits _ _ _ _ (by decide)

theorem di : Statement .di := single_fits _ _ _ _ (by decide)

theorem svc : Statement .svc := single_fits _ _ _ _ (by decide)

theorem halt : Statement .halt := single_fits _ _ _ _ (by decide)

end Sys2Proof.Laws.EncodedLength
end

