-- ==== Sys2Proof/Laws/Results.lean ====
section
/-! SUPPORT. The flags as facts about integers, the shift count, the 32-bit arithmetic of MULL and DIVL, and the frames
of register writes: what proofs about an instruction's result cite. -/

namespace Sys2Proof.Machine

/-! ### Flags -/

theorem isZero_eq (a : Word) : isZero a = decide (a = 0) := by
  unfold isZero
  rw [Bool.eq_iff_iff]
  simp

/-- The overflow of an addition: the signed sum does not fit (R110). -/
theorem addFlags_v (a b : Word) :
    (addFlags a b).v = decide (a.toInt + b.toInt < -32768 ∨ 32767 < a.toInt + b.toInt) := by
  unfold addFlags
  rw [BitVec.msb_eq_toInt, BitVec.msb_eq_toInt, BitVec.msb_eq_toInt, BitVec.toInt_add]
  have h1 := BitVec.toInt_lt (x := a); have h2 := BitVec.le_toInt (x := a)
  have h3 := BitVec.toInt_lt (x := b); have h4 := BitVec.le_toInt (x := b)
  simp only [Int.bmod] at *
  generalize a.toInt = x at *
  generalize b.toInt = y at *
  rw [Bool.eq_iff_iff]
  simp only [Bool.and_eq_true, beq_iff_eq, bne_iff_ne, ne_eq, decide_eq_decide, decide_eq_true_eq]
  simp at *
  split <;> omega

/-- The overflow of a subtraction: the signed difference does not fit (R110). -/
theorem subFlags_v (a b : Word) :
    (subFlags a b).v = decide (a.toInt - b.toInt < -32768 ∨ 32767 < a.toInt - b.toInt) := by
  unfold subFlags
  rw [BitVec.msb_eq_toInt, BitVec.msb_eq_toInt, BitVec.msb_eq_toInt, BitVec.toInt_sub]
  have h1 := BitVec.toInt_lt (x := a); have h2 := BitVec.le_toInt (x := a)
  have h3 := BitVec.toInt_lt (x := b); have h4 := BitVec.le_toInt (x := b)
  simp only [Int.bmod] at *
  generalize a.toInt = x at *
  generalize b.toInt = y at *
  rw [Bool.eq_iff_iff]
  simp only [Bool.and_eq_true, bne_iff_ne, ne_eq, decide_eq_decide, decide_eq_true_eq]
  simp at *
  split <;> omega

theorem subFlags_z (a b : Word) : (subFlags a b).z = decide (a = b) := by
  simp only [subFlags, isZero_eq]
  rw [decide_eq_decide]
  constructor
  · intro h; bv_omega
  · rintro rfl; simp

/-- S xor V after a comparison is "less than" of signed numbers (R19, R110). -/
theorem subFlags_less (a b : Word) : ((subFlags a b).s != (subFlags a b).v) = decide (a.toInt < b.toInt) := by
  simp only [subFlags]
  rw [BitVec.msb_eq_toInt, BitVec.msb_eq_toInt, BitVec.msb_eq_toInt, BitVec.toInt_sub]
  have h1 := BitVec.toInt_lt (x := a); have h2 := BitVec.le_toInt (x := a)
  have h3 := BitVec.toInt_lt (x := b); have h4 := BitVec.le_toInt (x := b)
  simp only [Int.bmod] at *
  generalize a.toInt = x at *
  generalize b.toInt = y at *
  rw [Bool.eq_iff_iff]
  simp only [bne_iff_ne, ne_eq, decide_eq_true_eq]
  norm_num at *
  by_cases e1 : x < 0 <;> by_cases e2 : y < 0 <;> simp only [e1, e2] <;> split <;> simp <;> omega

/-- The shift count is the operand's low four bits (R130(a)). -/
theorem shiftCount_eq (b : Word) : shiftCount b = b.toNat % 16 := by
  unfold shiftCount shiftCountMask
  rw [BitVec.toNat_and]
  exact Nat.and_two_pow_sub_one_eq_mod b.toNat 4

/-! ### Multiplication and division -/

theorem requireNonZero_ok {b : Word} (h : b ≠ 0) : requireNonZero b = .ok () := by
  have h' : ¬ (b = 0#16) := h
  simp [requireNonZero, h']

theorem pair_toNat (x y : Word) : (x ++ y).toNat = x.toNat * 65536 + y.toNat := by
  rw [BitVec.toNat_append, ← Nat.shiftLeft_add_eq_or_of_lt y.isLt, Nat.shiftLeft_eq]

theorem longQuotientOverflows_eq (x y b : Word) :
    longQuotientOverflows (x ++ y) b = decide (65536 ≤ (x.toNat * 65536 + y.toNat) / b.toNat) := by
  rw [Bool.eq_iff_iff]
  simp only [longQuotientOverflows, longQuotient, widen, mulDivSigned]
  simp
  rw [← BitVec.toNat_inj]
  have h1 := x.isLt; have h2 := y.isLt
  simp [pair_toNat]
  rw [Nat.mod_eq_of_lt (a := b.toNat) (by omega)]
  have : (x.toNat * 65536 + y.toNat) / b.toNat ≤ x.toNat * 65536 + y.toNat := Nat.div_le_self _ _
  generalize (x.toNat * 65536 + y.toNat) / b.toNat = q at *
  omega

theorem longQuotient_low (x y b : Word) :
    (longQuotient (x ++ y) b).extractLsb' 0 16 = BitVec.ofNat 16 ((x.toNat * 65536 + y.toNat) / b.toNat) := by
  apply BitVec.eq_of_toNat_eq
  simp [longQuotient, widen, mulDivSigned, BitVec.extractLsb'_toNat, pair_toNat]
  rw [Nat.mod_eq_of_lt (a := b.toNat) (by omega)]

theorem longRemainder_low (x y b : Word) :
    (longRemainder (x ++ y) b).extractLsb' 0 16 = BitVec.ofNat 16 ((x.toNat * 65536 + y.toNat) % b.toNat) := by
  apply BitVec.eq_of_toNat_eq
  simp [longRemainder, widen, mulDivSigned, BitVec.extractLsb'_toNat, pair_toNat]
  rw [Nat.mod_eq_of_lt (a := b.toNat) (by omega)]

/-! ### Frames of register writes -/

/-- The two registers of a pair are different registers in either mode (R126). -/
theorem pairHigh_ne {rd hi : Reg} (h : Reg.pairHigh rd = some hi) (p : Bool) : Reg.bank p rd ≠ Reg.bank p hi := by
  cases rd <;> simp [Reg.pairHigh] at h <;> subst h <;> cases p <;> decide

/-- In user mode no register field reaches SSP (R13). -/
theorem State.writeReg_ssp_user {s : State} {r : Reg} {v : Word} (h : s.flag.p = false) :
    (s.writeReg r v).get .ssp = s.get .ssp := by
  apply State.get_writeReg_other
  cases r <;> simp [Reg.bank, h]

/-- A state that only had Rd and the condition flags written. -/
theorem yields_writeReg_setCond {s : State} {rd : Reg} {v : Word} {c : Cond} :
    Yields (.next ((s.writeReg rd v).setCond c)) s (Reg.bank s.flag.p rd) v c := by
  refine ⟨_, rfl, by simp, rfl, rfl, ?_, fun _ => rfl, ?_⟩
  · intro q hq
    simp only [List.mem_singleton] at hq
    simp [State.get_writeReg_other _ _ _ _ hq]
  · simp [SameSystem]

/-- A state that only had a pair and the condition flags written. -/
theorem yieldsPair_writeReg_setCond {s : State} {rd hi : Reg} {v w : Word} {c : Cond}
    (hne : Reg.bank s.flag.p rd ≠ Reg.bank s.flag.p hi) :
    YieldsPair (.next (((s.writeReg hi w).writeReg rd v).setCond c)) s (Reg.bank s.flag.p rd) (Reg.bank s.flag.p hi)
      v w c := by
  refine ⟨_, rfl, ?_, ?_, rfl, rfl, ?_, fun _ => rfl, ?_⟩
  · exact State.get_writeReg_same (s.writeReg hi w) rd v
  · simp only [State.setCond_get]
    rw [State.get_writeReg_other _ _ _ _ (by simpa using hne.symm)]
    simp
  · intro q hq
    simp only [List.mem_cons, List.not_mem_nil, or_false, not_or] at hq
    simp only [State.setCond_get]
    rw [State.get_writeReg_other _ _ _ _ (by simpa using hq.1), State.get_writeReg_other _ _ _ _ hq.2]
  · simp [SameSystem]

/-! ### FLAG as a word -/

/-- The stored bits survive a trip through the word (R18, R22). -/
@[simp] theorem Flags.ofWord_toWord (f : Flags) : Flags.ofWord f.toWord = f := by
  obtain ⟨e, p, v, c, s, z⟩ := f
  revert e p v c s z
  decide

end Sys2Proof.Machine
end

