-- ==== Sys2Proof/Machine/Assembler.lean ====
section
/-! DEFINITION. The assembler's spelling of an instruction (spec/30_encoding.md R83): mnemonic, then the operands,
destination first. The sheet does not say how constants are written (91_not_in_source.md N30): hexadecimal with a
trailing h for addresses and Imm, decimal for Dsp4 and Imm4, as the spec's examples write them. -/

namespace Sys2Proof.Machine

/-- A register's name in the Rd/Rs/Rx table (R11). -/
def regName : Reg → String
  | .g0 => "G0"
  | .g1 => "G1"
  | .g2 => "G2"
  | .g3 => "G3"
  | .g4 => "G4"
  | .g5 => "G5"
  | .g6 => "G6"
  | .g7 => "G7"
  | .g8 => "G8"
  | .g9 => "G9"
  | .g10 => "G10"
  | .g11 => "G11"
  | .fp => "FP"
  | .sp => "SP"
  | .usp => "USP"

/-- One hexadecimal digit. -/
def hexDigit (d : Nat) : Char := if d < 10 then Char.ofNat (48 + d) else Char.ofNat (55 + d)

/-- A word as four hexadecimal digits and an h. -/
def hexWord (w : Word) : String :=
  String.ofList [hexDigit (w.toNat / 4096 % 16), hexDigit (w.toNat / 256 % 16), hexDigit (w.toNat / 16 % 16),
    hexDigit (w.toNat % 16), 'h']

/-- The EA part of a source operand (R83). -/
def srcText : Src → String
  | .direct dsp => hexWord dsp
  | .indexed dsp rx => hexWord dsp ++ "," ++ regName rx
  | .imm v => "#" ++ hexWord v
  | .fpRel d4 => toString (2 * d4.toInt) ++ ",FP"
  | .reg rs => regName rs
  | .imm4 i4 => "#" ++ toString i4.toInt
  | .indirect rx => "0," ++ regName rx
  | .byteIndirect rx => "@" ++ regName rx

/-- The EA part of ST. -/
def dstText : Dst → String
  | .direct dsp => hexWord dsp
  | .indexed dsp rx => hexWord dsp ++ "," ++ regName rx
  | .fpRel d4 => toString (2 * d4.toInt) ++ ",FP"
  | .indirect rx => "0," ++ regName rx
  | .byteIndirect rx => "@" ++ regName rx

/-- The EA part of a jump or CALL. -/
def targetText : Target → String
  | .direct dsp => hexWord dsp
  | .indexed dsp rx => hexWord dsp ++ "," ++ regName rx
  | .indirect rx => "0," ++ regName rx

/-- The EA part of IN and OUT. -/
def portText : Port → String
  | .direct dsp => hexWord dsp
  | .indirect rx => "0," ++ regName rx
  | .byteIndirect rx => "@" ++ regName rx

/-- `OP Rd,EA`. -/
def twoOperands (op : String) (rd : Reg) (ea : String) : String := op ++ " " ++ regName rd ++ "," ++ ea

/-- An instruction as the assembler spells it (R83). -/
def spelling : Instr → String
  | .no => "NO"
  | .ld rd ea => twoOperands "LD" rd (srcText ea)
  | .st rd ea => twoOperands "ST" rd (dstText ea)
  | .ldFlag rd => twoOperands "LD" rd "FLAG"
  | .add rd ea => twoOperands "ADD" rd (srcText ea)
  | .sub rd ea => twoOperands "SUB" rd (srcText ea)
  | .cmp rd ea => twoOperands "CMP" rd (srcText ea)
  | .and rd ea => twoOperands "AND" rd (srcText ea)
  | .or rd ea => twoOperands "OR" rd (srcText ea)
  | .xor rd ea => twoOperands "XOR" rd (srcText ea)
  | .adds rd ea => twoOperands "ADDS" rd (srcText ea)
  | .mul rd ea => twoOperands "MUL" rd (srcText ea)
  | .div rd ea => twoOperands "DIV" rd (srcText ea)
  | .mod rd ea => twoOperands "MOD" rd (srcText ea)
  | .mull rd ea => twoOperands "MULL" rd (srcText ea)
  | .divl rd ea => twoOperands "DIVL" rd (srcText ea)
  | .shla rd ea => twoOperands "SHLA" rd (srcText ea)
  | .shll rd ea => twoOperands "SHLL" rd (srcText ea)
  | .shra rd ea => twoOperands "SHRA" rd (srcText ea)
  | .shrl rd ea => twoOperands "SHRL" rd (srcText ea)
  | .jz ea => "JZ " ++ targetText ea
  | .jc ea => "JC " ++ targetText ea
  | .jm ea => "JM " ++ targetText ea
  | .jo ea => "JO " ++ targetText ea
  | .jgt ea => "JGT " ++ targetText ea
  | .jge ea => "JGE " ++ targetText ea
  | .jle ea => "JLE " ++ targetText ea
  | .jlt ea => "JLT " ++ targetText ea
  | .jnz ea => "JNZ " ++ targetText ea
  | .jnc ea => "JNC " ++ targetText ea
  | .jnm ea => "JNM " ++ targetText ea
  | .jno ea => "JNO " ++ targetText ea
  | .jhi ea => "JHI " ++ targetText ea
  | .jls ea => "JLS " ++ targetText ea
  | .jmp ea => "JMP " ++ targetText ea
  | .call ea => "CALL " ++ targetText ea
  | .inp rd ea => twoOperands "IN" rd (portText ea)
  | .out rd ea => twoOperands "OUT" rd (portText ea)
  | .push rd => "PUSH " ++ regName rd
  | .pop rd => "POP " ++ regName rd
  | .ret => "RET"
  | .reti => "RETI"
  | .ei => "EI"
  | .di => "DI"
  | .svc => "SVC"
  | .halt => "HALT"

end Sys2Proof.Machine
end

