-- ==== Sys2Proof/Machine/Timing.lean ====
section
/-! DEFINITION. The sheet's state counts (spec/70_reset_and_hazards.md R260): a cost annotation that no step uses (R261;
log 39). -/

namespace Sys2Proof.Machine

/-- The eight columns of ADD, SUB, CMP, AND, OR, XOR; the other operations differ from them by a constant but for LD. -/
def sourceStates : Src → Nat
  | .direct _ => 7
  | .indexed _ _ => 7
  | .imm _ => 5
  | .fpRel _ => 7
  | .reg _ => 5
  | .imm4 _ => 4
  | .indirect _ => 6
  | .byteIndirect _ => 6

/-- LD's columns: as the others, but 4 in the Reg column. -/
def loadStates : Src → Nat
  | .reg _ => 4
  | ea => sourceStates ea

/-- ST's columns. -/
def storeStates : Dst → Nat
  | .direct _ => 6
  | .indexed _ _ => 6
  | .fpRel _ => 6
  | .indirect _ => 5
  | .byteIndirect _ => 5

/-- OUT's columns; IN takes one state more. -/
def portStates : Port → Nat
  | .direct _ => 6
  | .indirect _ => 5
  | .byteIndirect _ => 5

/-- "4/5": 4 states when the jump is not taken, 5 when it is (R260). -/
def jumpStates (taken : Bool) : Nat := if taken then 5 else 4

/-- The number of states of an instruction: `taken` for the conditional jumps, `n` the shift count (R260). -/
def stateCount (i : Instr) (taken : Bool) (n : Nat) : Nat :=
  match i with
  | .no => 3
  | .ld _ ea => loadStates ea
  | .st _ ea => storeStates ea
  | .ldFlag _ => 4
  | .add _ ea => sourceStates ea
  | .sub _ ea => sourceStates ea
  | .cmp _ ea => sourceStates ea
  | .and _ ea => sourceStates ea
  | .or _ ea => sourceStates ea
  | .xor _ ea => sourceStates ea
  | .adds _ ea => sourceStates ea + 1
  | .mul _ ea => sourceStates ea + 50
  | .div _ ea => sourceStates ea + 66
  | .mod _ ea => sourceStates ea + 66
  | .mull _ ea => sourceStates ea + 50
  | .divl _ ea => sourceStates ea + 66
  | .shla _ ea => sourceStates ea + 1 + n
  | .shll _ ea => sourceStates ea + 1 + n
  | .shra _ ea => sourceStates ea + 1 + n
  | .shrl _ ea => sourceStates ea + 1 + n
  | .jz _ => jumpStates taken
  | .jc _ => jumpStates taken
  | .jm _ => jumpStates taken
  | .jo _ => jumpStates taken
  | .jgt _ => jumpStates taken
  | .jge _ => jumpStates taken
  | .jle _ => jumpStates taken
  | .jlt _ => jumpStates taken
  | .jnz _ => jumpStates taken
  | .jnc _ => jumpStates taken
  | .jnm _ => jumpStates taken
  | .jno _ => jumpStates taken
  | .jhi _ => jumpStates taken
  | .jls _ => jumpStates taken
  | .jmp _ => 5
  | .call _ => 6
  | .inp _ ea => portStates ea + 1
  | .out _ ea => portStates ea
  | .push _ => 5
  | .pop _ => 6
  | .ret => 6
  | .reti => 9
  | .ei => 5
  | .di => 5
  | .svc => 12
  | .halt => 5

end Sys2Proof.Machine
end

