-- ==== Sys2Proof/Tests/Slice0.lean ====
section
/-! SUPPORT. Small tests, every expected value from an example or a corner case printed in spec/ (the rule is named), and
for every statement with hypotheses a concrete state and operands that meet them together. -/

namespace Sys2Proof.Tests

open Sys2Proof.Machine

/-! ### Helpers -/

/-- A state after a few loads: the harness's start state of R257, registers set, the given memory. -/
def start (mem : Memory) : State :=
  { State.reset with
    pc := 0x0100
    regs := { State.reset.regs with g0 := 0x7FFF, g1 := 0x0001, g2 := 0x2000, g3 := 0x0000, g4 := 0x0064, g5 := 0x0007,
                                    fp := 0x3000, ssp := 0x1000, usp := 0x0800 }
    mem := mem }

/-- The same in user mode. -/
def user (mem : Memory) : State :=
  { start mem with flag := { (start mem).flag with p := false } }

/-- The same in user mode with the MMU on: base 4000h, limit 0102h. -/
def mapped (mem : Memory) : State :=
  { user mem with io := { State.reset.io with mmu := { enable := true, base := 0x4000, limit := 0x0102 } } }

/-- One step with an instruction placed at PC. -/
def run (s : State) (bytes : List Byte) : Option State :=
  match step (s.placeBytes s.pc bytes) with
  | .next t => some t
  | _ => none

/-- What is looked at after a step: a register, PC and the condition flags. -/
def see (q : PReg) (t : Option State) : Option (Word × Word × Cond) :=
  t.map fun t => (t.get q, t.pc, t.cond)

def flags (v c s z : Bool) : Cond := { v := v, c := c, s := s, z := z }

/-! ### Well-formedness: the ill-formed terms that the checks refuse (R126) -/

theorem test_wf_mull_odd : Instr.wf (.mull .g1 (.reg .g0)) = false := rfl

theorem test_wf_divl_usp : Instr.wf (.divl .usp (.reg .g0)) = false := rfl

theorem test_wf_mull_fp : Instr.wf (.mull .fp (.reg .g0)) = true := rfl

/-! ### Decoding: for every constructor a word written out from R70 to R76 -/

theorem test_decode_no_ld_st : decode 0x0000 0 = .ok .no ∧ decode 0x0810 0x1000 = .ok (.ld .g1 (.direct 0x1000)) ∧
    decode 0x0B1E 0 = .ok (.ld .g1 (.fpRel 0xE)) ∧ decode 0x0F12 0 = .ok (.ld .g1 (.byteIndirect .g2)) ∧
    decode 0x1712 0 = .ok (.st .g1 (.byteIndirect .g2)) ∧ decode 0x11CD 0x0004 = .ok (.st .fp (.indexed 4 .sp)) ∧
    decode 0x14B0 0 = .ok (.ldFlag .g11) := by decide

theorem test_decode_arith : decode 0x1D03 0 = .ok (.add .g0 (.imm4 3)) ∧ decode 0x2511 0 = .ok (.sub .g1 (.imm4 1)) ∧
    decode 0x2D03 0 = .ok (.cmp .g0 (.imm4 3)) ∧ decode 0x3200 0x00FF = .ok (.and .g0 (.imm 0x00FF)) ∧
    decode 0x3D31 0 = .ok (.or .g3 (.imm4 1)) ∧ decode 0x452F 0 = .ok (.xor .g2 (.imm4 0xF)) ∧
    decode 0x4C01 0 = .ok (.adds .g0 (.reg .g1)) := by decide

theorem test_decode_muldiv : decode 0x5506 0 = .ok (.mul .g0 (.imm4 6)) ∧ decode 0x5D07 0 = .ok (.div .g0 (.imm4 7)) ∧
    decode 0x6507 0 = .ok (.mod .g0 (.imm4 7)) ∧ decode 0x6A20 0x0100 = .ok (.mull .g2 (.imm 0x0100)) ∧
    decode 0x7523 0 = .ok (.divl .g2 (.imm4 3)) := by decide

theorem test_decode_shift : decode 0x8501 0 = .ok (.shla .g0 (.imm4 1)) ∧ decode 0x8D14 0 = .ok (.shll .g1 (.imm4 4)) ∧
    decode 0x9502 0 = .ok (.shra .g0 (.imm4 2)) ∧ decode 0x9D03 0 = .ok (.shrl .g0 (.imm4 3)) := by decide

theorem test_decode_jump : decode 0xA000 0x0200 = .ok (.jz (.direct 0x0200)) ∧ decode 0xA010 0x0300 = .ok (.jc (.direct 0x0300)) ∧
    decode 0xA624 0 = .ok (.jm (.indirect .g4)) ∧ decode 0xA030 0x0500 = .ok (.jo (.direct 0x0500)) ∧
    decode 0xA040 0x0600 = .ok (.jgt (.direct 0x0600)) ∧ decode 0xA050 0x0600 = .ok (.jge (.direct 0x0600)) ∧
    decode 0xA060 0x0600 = .ok (.jle (.direct 0x0600)) ∧ decode 0xA070 0x0600 = .ok (.jlt (.direct 0x0600)) := by decide

theorem test_decode_jump_not : decode 0xA080 0x0006 = .ok (.jnz (.direct 0x0006)) ∧
    decode 0xA090 0x0700 = .ok (.jnc (.direct 0x0700)) ∧ decode 0xA0A0 0x0700 = .ok (.jnm (.direct 0x0700)) ∧
    decode 0xA0B0 0x0700 = .ok (.jno (.direct 0x0700)) ∧ decode 0xA0C0 0x0700 = .ok (.jhi (.direct 0x0700)) ∧
    decode 0xA0E0 0x0700 = .ok (.jls (.direct 0x0700)) ∧ decode 0xA1F3 0x0100 = .ok (.jmp (.indexed 0x0100 .g3)) ∧
    decode 0xAE05 0 = .ok (.call (.indirect .g5)) := by decide

theorem test_decode_io_stack : decode 0xB000 0x001E = .ok (.inp .g0 (.direct 0x001E)) ∧
    decode 0xBF12 0 = .ok (.out .g1 (.byteIndirect .g2)) ∧ decode 0xC030 0 = .ok (.push .g3) ∧
    decode 0xC4E0 0 = .ok (.pop .usp) ∧ decode 0xD000 0 = .ok .ret ∧ decode 0xD400 0 = .ok .reti := by decide

theorem test_decode_system : decode 0xE000 0 = .ok .ei ∧ decode 0xE400 0 = .ok .di ∧ decode 0xF000 0 = .ok .svc ∧
    decode 0xFF00 0 = .ok .halt := by decide

/-- The refusals of R82, in their order: a must-be-zero field comes before a register field, Dh before Fh. -/
theorem test_decode_refusals : decode 0x0A11 0 = .error .mbzField ∧ decode 0x0AF1 0 = .error .mbzField ∧
    decode 0xFFFF 0 = .error .mbzField ∧ decode 0xA81F 0 = .error .mbzField ∧ decode 0xA0D0 0 = .error .condD ∧
    decode 0xA0D1 0 = .error .mbzField ∧ decode 0xA1DF 0 = .error .condD ∧ decode 0x0FF2 0 = .error .pcOperand ∧
    decode 0x0C1F 0 = .error .pcOperand ∧ decode 0x6C10 0 = .error .oddPairRegister ∧
    decode 0x6CE0 0 = .error .oddPairRegister ∧ decode 0x6CF0 0 = .error .pcOperand ∧
    decode 0x12FF 0 = .error .undefinedOp ∧ decode 0xA7D0 0 = .error .undefinedOp := by decide

/-- A two-word instruction from bytes in memory order (R45, R72). -/
theorem test_decode_bytes : decodeBytes [0x0A#8, 0x10#8, 0x12#8, 0x34#8, 0xFF#8] = .ok (.ld .g1 (.imm 0x1234), [0xFF#8]) := by
  decide

/-- The opcode table's numbering: the second word is bits 31 to 16. -/
theorem test_decode_table_word : decodeTableWord 32 0x12340A10 = some (.ld .g1 (.imm 0x1234)) := by decide

/-- The next step after placing an instruction in the state after reset runs it. -/
theorem test_fetch_word : see .g1 (run (State.reset.withFetchWord 32 0x12340A10) []) =
    some (0x1234, 0xF004, flags false false false false) := by decide

/-! ### NO, LD, ST, LD Rd,FLAG (examples of R100 to R103) -/

theorem test_no : see .g0 (run (start []) [0x00#8, 0x00#8]) = some (0x7FFF, 0x0102, flags false false false false) := by
  decide

theorem test_ld : see .g1 (run (start [(0x2000, 0x12), (0x2001, 0x34)]) [0x0E#8, 0x12#8]) =
    some (0x1234, 0x0102, flags false false false false) := by decide

theorem test_ld_byte : see .g1 (run (start [(0x2000, 0x92), (0x2001, 0x34)]) [0x0F#8, 0x12#8]) =
    some (0x0092, 0x0102, flags false false false false) := by decide

theorem test_st_word : (run (start []) [0x16#8, 0x02#8]).map (fun t => t.wordAt 0x2000) = some 0x7FFF := by decide

/-- A byte store leaves the other byte of the word (R102(b)). -/
theorem test_st_byte : (run (start [(0x2000, 0xAB), (0x2001, 0xCD)]) [0x17#8, 0x02#8]).map (fun t => t.wordAt 0x2000) =
    some 0xFFCD := by decide

theorem test_ld_flag : see .g0 (run { start [] with flag := { e := true, p := true, v := false, c := true, s := false, z := true } }
    [0x14#8, 0x00#8]) = some (0x00C5, 0x0102, flags false true false true) := by decide

/-! ### Arithmetic (corner cases of R111 to R117) -/

theorem test_add_overflow : see .g0 (run (start []) [0x1D#8, 0x01#8]) =
    some (0x8000, 0x0102, flags true false true false) := by decide

theorem test_add_carry : see .g1 (run (start []) [0x1A#8, 0x10#8, 0xFF#8, 0xFF#8]) =
    some (0x0000, 0x0104, flags false true false true) := by decide

theorem test_sub_borrow : see .g3 (run (start []) [0x25#8, 0x31#8]) =
    some (0xFFFF, 0x0102, flags false true true false) := by decide

theorem test_sub_same : see .g2 (run (start []) [0x24#8, 0x22#8]) =
    some (0x0000, 0x0102, flags false false false true) := by decide

theorem test_cmp_signs : see .g1 (run (start []) [0x2D#8, 0x1F#8]) =
    some (0x0001, 0x0102, flags false true false false) := by decide

theorem test_and : see .g0 (run (start []) [0x32#8, 0x00#8, 0x00#8, 0xFF#8]) =
    some (0x00FF, 0x0104, flags false false false false) := by decide

theorem test_or : see .g3 (run (start []) [0x3D#8, 0x3F#8]) =
    some (0xFFFF, 0x0102, flags false false true false) := by decide

theorem test_xor : see .g2 (run (start []) [0x45#8, 0x2F#8]) =
    some (0xDFFF, 0x0102, flags false false true false) := by decide

/-- The doubling drops bit 15 of the operand: 8001h doubles to 0002h. -/
theorem test_adds : see .g1 (run (start []) [0x4A#8, 0x10#8, 0x80#8, 0x01#8]) =
    some (0x0003, 0x0104, flags false false false false) := by decide

/-! ### Multiplication and division (R121 to R125) -/

theorem test_mul : see .g5 (run (start []) [0x55#8, 0x56#8]) =
    some (0x002A, 0x0102, flags false false false false) := by decide

theorem test_div : see .g4 (run (start []) [0x5D#8, 0x47#8]) =
    some (0x000E, 0x0102, flags false false false false) := by decide

theorem test_div_zero : see .g4 (run (start [(0xFFF8, 0x05), (0xFFF9, 0x00)]) [0x5C#8, 0x43#8]) =
    some (0x0064, 0x0500, flags false false false false) := by decide

theorem test_mod : see .g4 (run (start []) [0x65#8, 0x47#8]) =
    some (0x0002, 0x0102, flags false false false false) := by decide

/-- FFFFh × FFFFh = FFFE0001h; the operand is the pair's own high register (R124). -/
theorem test_mull : (run { start [] with regs := { (start []).regs with g2 := 0xFFFF, g3 := 0xFFFF } } [0x6C#8, 0x23#8]).map
    (fun t => (t.get .g3, t.get .g2, t.cond)) = some (0xFFFE, 0x0001, flags false false false false) := by decide

theorem test_divl : (run { start [] with regs := { (start []).regs with g2 := 0x0000, g3 := 0x0001 } } [0x75#8, 0x23#8]).map
    (fun t => (t.get .g2, t.get .g3)) = some (0x5555, 0x0001) := by decide

/-- A quotient that does not fit leaves the rest of the machine as it was (R125). -/
theorem test_divl_overflow : (run { start [] with regs := { (start []).regs with g2 := 0x0000, g3 := 0x0003 } } [0x75#8, 0x23#8]).map
    (fun t => (t.get .g0, t.pc, t.flag.p, t.draws)) = some (0x7FFF, 0x0102, true, 6) := by decide

/-! ### Shifts (R131 to R134) -/

theorem test_shla : see .g0 (run { start [] with regs := { (start []).regs with g0 := 0x4001 } } [0x85#8, 0x01#8]) =
    some (0x8002, 0x0102, flags false false true false) := by decide

theorem test_shll : see .g1 (run { start [] with regs := { (start []).regs with g1 := 0x8001 } } [0x8D#8, 0x14#8]) =
    some (0x0010, 0x0102, flags false false false false) := by decide

theorem test_shra : see .g0 (run { start [] with regs := { (start []).regs with g0 := 0x8004 } } [0x95#8, 0x02#8]) =
    some (0xE001, 0x0102, flags false false true false) := by decide

theorem test_shrl : see .g0 (run { start [] with regs := { (start []).regs with g0 := 0x8004 } } [0x9D#8, 0x03#8]) =
    some (0x1000, 0x0102, flags false true false false) := by decide

/-! ### Jumps, CALL, stack (R141 to R156, R170 to R173) -/

theorem test_jz_taken : see .g0 (run { start [] with flag := { (start []).flag with z := true } } [0xA0#8, 0x00#8, 0x02#8, 0x00#8]) =
    some (0x7FFF, 0x0200, flags false false false true) := by decide

theorem test_jz_not_taken : see .g0 (run (start []) [0xA0#8, 0x00#8, 0x02#8, 0x00#8]) =
    some (0x7FFF, 0x0104, flags false false false false) := by decide

theorem test_jlt_overflow : see .g0 (run { start [] with flag := { (start []).flag with v := true } }
    [0xA0#8, 0x70#8, 0x06#8, 0x00#8]) = some (0x7FFF, 0x0600, flags true false false false) := by decide

/-- An odd target is accepted (R140). -/
theorem test_jmp_odd : see .g0 (run (start []) [0xA1#8, 0xF1#8, 0x02#8, 0x00#8]) =
    some (0x7FFF, 0x0201, flags false false false false) := by decide

theorem test_call : (run (start []) [0xA8#8, 0x00#8, 0x02#8, 0x00#8]).map (fun t => (t.get .ssp, t.wordAt 0x0FFE, t.pc)) =
    some (0x0FFE, 0x0104, 0x0200) := by decide

/-- The target is computed before the push: CALL 0,SP (R156). -/
theorem test_call_sp : (run (start []) [0xAE#8, 0x0D#8]).map (fun t => (t.get .ssp, t.pc)) = some (0x0FFE, 0x1000) := by
  decide

theorem test_ret : see .ssp (run (start [(0x1000, 0x01), (0x1001, 0x04)]) [0xD0#8, 0x00#8]) =
    some (0x1002, 0x0104, flags false false false false) := by decide

theorem test_push : (run (start []) [0xC0#8, 0x20#8]).map (fun t => (t.get .ssp, t.wordAt 0x0FFE)) = some (0x0FFE, 0x2000) := by
  decide

/-- POP USP in privileged mode loads USP from the system stack (R172). -/
theorem test_pop_usp : (run (start [(0x1000, 0xBE), (0x1001, 0xEF)]) [0xC4#8, 0xE0#8]).map (fun t => (t.get .usp, t.get .ssp)) =
    some (0xBEEF, 0x1002) := by decide

theorem test_reti : (run (start [(0x1000, 0x00), (0x1001, 0x81), (0x1002, 0x02), (0x1003, 0x00)]) [0xD4#8, 0x00#8]).map
    (fun t => (t.flag.toWord, t.pc, t.get .ssp, t.readReg .sp)) = some (0x0081, 0x0200, 0x1004, 0x0800) := by decide

/-! ### System, I/O, exceptions, interrupts -/

/-- SVC from user mode: the frame of R182's example. -/
theorem test_svc : (run { user [(0xFFFE, 0xE0), (0xFFFF, 0x00)] with flag := { (user []).flag with e := true } } [0xF0#8, 0x00#8]).map
    (fun t => (t.get .ssp, t.wordAt 0x0FFC, t.wordAt 0x0FFE, t.flag.toWord, t.pc)) =
    some (0x0FFC, 0x0080, 0x0102, 0x0040, 0xE000) := by decide

theorem test_ei_di : (run (start []) [0xE0#8, 0x00#8]).map (fun t => t.flag.toWord) = some 0x00C0 ∧
    (run { start [] with flag := { (start []).flag with e := true } } [0xE4#8, 0x00#8]).map (fun t => t.flag.toWord) =
    some 0x0040 := by decide

theorem test_halt : (run (start []) [0xFF#8, 0x00#8]).map (fun t => (t.halted, t.pc)) = some (true, 0x0102) := by decide

theorem test_in_mode : see .g0 (run (start []) [0xB0#8, 0x00#8, 0x00#8, 0x1E#8]) =
    some (0x0001, 0x0104, flags false false false false) := by decide

theorem test_out_mmu : (run (start []) [0xB8#8, 0x10#8, 0x00#8, 0xF0#8]).map (fun t => t.io.mmu.enable) = some true := by
  decide

/-- The privileged form in user mode traps with PC past both its words (R201, R206). -/
theorem test_out_user : (run (user [(0xFFFA, 0x05), (0xFFFB, 0x00)]) [0xB8#8, 0x10#8, 0x00#8, 0xF0#8]).map
    (fun t => (t.pc, t.wordAt 0x0FFE, t.io.mmu.enable)) = some (0x0500, 0x0104, false) := by decide

/-- ST to an odd address traps and writes nothing (R102). -/
theorem test_st_odd : (run (start [(0x0001, 0x77), (0xFFF4, 0x05), (0xFFF5, 0x00)]) [0x16#8, 0x21#8]).map
    (fun t => (t.pc, t.byteAt 0x0001, t.wordAt 0x0FFE)) = some (0x0500, 0x77, 0x0102) := by decide

/-- Two pending requests: the lower vector is served first, the other stays (R203, R204). -/
theorem test_interrupt : (run { start [(0xFFE2, 0x06), (0xFFE3, 0x00)] with
      flag := { (start []).flag with e := true }
      irq := { State.reset.irq with timer1 := true, adc := true } } [0x00#8, 0x00#8]).map
    (fun t => (t.pc, t.wordAt 0x0FFE, t.irq.timer1, t.irq.adc, t.flag.toWord)) =
    some (0x0600, 0x0100, false, true, 0x0040) := by decide

/-- A request made between two steps counts only while its device's enable bit is 1 (R202). -/
theorem test_request_gating : ((start []).move (.request .tecRx)).irq.tecRx = false ∧
    (({ start [] with io := { State.reset.io with tec := { Serial.reset with rxIntEnable := true } } }).move
      (.request .tecRx)).irq.tecRx = true := by decide

/-- State counts and spelling: R260, R83. -/
theorem test_timing_spelling : stateCount (.divl .g2 (.direct 0)) false 0 = 73 ∧ stateCount (.shla .g0 (.imm4 3)) false 3 = 8 ∧
    spelling (.ld .g1 (.fpRel 0xE)) = "LD G1,-4,FP" ∧ spelling (.jmp (.direct 0x0100)) = "JMP 0100h" := by decide

/-! ### Witnesses: a concrete state and operands for the hypotheses of each statement, at the edges of their ranges -/

theorem witness_DecodeOfEncode : Instr.wf (.divl .g10 (.imm 0)) = true := rfl

theorem witness_EncodeOfDecode : decodeBytes [0xFF#8, 0x00#8] = .ok (.halt, []) := by decide

theorem witness_ConditionDRefused : decodeFirst 0xA6DF = .error .condD ∧ opByte 0xA6DF ∈ [0xA0#8, 0xA1#8, 0xA6#8] ∧
    rdField 0xA6DF = 0xD := ⟨rfl, by decide, rfl⟩

/-- A one-word instruction at PC. -/
def oneWord : State := start [(0x0100, 0x1D), (0x0101, 0x03)]

/-- A two-word instruction at PC. -/
def twoWords : State := start [(0x0100, 0x0A), (0x0101, 0x10), (0x0102, 0x12), (0x0103, 0x34)]

theorem witness_StepRunsDecodedInstruction_one : oneWord.boundary.halted = false ∧ NoInterrupt oneWord.boundary ∧
    FetchesFrom oneWord.boundary 0x0100 ∧ oneWord.byteAt 0x0100 ++ oneWord.byteAt 0x0101 = 0x1D03#16 ∧
    decode 0x1D03 0 = .ok (.add .g0 (.imm4 3)) ∧ hasSecondWord 0x1D03 = false :=
  ⟨rfl, Or.inl rfl, ⟨rfl, fun h => absurd h.1 (by decide), fun h => absurd h.1 (by decide)⟩, rfl, rfl, rfl⟩

theorem witness_StepRunsDecodedInstruction_two : twoWords.boundary.halted = false ∧ NoInterrupt twoWords.boundary ∧
    FetchesFrom twoWords.boundary 0x0100 ∧ twoWords.byteAt 0x0100 ++ twoWords.byteAt 0x0101 = 0x0A10#16 ∧
    FetchesFrom { twoWords with pc := 0x0102 } 0x0102 ∧ twoWords.byteAt 0x0102 ++ twoWords.byteAt 0x0103 = 0x1234#16 ∧
    decode 0x0A10 0x1234 = .ok (.ld .g1 (.imm 0x1234)) ∧ hasSecondWord 0x0A10 = true :=
  ⟨rfl, Or.inl rfl, ⟨rfl, fun h => absurd h.1 (by decide), fun h => absurd h.1 (by decide)⟩, rfl,
    ⟨rfl, fun h => absurd h.1 (by decide), fun h => absurd h.1 (by decide)⟩, rfl, rfl, rfl⟩

/-- The last word of the ROM can be fetched once an image of it is placed. -/
theorem witness_StepRunsDecodedInstruction_rom :
    FetchesFrom { start [(0xFFDE, 0x00), (0xFFDF, 0x00)] with pc := 0xFFDE } 0xFFDE :=
  ⟨rfl, fun h => absurd h.2.2 (by decide), fun h => absurd h.2.2 (by decide)⟩

/-- Two requests pending with E = 1. -/
def requested : State :=
  { start [] with flag := { (start []).flag with e := true }
                  irq := { State.reset.irq with timer1 := true, adc := true } }

theorem witness_StepAcceptsInterrupt : requested.boundary.halted = false ∧ requested.boundary.flag.e = true ∧
    requested.boundary.irq.get .timer1 = true ∧
    (∀ v', requested.boundary.irq.get v' = true → (Irq.vector .timer1).toNat ≤ v'.vector.toNat) ∧
    (requested.boundary.get .ssp).getLsbD 0 = false :=
  ⟨rfl, rfl, rfl, by intro v'; cases v' <;> decide, rfl⟩

theorem witness_StepAcceptsInterrupt_stuck :
    (State.get { requested with regs := { requested.regs with ssp := 0x1001 } } .ssp).getLsbD 0 = true := rfl

theorem witness_StepTakesFetchExceptions_odd : State.boundary { start [] with pc := 0x0101 } = { start [] with pc := 0x0101 } ∧
    NoInterrupt { start [] with pc := 0x0101 } ∧ (0x0101#16).getLsbD 0 = true := ⟨rfl, Or.inl rfl, rfl⟩

/-- PC at the limit itself. -/
def atLimit : State := { mapped [] with pc := 0x0102 }

theorem witness_StepTakesFetchExceptions_mmu : atLimit.boundary.halted = false ∧ NoInterrupt atLimit.boundary ∧
    atLimit.boundary.pc.getLsbD 0 = false ∧ atLimit.boundary.flag.p = false ∧ atLimit.boundary.io.mmu.enable = true ∧
    atLimit.boundary.io.mmu.limit.toNat ≤ atLimit.boundary.pc.toNat := ⟨rfl, Or.inl rfl, rfl, rfl, rfl, by decide⟩

/-- A blank OP byte at PC. -/
def blankWord : State := start [(0x0100, 0x12), (0x0101, 0xFF)]

theorem witness_StepTakesFetchExceptions_undefined : blankWord.boundary.halted = false ∧ NoInterrupt blankWord.boundary ∧
    blankWord.boundary.fetch16 = .ok (0x12FF, { blankWord with pc := 0x0102 }) ∧ isBlankOp (opByte 0x12FF) = true :=
  ⟨rfl, Or.inl rfl, rfl, rfl⟩

/-- The last word below the limit announces a second one. -/
def cutOff : State := mapped [(0x4100, 0x0A), (0x4101, 0x10)]

theorem witness_StepTakesFetchExceptions_second : cutOff.boundary.halted = false ∧ NoInterrupt cutOff.boundary ∧
    cutOff.boundary.fetch16 = .ok (0x0A10, { cutOff with pc := 0x0102 }) ∧
    decodeFirst 0x0A10 = .ok (fun w2 => .ld .g1 (.imm w2)) ∧ hasSecondWord 0x0A10 = true ∧
    State.fetch16 { cutOff with pc := 0x0102 } = .error (.raise .memoryProtection) :=
  ⟨rfl, Or.inl rfl, rfl, rfl, rfl, rfl⟩

theorem witness_StepStops_halted : State.halted (State.boundary { start [] with halted := true }) = true := rfl

theorem witness_StepStops_mbz : (start [(0x0100, 0xFF), (0x0101, 0xFF)]).fetch16 =
      .ok (0xFFFF, { start [(0x0100, 0xFF), (0x0101, 0xFF)] with pc := 0x0102 }) ∧
    decodeFirst 0xFFFF = .error .mbzField := ⟨rfl, rfl⟩

theorem witness_StepStops_condD : (start [(0x0100, 0xA0), (0x0101, 0xD0)]).fetch16 =
      .ok (0xA0D0, { start [(0x0100, 0xA0), (0x0101, 0xD0)] with pc := 0x0102 }) ∧
    decodeFirst 0xA0D0 = .error .condD := ⟨rfl, rfl⟩

theorem witness_StepStops_pcOperand : (start [(0x0100, 0x0C), (0x0101, 0xF0)]).fetch16 =
      .ok (0x0CF0, { start [(0x0100, 0x0C), (0x0101, 0xF0)] with pc := 0x0102 }) ∧
    decodeFirst 0x0CF0 = .error .pcOperand := ⟨rfl, rfl⟩

theorem witness_StepStops_oddPair : (start [(0x0100, 0x6C), (0x0101, 0xE0)]).fetch16 =
      .ok (0x6CE0, { start [(0x0100, 0x6C), (0x0101, 0xE0)] with pc := 0x0102 }) ∧
    decodeFirst 0x6CE0 = .error .oddPairRegister := ⟨rfl, rfl⟩

/-- PC at the last word of the ROM, of which no image was placed. -/
def inUnknownRom : State := { start [] with pc := 0xFFDE }

theorem witness_StepStops_rom : inUnknownRom.boundary.halted = false ∧ NoInterrupt inUnknownRom.boundary ∧
    FetchesUnknownRom inUnknownRom.boundary :=
  ⟨rfl, Or.inl rfl, 0xFFDE, rfl, Or.inl ⟨by decide, by decide, rfl⟩⟩

/-- Only the second byte of the word is unknown. -/
theorem witness_StepStops_rom_second_byte :
    FetchesUnknownRom { start [(0xFFDE, 0x00)] with pc := 0xFFDE } :=
  ⟨0xFFDE, rfl, Or.inr ⟨by decide, by decide, rfl⟩⟩

/-- User mode with the MMU on: logical 0100h is F000h. -/
def mappedRom : State :=
  { mapped [] with io := { State.reset.io with mmu := { enable := true, base := 0xEF00, limit := 0x0102 } } }

theorem witness_StepStops_rom_user : FetchesUnknownRom { user [] with pc := 0xF000 } ∧ FetchesUnknownRom mappedRom :=
  ⟨⟨0xF000, rfl, Or.inl ⟨by decide, by decide, rfl⟩⟩, ⟨0xF000, rfl, Or.inl ⟨by decide, by decide, rfl⟩⟩⟩

/-- The last word of the RAM announces a second one. -/
def runsIntoRom : State := { start [(0xEFFE, 0x0A), (0xEFFF, 0x10)] with pc := 0xEFFE }

theorem witness_StepStops_rom_second_word : runsIntoRom.boundary.halted = false ∧ NoInterrupt runsIntoRom.boundary ∧
    runsIntoRom.boundary.fetch16 = .ok (0x0A10, { runsIntoRom with pc := 0xF000 }) ∧
    decodeFirst 0x0A10 = .ok (fun w2 => .ld .g1 (.imm w2)) ∧ hasSecondWord 0x0A10 = true ∧
    FetchesUnknownRom { runsIntoRom with pc := 0xF000 } :=
  ⟨rfl, Or.inl rfl, rfl, rfl, rfl, 0xF000, rfl, Or.inl ⟨by decide, by decide, rfl⟩⟩

theorem witness_StepKeepsMemoryCanonical : oneWord.Inv ∧ ∃ t, step oneWord = .next t := ⟨rfl, _, rfl⟩

/-- ST G0,F000h: a store into the ROM. -/
def storesRom : State := start [(0x0100, 0x10), (0x0101, 0x00), (0x0102, 0xF0), (0x0103, 0x00)]

theorem witness_StepNeverChangesRom : (∃ t, step storesRom = .next t) ∧ 0xF000 ≤ 0xFFDF ∧ 0xFFDF ≤ 0xFFDF :=
  ⟨⟨_, rfl⟩, by decide, by decide⟩

/-- SVC in user mode. -/
def callsSystem : State := user [(0x0100, 0xF0), (0x0101, 0x00), (0xFFFE, 0x05), (0xFFFF, 0x00)]

theorem witness_PrivilegeTransitions_rise : callsSystem.oracle = [] ∧ callsSystem.flag.p = false ∧
    ∃ t, step callsSystem = .next t ∧ t.flag.p = true := ⟨rfl, rfl, _, rfl, rfl⟩

/-- RETI with a frame whose FLAG word has P = 0. -/
def returnsToUser : State :=
  start [(0x0100, 0xD4), (0x0101, 0x00), (0x1000, 0x00), (0x1001, 0x80), (0x1002, 0x02), (0x1003, 0x00)]

theorem witness_PrivilegeTransitions_fall : returnsToUser.oracle = [] ∧ returnsToUser.flag.p = true ∧
    ∃ t, step returnsToUser = .next t ∧ t.flag.p = false := ⟨rfl, rfl, _, rfl, rfl⟩

/-- ST G0,0,G3 in user mode, at the start of the window. -/
def userStores : State := mapped [(0x4100, 0x16), (0x4101, 0x03)]

theorem witness_UserModeProtects : userStores.oracle = [] ∧ userStores.flag.p = false ∧
    ∃ t, step userStores = .next t ∧ t.flag.p = false := ⟨rfl, rfl, _, rfl, rfl⟩

theorem witness_MmuConfinesUserStores : userStores.io.mmu.enable = true ∧ userStores.io.mmu.limit.getLsbD 0 = false ∧
    (∀ k : Nat, k < userStores.io.mmu.limit.toNat → 0x4102 ≠ (userStores.io.mmu.base.toNat + k) % 65536) := by
  refine ⟨rfl, rfl, ?_⟩
  intro k hk
  have h1 : userStores.io.mmu.limit.toNat = 0x0102 := rfl
  have h2 : userStores.io.mmu.base.toNat = 0x4000 := rfl
  omega

theorem witness_InstructionsKeepDevices : exec .no (start []) = .next (start []) ∧ Instr.no ≠ .halt ∧
    ∀ rd ea, Instr.no ≠ .out rd ea := ⟨rfl, by decide, by intro rd ea; simp⟩

/-- A request is scheduled for the next boundary, of a device whose enable bit is 1. -/
def scheduled : State :=
  { start [] with io := { State.reset.io with tec := { Serial.reset with rxIntEnable := true } }
                  oracle := [[.request .tecTx, .request .tecRx]] }

theorem witness_InstructionsKeepDevices_request : scheduled.oracle = [.request .tecTx, .request .tecRx] :: [] ∧
    DeviceMove.request .tecRx ∈ [DeviceMove.request .tecTx, .request .tecRx] ∧ scheduled.io.mayRequest .tecRx = true ∧
    scheduled.boundary.irq.get .tecRx = true ∧ scheduled.boundary.irq.get .tecTx = false := by decide

theorem witness_StackPointerBanking : (start []).flag.p = true ∧ (user []).flag.p = false := ⟨rfl, rfl⟩

theorem witness_WordStoreReadsBack : writable (0xEFFE#16).toNat = true ∧ writable (0xEFFE#16 + 1).toNat = true ∧
    inRom (0xF000#16).toNat = true ∧ inRom (0xF000#16 + 1).toNat = true := by decide

theorem witness_MemoryAccessChecks : (0x0101#16).getLsbD 0 = true ∧ (mapped []).flag.p = false ∧
    (mapped []).io.mmu.enable = true ∧ (mapped []).io.mmu.limit.toNat ≤ (0x0102#16).toNat ∧
    (0x0100#16).toNat < (mapped []).io.mmu.limit.toNat ∧ (0x0100#16).getLsbD 0 = false ∧ (start []).flag.p = true ∧
    (user []).io.mmu.enable = false := by decide

theorem witness_OperandForms : (start [(0x2000, 0xFF)]).read8 ((start [(0x2000, 0xFF)]).readReg .g2) = .ok 0xFF ∧
    (mapped []).read8 ((mapped []).readReg .g2) = .error (.raise .memoryProtection) := ⟨rfl, rfl⟩

theorem witness_TakingAnException : ((start []).get .ssp).getLsbD 0 = false ∧
    (State.get { start [] with regs := { (start []).regs with ssp := 0x1001 } } .ssp).getLsbD 0 = true := ⟨rfl, rfl⟩

/-- Through the first vector of the table and the last, of an exception and of an interrupt. -/
theorem witness_RetiUndoesTrapEntry :
    (∀ k : Nat, k < 4 → writable ((start []).get .ssp - 4 + BitVec.ofNat 16 k).toNat = true) ∧
    (∃ t, trapEntry 0xFFE0 0x0101 (start []) = .next t) ∧ (∃ t, trapEntry 0xFFFE 0x0102 (start []) = .next t) ∧
    (∃ t, takeException .zeroDivide (start []) = .next t) ∧ ∃ t, acceptInterrupt .timer0 (start []) = .next t :=
  ⟨by decide, ⟨_, rfl⟩, ⟨_, rfl⟩, ⟨_, rfl⟩, ⟨_, rfl⟩⟩

theorem witness_OperandFaultIsTaken : Instr.divl ∈ sourceInstrs ∧ Instr.wf (.divl .fp (.direct 0x0001)) = true ∧
    operand (start []) (.direct 0x0001) = .error (.raise .oddAddress) :=
  ⟨by simp [sourceInstrs], rfl, rfl⟩

theorem witness_StoreAndStackFaultsAreTaken_store :
    (start []).wordAddr (dstAddr (start []) (.direct 0x0001)) = .error (.raise .oddAddress) ∧
    (mapped []).translate (dstAddr (mapped []) (.byteIndirect .g2)) = .error (.raise .memoryProtection) := ⟨rfl, rfl⟩

/-- The system stack pointer is odd. -/
def oddStack : State := { start [] with regs := { (start []).regs with ssp := 0x1001 } }

theorem witness_StoreAndStackFaultsAreTaken_stack :
    oddStack.wordAddr (oddStack.readReg .sp - 2) = .error (.raise .oddAddress) ∧
    oddStack.wordAddr (oddStack.readReg .sp) = .error (.raise .oddAddress) ∧
    Reg.bank oddStack.flag.p .g0 ≠ Reg.bank oddStack.flag.p .sp ∧ oddStack.flag.p = true :=
  ⟨rfl, rfl, by decide, rfl⟩

/-- The user stack pointer is beyond the limit: the frame of the exception can be pushed on SSP. -/
theorem witness_StoreAndStackFaultsAreTaken_mmu :
    (mapped []).wordAddr ((mapped []).readReg .sp - 2) = .error (.raise .memoryProtection) ∧
    (mapped []).wordAddr ((mapped []).readReg .sp) = .error (.raise .memoryProtection) ∧
    Reg.bank (mapped []).flag.p .g0 ≠ Reg.bank (mapped []).flag.p .sp := ⟨rfl, rfl, by decide⟩

theorem witness_ZeroDivideIsTaken : operand (start []) (.reg .g3) = .ok 0 ∧ Reg.headsPair .g4 = true := ⟨rfl, rfl⟩

theorem witness_PrivilegedTrapInUserMode : (user []).flag.p = false := rfl

theorem witness_SvcEntersItsHandler : ((user []).get .ssp).getLsbD 0 = false := rfl

theorem witness_RefusedForms : Reg.bank (start []).flag.p .sp = Reg.bank (start []).flag.p .sp ∧
    Reg.bank (user []).flag.p .usp = Reg.bank (user []).flag.p .sp ∧ (user []).flag.p = false ∧
    Reg.headsPair .g1 = false ∧ Reg.headsPair .usp = false ∧ (start []).flag.p = true ∧
    0xFF < (portAddr (start []) (.direct 0x0100)).toNat ∧
    portAddr (start []) (.direct 0x0001) = (0x01#8).zeroExtend 16 ∧ ioDefined (.direct 0x0001) 0x01 = false ∧
    portAddr (start []) (.byteIndirect .g3) = (0x00#8).zeroExtend 16 ∧ ioDefined (.byteIndirect .g3) 0x00 = false := by
  decide

theorem witness_NoDoesNothing : opByte 0x0001 = 0 ∧ (0x0001#16 : Word) ≠ 0 := by decide

theorem witness_LoadWritesOperand : operand (start [(0x2000, 0x12), (0x2001, 0x34)]) (.indirect .g2) = .ok 0x1234 := rfl

theorem witness_StoreWritesMemory : dstIsByte (.indirect .g2) = false ∧
    (start []).wordAddr (dstAddr (start []) (.indirect .g2)) = .ok 0x2000 ∧ dstIsByte (.byteIndirect .g1) = true ∧
    (start []).translate (dstAddr (start []) (.byteIndirect .g1)) = .ok 0x0001 := ⟨rfl, rfl, rfl, rfl⟩

theorem witness_AddResult : operand (start []) (.imm4 1) = .ok 1 := rfl

theorem witness_SubtractAndCompare : operand (start []) (.imm4 0xF) = .ok 0xFFFF := rfl

theorem witness_LogicalResults : operand (start []) (.imm 0x00FF) = .ok 0x00FF := rfl

theorem witness_AddScaledResult : operand (start []) (.imm 0x8001) = .ok 0x8001 := rfl

theorem witness_MultiplyResult : operand (start []) (.imm 0xFFFF) = .ok 0xFFFF := rfl

theorem witness_DivideAndModulo : operand (start []) (.reg .g5) = .ok 7 ∧ (7#16 : Word) ≠ 0 := ⟨rfl, by decide⟩

theorem witness_MultiplyLongResult : Reg.pairHigh .fp = some .sp ∧ operand (start []) (.imm 0x0100) = .ok 0x0100 :=
  ⟨rfl, rfl⟩

/-- The largest quotient that fits: 65535 = (0001h : FFFEh) / 2, and the smallest that does not. -/
theorem witness_DivideLongResult : Reg.pairHigh .g0 = some .g1 ∧ operand (start []) (.imm 2) = .ok 2 ∧ (2#16 : Word) ≠ 0 ∧
    ((State.readReg { start [] with regs := { (start []).regs with g0 := 0xFFFE } } .g1).toNat * 65536 +
      (State.readReg { start [] with regs := { (start []).regs with g0 := 0xFFFE } } .g0).toNat) / (2#16).toNat = 65535 :=
  ⟨rfl, rfl, by decide, by decide⟩

theorem witness_DivideLongOverflow : Reg.pairHigh .g2 = some .g3 ∧ operand (start []) (.imm4 1) = .ok 1 ∧ (1#16 : Word) ≠ 0 ∧
    65536 ≤ ((State.readReg { start [] with regs := { (start []).regs with g2 := 0, g3 := 1 } } .g3).toNat * 65536 +
      (State.readReg { start [] with regs := { (start []).regs with g2 := 0, g3 := 1 } } .g2).toNat) / (1#16).toNat :=
  ⟨rfl, rfl, by decide, by decide⟩

theorem witness_DivideLongUndoesMultiplyLong : Reg.pairHigh .g2 = some .g3 ∧ operand (start []) (.imm 0x0100) = .ok 0x0100 ∧
    (0x0100#16 : Word) ≠ 0 ∧ ∃ t, exec (.mull .g2 (.imm 0x0100)) (start []) = .next t ∧
      operand t (.imm 0x0100) = .ok 0x0100 := ⟨rfl, rfl, by decide, _, rfl, rfl⟩

theorem witness_ShiftLeftResults : operand (start []) (.imm 16) = .ok 16 := rfl

theorem witness_ShiftRightResults : operand (start []) (.imm 15) = .ok 15 := rfl

theorem witness_CompareThenJump : operand (start []) (.reg .g1) = .ok 1 := rfl

theorem witness_CallPushesAndJumps : (start []).wordAddr ((start []).readReg .sp - 2) = .ok 0x0FFE := rfl

theorem witness_RetPopsPc : (start [(0x1000, 0x01), (0x1001, 0x04)]).read16 ((start []).readReg .sp) = .ok 0x0104 ∧
    oddStack.read16 (oddStack.readReg .sp) = .error (.raise .oddAddress) := ⟨rfl, rfl⟩

/-- USP is not the active stack pointer in privileged mode, SP is. -/
theorem witness_PushAndPop : Reg.bank (start []).flag.p .usp ≠ Reg.bank (start []).flag.p .sp ∧
    (start []).wordAddr ((start []).readReg .sp - 2) = .ok 0x0FFE ∧
    (start [(0x1000, 0xBE), (0x1001, 0xEF)]).read16 ((start []).readReg .sp) = .ok 0xBEEF := ⟨by decide, rfl, rfl⟩

theorem witness_RetUndoesCall : (start []).wordAddr ((start []).readReg .sp - 2) = .ok 0x0FFE ∧
    writable (0x0FFE#16).toNat = true ∧ writable (0x0FFE#16 + 1).toNat = true := ⟨rfl, rfl, rfl⟩

theorem witness_RetiPopsFlagAndPc : (start []).flag.p = true ∧ ((start []).get .ssp).getLsbD 0 = false := ⟨rfl, rfl⟩

theorem witness_EiDiHalt : (start []).flag.p = true := rfl

theorem witness_InReadsPort : (start []).flag.p = true ∧
    portAddr (start []) (.direct 0x00FE) = (0xFE#8).zeroExtend 16 ∧ ioDefined (.direct 0x00FE) 0xFE = true ∧
    portAddr (start []) (.direct 0x001A) = (0x1A#8).zeroExtend 16 ∧ ioDefined (.direct 0x001A) 0x1A = true ∧
    (start []).io.present (portOf 0x1A) = none ∧
    portAddr (start []) (.byteIndirect .g4) = (0x64#8).zeroExtend 16 ∧ ioDefined (.byteIndirect .g4) 0x64 = true := by
  decide

theorem witness_OutWritesPort : (start []).flag.p = true ∧ portAddr (start []) (.direct 0x00F4) = (0xF4#8).zeroExtend 16 ∧
    ioDefined (.direct 0x00F4) 0xF4 = true := by decide

/-- An input-only row, a free row and the last address; none of them is a row with a clause of its own. -/
theorem witness_PortsOut : 0x1E ≤ (0x27#8).toNat ∧ (0x27#8).toNat ≤ 0x27 ∧ 0x2E ≤ (0x2E#8).toNat ∧
    (0x2E#8).toNat ≤ 0xEF ∧ 0xFA ≤ (0xFF#8).toNat := by decide

theorem witness_PortsIn : 0x2E ≤ (0xEF#8).toNat ∧ (0xEF#8).toNat ≤ 0xEF ∧ 0xF2 ≤ (0xF7#8).toNat ∧
    (0xF7#8).toNat ≤ 0xF7 := by decide

end Sys2Proof.Tests
end

section
/-! PROOF of the registers' numbers and the banking of the stack pointer (R11 to R13). -/

namespace Sys2Proof.Machine

/-! ### Numbers 0h to Ch -/

/-- The registers of the numbers 0h to Ch, in the order of R11's table. -/
def regsBelowSp : List Reg := [.g0, .g1, .g2, .g3, .g4, .g5, .g6, .g7, .g8, .g9, .g10, .g11, .fp]

theorem Reg.ofField_eq_regsBelowSp : ∀ k : Nat, k < 13 → Reg.ofField (BitVec.ofNat 4 k) = regsBelowSp[k]? := by
  decide

/-- What a function gives for the register of number `k` stands at place `k` of what it gives for R11's table. -/
theorem Reg.map_ofField_eq_getElem? {α : Type} (f : Reg → α) {k : Nat} (hk : k < 13) :
    (Reg.ofField (BitVec.ofNat 4 k)).map f = (regsBelowSp.map f)[k]? := by
  rw [Reg.ofField_eq_regsBelowSp k hk, List.getElem?_map]

/-! ### Numbers Dh and Eh -/

theorem State.readReg_sp (s : State) : s.readReg .sp = if s.flag.p then s.get .ssp else s.get .usp := by
  cases h : s.flag.p <;> simp [State.readReg, Reg.bank, h]

theorem State.writeReg_sp_privileged {s : State} (h : s.flag.p = true) (v : Word) :
    s.writeReg .sp v = { s with regs := { s.regs with ssp := v } } := by
  simp [State.writeReg, Reg.bank, h, State.set, Regs.set]

theorem State.writeReg_sp_user {s : State} (h : s.flag.p = false) (v : Word) :
    s.writeReg .sp v = { s with regs := { s.regs with usp := v } } := by
  simp [State.writeReg, Reg.bank, h, State.set, Regs.set]

/-- With P = 0 no field names SSP (R13). -/
theorem Reg.bank_user_ne_ssp (r : Reg) : Reg.bank false r ≠ .ssp := by
  cases r <;> decide

/-! ### FP as a base -/

/-- FP is the base of the FP relative mode: without a displacement the address is its content (R12, R79). -/
theorem dstAddr_fpRel_zero (s : State) : dstAddr s (.fpRel 0) = s.regs.fp := by
  have hfp : s.readReg .fp = s.regs.fp := rfl
  simp [dstAddr, eaFpRel, sext16, hfp]

/-- Settles O18: the numbers 0h to Ch by R11's table read through one map lemma, Dh by the two cases of P. -/
theorem stackPointerBanking : Obligations.StackPointerBanking := by
  intro s v
  have hbank (p : Bool) (k : Nat) (hk : k < 13) := Reg.map_ofField_eq_getElem? (Reg.bank p) hk
  have hread (k : Nat) (hk : k < 13) := Reg.map_ofField_eq_getElem? s.readReg hk
  have hwrite (k : Nat) (hk : k < 13) := Reg.map_ofField_eq_getElem? (fun r => (s.writeReg r v).regs) hk
  have hssp (hp : s.flag.p = false) (r : Reg) : Reg.bank s.flag.p r ≠ .ssp := hp ▸ Reg.bank_user_ne_ssp r
  exact ⟨rfl, rfl, s.readReg_sp, fun hp => State.writeReg_sp_privileged hp v, fun hp => State.writeReg_sp_user hp v,
    rfl, rfl, fun hp _ => State.writeReg_ssp_user hp, hssp, rfl, rfl, Reg.ofField_toField, fun _ => ⟨rfl, rfl⟩,
    hbank, hread, hwrite, fun r => ⟨rfl, s.readReg_writeReg_same r v⟩, dstAddr_fpRel_zero s⟩

end Sys2Proof.Machine
end

section
/-! PROOF of the fifteen jumps: what each does and how it is encoded (R76, R140 to R155). -/

namespace Sys2Proof

/-! ### The first word of a jump -/

@[simp] theorem opByte_packWord (op : BitVec 5) (m : BitVec 3) (rd rx : BitVec 4) :
    opByte (packWord op m rd rx) = op ++ m := by
  apply BitVec.eq_of_toNat_eq
  rw [opByte_toNat, opField_packWord, modeField_packWord, BitVec.toNat_append,
    ← Nat.shiftLeft_add_eq_or_of_lt m.isLt, Nat.shiftLeft_eq]

/-- In each of the three forms the first word holds the condition code and an OP byte of the jump group (R76). -/
theorem encodeTarget_jump_first (cc : BitVec 4) (ea : Target) :
    ∃ w, (encodeTarget 20 cc ea).head? = some w ∧ rdField w = cc ∧ opByte w ∈ [0xA0#8, 0xA1#8, 0xA6#8] := by
  cases ea with
  | direct dsp => exact ⟨packWord 20 0 cc 0, rfl, by simp, by simp⟩
  | indexed dsp rx => exact ⟨packWord 20 1 cc rx.toField, rfl, by simp, by simp⟩
  | indirect rx => exact ⟨packWord 20 6 cc rx.toField, rfl, by simp, by simp⟩

namespace Machine

/-! ### The shape of every jump -/

/-- A jump is known by its condition and its condition code (R140). -/
theorem jumpsWhen_of_jumpIf {i : Instr} {cc : BitVec 4} {taken : Bool} {ea : Target} {s : State}
    (hexec : exec i s = jumpIf taken ea s) (hcode : encode i = encodeTarget 20 cc ea) :
    JumpsWhen i cc taken ea s :=
  ⟨hexec, hcode ▸ encodeTarget_jump_first cc ea⟩

/-! ### The conditions on several flags, and JMP -/

theorem Flags.less_eq_xor (f : Flags) : f.less = (f.s ^^ f.v) := rfl

theorem Flags.greater_eq_not_or_xor (f : Flags) : f.greater = !(f.z || (f.s ^^ f.v)) := by
  rw [Flags.greater, Flags.less_eq_xor]

theorem exec_jgt (ea : Target) (s : State) :
    exec (.jgt ea) s = jumpIf (!(s.flag.z || (s.flag.s ^^ s.flag.v))) ea s := by
  rw [← Flags.greater_eq_not_or_xor]; rfl

theorem exec_jge (ea : Target) (s : State) : exec (.jge ea) s = jumpIf (!(s.flag.s ^^ s.flag.v)) ea s := by
  rw [← Flags.less_eq_xor]; rfl

theorem exec_jle (ea : Target) (s : State) :
    exec (.jle ea) s = jumpIf (s.flag.z || (s.flag.s ^^ s.flag.v)) ea s := by
  rw [← Flags.less_eq_xor]; rfl

theorem exec_jlt (ea : Target) (s : State) : exec (.jlt ea) s = jumpIf (s.flag.s ^^ s.flag.v) ea s := by
  rw [← Flags.less_eq_xor]; rfl

theorem exec_jhi (ea : Target) (s : State) : exec (.jhi ea) s = jumpIf (!(s.flag.z || s.flag.c)) ea s := rfl

theorem exec_jls (ea : Target) (s : State) : exec (.jls ea) s = jumpIf (s.flag.z || s.flag.c) ea s := rfl

theorem exec_jmp (ea : Target) (s : State) : exec (.jmp ea) s = jumpIf true ea s := rfl

/-- Settles O48: every arm is `jumpIf` on its one flag or the flag's negation, and every code is `encodeTarget`. -/
theorem flagJumps : Obligations.FlagJumps := by
  intro ea s
  refine ⟨?_, ?_, ?_, ?_, ?_, ?_, ?_, ?_⟩ <;> exact jumpsWhen_of_jumpIf rfl rfl

/-- Settles O49, by the conditions spelled out on Z, C and S xor V. -/
theorem combinedJumps : Obligations.CombinedJumps := by
  intro ea s
  exact ⟨jumpsWhen_of_jumpIf (exec_jgt ea s) rfl, jumpsWhen_of_jumpIf (exec_jge ea s) rfl,
    jumpsWhen_of_jumpIf (exec_jle ea s) rfl, jumpsWhen_of_jumpIf (exec_jlt ea s) rfl,
    jumpsWhen_of_jumpIf (exec_jhi ea s) rfl, jumpsWhen_of_jumpIf (exec_jls ea s) rfl,
    jumpsWhen_of_jumpIf (exec_jmp ea s) rfl⟩

end Machine

end Sys2Proof
end

section
/-! PROOF of the encoding: the decoder and the encoder are each other's inverse, and which words are no instruction
(spec/30_encoding.md). -/

namespace Sys2Proof

/-! ### Parts of the decoder in sequence -/

theorem decode_bind_eq_ok {α β : Type} {x : Except DecodeStop α} {f : α → Except DecodeStop β} {b : β} :
    (x >>= f) = .ok b ↔ ∃ a, x = .ok a ∧ f a = .ok b := by
  cases x <;> simp [bind, Except.bind]

@[simp] theorem decode_ok_bind {α β : Type} (a : α) (f : α → Except DecodeStop β) :
    (Except.ok a >>= f) = f a := rfl

@[simp] theorem decode_error_bind {α β : Type} (r : DecodeStop) (f : α → Except DecodeStop β) :
    ((Except.error r : Except DecodeStop α) >>= f) = .error r := rfl

theorem zeroField_eq_ok {f : BitVec 4} {u : Unit} : zeroField f = .ok u ↔ f = 0 := zeroField_ok

/-- The modes by what the Rx field of a source operand holds: zero, a constant, a register (R72, R73). -/
theorem mode_cases (m : BitVec 3) :
    (m = 0 ∨ m = 2) ∨ (m = 3 ∨ m = 5) ∨ (m = 1 ∨ m = 4 ∨ m = 6 ∨ m = 7) := by
  revert m; decide

/-! ### The words a first word announces (R72) -/

/-- A first word, and the second word where its format has one (R72). -/
def instrWords (w1 w2 : Word) : List Word :=
  if hasSecondWord w1 then [w1, w2] else [w1]

theorem instrWords_length (w1 w2 : Word) : (instrWords w1 w2).length = if hasSecondWord w1 then 2 else 1 := by
  unfold instrWords; split <;> rfl

theorem instrWords_head? (w1 w2 : Word) : (instrWords w1 w2).head? = some w1 := by
  unfold instrWords; split <;> rfl

/-- `mk` builds well-formed instructions, encoded by the first word of these fields (R70). -/
def BuildsEncoded (op : BitVec 5) (m : BitVec 3) (rd rx : BitVec 4) (mk : Word → Instr) : Prop :=
  ∀ w2, (mk w2).wf = true ∧ encode (mk w2) = instrWords (packWord op m rd rx) w2

/-! ### The operand forms, decoded and encoded again -/

section
variable {op : BitVec 5} (hop : 1 ≤ op.toNat ∧ op.toNat ≤ 23) {m : BitVec 3} {rx : BitVec 4}
include hop

theorem encodeSrc_srcForm {src : Word → Src} (h : srcForm m rx = .ok src) (d : Reg) (w2 : Word) :
    encodeSrc op d (src w2) = instrWords (packWord op m d.toField rx) w2 := by
  rcases mode_cases m with hzero | hconst | hreg
  · rcases hzero with rfl | rfl <;> simp [srcForm, decode_bind_eq_ok, zeroField_eq_ok] at h <;>
      obtain ⟨rfl, rfl⟩ := h <;> simp [encodeSrc, instrWords, hop]
  · rcases hconst with rfl | rfl <;> simp [srcForm] at h <;> subst h <;> simp [encodeSrc, instrWords]
  · rcases hreg with rfl | rfl | rfl | rfl <;> simp [srcForm, decode_bind_eq_ok, regField_ok] at h <;>
      obtain ⟨x, rfl, rfl⟩ := h <;> simp [encodeSrc, instrWords, hop]

theorem encodeDst_dstForm {dst : Word → Dst} (h : dstForm m rx = .ok dst) (d : Reg) (w2 : Word) :
    encodeDst op d (dst w2) = instrWords (packWord op m d.toField rx) w2 := by
  rcases mode_cases m with hzero | hconst | hreg
  · rcases hzero with rfl | rfl <;> simp [dstForm, decode_bind_eq_ok, zeroField_eq_ok] at h
    obtain ⟨rfl, rfl⟩ := h
    simp [encodeDst, instrWords, hop]
  · rcases hconst with rfl | rfl <;> simp [dstForm] at h
    subst h
    simp [encodeDst, instrWords]
  · rcases hreg with rfl | rfl | rfl | rfl <;> simp [dstForm, decode_bind_eq_ok, regField_ok] at h <;>
      obtain ⟨x, rfl, rfl⟩ := h <;> simp [encodeDst, instrWords, hop]

theorem encodePort_portForm {port : Word → Port} (h : portForm m rx = .ok port) (d : Reg) (w2 : Word) :
    encodePort op d (port w2) = instrWords (packWord op m d.toField rx) w2 := by
  rcases mode_cases m with hzero | hconst | hreg
  · rcases hzero with rfl | rfl <;> simp [portForm, decode_bind_eq_ok, zeroField_eq_ok] at h
    obtain ⟨rfl, rfl⟩ := h
    simp [encodePort, instrWords, hop]
  · rcases hconst with rfl | rfl <;> simp [portForm] at h
  · rcases hreg with rfl | rfl | rfl | rfl <;> simp [portForm, decode_bind_eq_ok, regField_ok] at h <;>
      obtain ⟨x, rfl, rfl⟩ := h <;> simp [encodePort, instrWords]

theorem encodeTarget_targetForm {target : Word → Target} (hz : targetZero m rx = .ok ())
    (h : targetForm m rx = .ok target) (cc : BitVec 4) (w2 : Word) :
    encodeTarget op cc (target w2) = instrWords (packWord op m cc rx) w2 := by
  rcases mode_cases m with hzero | hconst | hreg
  · rcases hzero with rfl | rfl <;> simp [targetForm, targetZero, zeroField_ok] at h hz
    subst h hz
    simp [encodeTarget, instrWords, hop]
  · rcases hconst with rfl | rfl <;> simp [targetForm] at h
  · rcases hreg with rfl | rfl | rfl | rfl <;> simp [targetForm, decode_bind_eq_ok, regField_ok] at h <;>
      obtain ⟨x, rfl, rfl⟩ := h <;> simp [encodeTarget, instrWords, hop]

/-! ### The groups of the OP map -/

theorem srcGroup_buildsEncoded {mk : Reg → Src → Instr} {rd : BitVec 4} {f : Word → Instr}
    (henc : ∀ d ea, encode (mk d ea) = encodeSrc op d ea) (hwf : ∀ d ea, (mk d ea).wf = true)
    (h : srcGroup mk m rd rx = .ok f) : BuildsEncoded op m rd rx f := by
  simp only [srcGroup, decode_bind_eq_ok, regField_ok, Except.ok.injEq] at h
  obtain ⟨src, hsrc, d, rfl, rfl⟩ := h
  exact fun w2 => ⟨hwf _ _, by rw [henc, encodeSrc_srcForm hop hsrc]⟩

theorem pairGroup_buildsEncoded {mk : Reg → Src → Instr} {rd : BitVec 4} {f : Word → Instr}
    (henc : ∀ d ea, encode (mk d ea) = encodeSrc op d ea) (hwf : ∀ d ea, (mk d ea).wf = d.headsPair)
    (h : pairGroup mk m rd rx = .ok f) : BuildsEncoded op m rd rx f := by
  simp only [pairGroup, decode_bind_eq_ok, regField_ok] at h
  obtain ⟨src, hsrc, d, rfl, h⟩ := h
  split at h
  · rename_i hpair
    simp only [Except.ok.injEq] at h
    subst h
    exact fun w2 => ⟨(hwf _ _).trans hpair, by rw [henc, encodeSrc_srcForm hop hsrc]⟩
  · cases h

theorem portGroup_buildsEncoded {mk : Reg → Port → Instr} {rd : BitVec 4} {f : Word → Instr}
    (henc : ∀ d ea, encode (mk d ea) = encodePort op d ea) (hwf : ∀ d ea, (mk d ea).wf = true)
    (h : portGroup mk m rd rx = .ok f) : BuildsEncoded op m rd rx f := by
  simp only [portGroup, decode_bind_eq_ok, regField_ok, Except.ok.injEq] at h
  obtain ⟨port, hport, d, rfl, rfl⟩ := h
  exact fun w2 => ⟨hwf _ _, by rw [henc, encodePort_portForm hop hport]⟩

end

theorem regGroup_ok {mk : Reg → Instr} {rd rx : BitVec 4} {f : Word → Instr} (h : regGroup mk rd rx = .ok f) :
    rx = 0 ∧ ∃ d : Reg, rd = d.toField ∧ f = fun _ => mk d := by
  simp only [regGroup, decode_bind_eq_ok, regField_ok, zeroField_eq_ok, Except.ok.injEq] at h
  obtain ⟨_, hrx, d, hd, hf⟩ := h
  exact ⟨hrx, d, hd, hf.symm⟩

theorem noGroup_ok {i : Instr} {rd rx : BitVec 4} {f : Word → Instr} (h : noGroup i rd rx = .ok f) :
    rd = 0 ∧ rx = 0 ∧ f = fun _ => i := by
  simp only [noGroup, decode_bind_eq_ok, zeroField_eq_ok, Except.ok.injEq] at h
  obtain ⟨_, hrd, _, hrx, hf⟩ := h
  exact ⟨hrd, hrx, hf.symm⟩

/-- An operation of one word without operand forms: its encoding is the packed word itself. -/
theorem regGroup_buildsEncoded {op : BitVec 5} {m : BitVec 3} {mk : Reg → Instr} {rd rx : BitVec 4} {f : Word → Instr}
    (hone : hasSecondWord (packWord op m rd rx) = false)
    (henc : ∀ d, encode (mk d) = [packWord op m d.toField 0]) (hwf : ∀ d, (mk d).wf = true)
    (h : regGroup mk rd rx = .ok f) : BuildsEncoded op m rd rx f := by
  obtain ⟨rfl, d, rfl, rfl⟩ := regGroup_ok h
  exact fun w2 => ⟨hwf d, by simp only [henc, instrWords, hone]; rfl⟩

theorem noGroup_buildsEncoded {op : BitVec 5} {m : BitVec 3} {i : Instr} {rd rx : BitVec 4} {f : Word → Instr}
    (hone : hasSecondWord (packWord op m rd rx) = false)
    (henc : encode i = [packWord op m 0 0]) (hwf : i.wf = true)
    (h : noGroup i rd rx = .ok f) : BuildsEncoded op m rd rx f := by
  obtain ⟨rfl, rfl, rfl⟩ := noGroup_ok h
  exact fun w2 => ⟨hwf, by simp only [henc, instrWords, hone]; rfl⟩

theorem storeGroup_buildsEncoded {m : BitVec 3} {rd rx : BitVec 4} {f : Word → Instr}
    (h : storeGroup m rd rx = .ok f) : BuildsEncoded 2 m rd rx f := by
  unfold storeGroup at h
  split at h
  · rename_i hm
    subst hm
    exact regGroup_buildsEncoded (by simp) (fun _ => rfl) (fun _ => rfl) h
  · simp only [decode_bind_eq_ok, regField_ok, Except.ok.injEq] at h
    obtain ⟨dst, hdst, d, rfl, rfl⟩ := h
    exact fun w2 => ⟨rfl, encodeDst_dstForm (by decide) hdst d w2⟩

/-- A jump that a condition code names is encoded with that code (R76). -/
theorem jumpOfCond_encode {cc : BitVec 4} {mk : Target → Instr} (h : jumpOfCond cc = some mk) (ea : Target) :
    (mk ea).wf = true ∧ encode (mk ea) = encodeTarget 20 cc ea := by
  have hcc : cc = BitVec.ofNat 4 cc.toNat := by simp
  unfold jumpOfCond at h
  split at h
  case h_16 => cases h
  all_goals
    rename_i hn
    rw [hn] at hcc
    cases h
    subst hcc
    exact ⟨rfl, rfl⟩

theorem jumpGroup_buildsEncoded {m : BitVec 3} {cc rx : BitVec 4} {f : Word → Instr}
    (h : jumpGroup m cc rx = .ok f) : BuildsEncoded 20 m cc rx f := by
  unfold jumpGroup at h
  split at h
  · obtain ⟨_, hz, h⟩ := decode_bind_eq_ok.mp h
    split at h
    · rename_i mk hmk
      simp only [decode_bind_eq_ok, Except.ok.injEq] at h
      obtain ⟨t, ht, rfl⟩ := h
      intro w2
      obtain ⟨hwf, henc⟩ := jumpOfCond_encode hmk (t w2)
      exact ⟨hwf, henc.trans (encodeTarget_targetForm (by decide) hz ht cc w2)⟩
    · cases h
  · cases h

theorem callGroup_buildsEncoded {m : BitVec 3} {rd rx : BitVec 4} {f : Word → Instr}
    (h : callGroup m rd rx = .ok f) : BuildsEncoded 21 m rd rx f := by
  unfold callGroup at h
  split at h
  · simp only [decode_bind_eq_ok, zeroField_eq_ok, Except.ok.injEq] at h
    obtain ⟨_, rfl, _, hz, t, ht, rfl⟩ := h
    exact fun w2 => ⟨rfl, encodeTarget_targetForm (by decide) hz ht 0 w2⟩
  · cases h

/-! ### The whole OP map -/

theorem eq_ofNat_of_toNat {n k : Nat} {x : BitVec n} (h : x.toNat = k) : x = BitVec.ofNat n k := by
  simp [← h]

/-- What the OP map decodes is encoded by the same fields (R74). -/
theorem decodeFields_buildsEncoded {op : BitVec 5} {m : BitVec 3} {rd rx : BitVec 4} {f : Word → Instr}
    (h : decodeFields op m rd rx = .ok f) : BuildsEncoded op m rd rx f := by
  unfold decodeFields at h
  split at h
  case h_29 => cases h
  all_goals
    rename_i hop
    obtain rfl := eq_ofNat_of_toNat hop
  case h_3 => exact storeGroup_buildsEncoded h
  case h_14 | h_15 => exact pairGroup_buildsEncoded (by decide) (fun _ _ => rfl) (fun _ _ => rfl) h
  case h_20 => exact jumpGroup_buildsEncoded h
  case h_21 => exact callGroup_buildsEncoded h
  case h_22 | h_23 => exact portGroup_buildsEncoded (by decide) (fun _ _ => rfl) (fun _ _ => rfl) h
  case h_1 | h_27 | h_28 =>
    split at h
    · rename_i hm
      subst hm
      exact noGroup_buildsEncoded (by simp) rfl rfl h
    · cases h
  case h_24 =>
    split_ifs at h with hpush hpop
    · subst hpush; exact regGroup_buildsEncoded (by simp) (fun _ => rfl) (fun _ => rfl) h
    · subst hpop; exact regGroup_buildsEncoded (by simp) (fun _ => rfl) (fun _ => rfl) h
  case h_25 | h_26 =>
    split_ifs at h with hfirst hsecond
    · subst hfirst; exact noGroup_buildsEncoded (by simp) rfl rfl h
    · subst hsecond; exact noGroup_buildsEncoded (by simp) rfl rfl h
  all_goals exact srcGroup_buildsEncoded (by decide) (fun _ _ => rfl) (fun _ _ => rfl) h

/-- The instruction a first word decodes to is well-formed, and its encoding is that word, with the second where the
format has one. -/
theorem encode_of_decodeFirst {w1 : Word} {mk : Word → Instr} (h : decodeFirst w1 = .ok mk) (w2 : Word) :
    (mk w2).wf = true ∧ encode (mk w2) = instrWords w1 w2 := by
  have hb := decodeFields_buildsEncoded h w2
  rwa [packWord_fields] at hb

/-- What it means that bytes decode: they begin with the words of a decoded first word. -/
theorem decodeBytes_ok {bs rest : List Byte} {i : Instr} (h : decodeBytes bs = .ok (i, rest)) :
    ∃ w1 w2 mk, decodeFirst w1 = .ok mk ∧ i = mk w2 ∧ bs = wordBytes (instrWords w1 w2) ++ rest := by
  unfold decodeBytes at h
  split at h
  · rename_i b0 b1 tail
    split at h
    · cases h
    · rename_i mk hmk
      split_ifs at h with htwo
      · split at h
        · rename_i b2 b3 tail'
          cases h
          exact ⟨b0 ++ b1, b2 ++ b3, mk, hmk, rfl, by simp [instrWords, htwo, wordBytes]⟩
        · cases h
      · cases h
        exact ⟨b0 ++ b1, 0, mk, hmk, rfl, by simp [instrWords, htwo, wordBytes]⟩
  · cases h

/-- Settles O2: every group of the OP map encodes what it decodes by its own fields. -/
theorem encodeOfDecode : Obligations.EncodeOfDecode := by
  intro bs i rest h
  obtain ⟨w1, w2, mk, hdec, rfl, rfl⟩ := decodeBytes_ok h
  obtain ⟨hwf, henc⟩ := encode_of_decodeFirst hdec w2
  exact ⟨hwf, by rw [henc]⟩

/-! ### Every well-formed instruction decodes -/

/-- A first word that decodes begins the bytes of its words. -/
theorem decodeBytes_instrWords {w1 : Word} {mk : Word → Instr} (h : decodeFirst w1 = .ok mk) {w2 : Word}
    (hone : hasSecondWord w1 = false → w2 = 0) (rest : List Byte) :
    decodeBytes (wordBytes (instrWords w1 w2) ++ rest) = .ok (mk w2, rest) := by
  cases htwo : hasSecondWord w1 with
  | true => simp [instrWords, htwo, wordBytes, decodeBytes, h]
  | false => simp [instrWords, htwo, wordBytes, decodeBytes, h, hone htwo]

/-- A first word stands for the instruction, with a second word that is zero where the format has none. -/
def StandsFor (w1 : Word) (i : Instr) : Prop :=
  ∃ mk w2, decodeFirst w1 = .ok mk ∧ mk w2 = i ∧ (hasSecondWord w1 = false → w2 = 0)

theorem decodeBytes_of_standsFor {w1 : Word} {i : Instr} (h : StandsFor w1 i) (rest : List Byte) :
    decodeBytes (wordBytes (encode i) ++ rest) = .ok (i, rest) := by
  obtain ⟨mk, w2, hdec, rfl, hone⟩ := h
  rw [(encode_of_decodeFirst hdec w2).2]
  exact decodeBytes_instrWords hdec hone rest

theorem srcForm_surjective (ea : Src) :
    ∃ m rx src w2, srcForm m rx = .ok src ∧ src w2 = ea ∧ (3 ≤ m.toNat → w2 = 0) := by
  cases ea with
  | direct dsp => exact ⟨0, 0, fun w => .direct w, dsp, rfl, rfl, by simp⟩
  | indexed dsp rx => exact ⟨1, rx.toField, fun w => .indexed w rx, dsp, by simp [srcForm], rfl, by simp⟩
  | imm v => exact ⟨2, 0, fun w => .imm w, v, rfl, rfl, by simp⟩
  | fpRel d4 => exact ⟨3, d4, fun _ => .fpRel d4, 0, rfl, rfl, fun _ => rfl⟩
  | reg rs => exact ⟨4, rs.toField, fun _ => .reg rs, 0, by simp [srcForm], rfl, fun _ => rfl⟩
  | imm4 i4 => exact ⟨5, i4, fun _ => .imm4 i4, 0, rfl, rfl, fun _ => rfl⟩
  | indirect rx => exact ⟨6, rx.toField, fun _ => .indirect rx, 0, by simp [srcForm], rfl, fun _ => rfl⟩
  | byteIndirect rx => exact ⟨7, rx.toField, fun _ => .byteIndirect rx, 0, by simp [srcForm], rfl, fun _ => rfl⟩

theorem dstForm_surjective (ea : Dst) :
    ∃ m rx dst w2, m ≠ 4 ∧ dstForm m rx = .ok dst ∧ dst w2 = ea ∧ (3 ≤ m.toNat → w2 = 0) := by
  cases ea with
  | direct dsp => exact ⟨0, 0, fun w => .direct w, dsp, by decide, rfl, rfl, by simp⟩
  | indexed dsp rx => exact ⟨1, rx.toField, fun w => .indexed w rx, dsp, by decide, by simp [dstForm], rfl, by simp⟩
  | fpRel d4 => exact ⟨3, d4, fun _ => .fpRel d4, 0, by decide, rfl, rfl, fun _ => rfl⟩
  | indirect rx => exact ⟨6, rx.toField, fun _ => .indirect rx, 0, by decide, by simp [dstForm], rfl, fun _ => rfl⟩
  | byteIndirect rx =>
    exact ⟨7, rx.toField, fun _ => .byteIndirect rx, 0, by decide, by simp [dstForm], rfl, fun _ => rfl⟩

theorem portForm_surjective (ea : Port) :
    ∃ m rx port w2, portForm m rx = .ok port ∧ port w2 = ea ∧ (3 ≤ m.toNat → w2 = 0) := by
  cases ea with
  | direct dsp => exact ⟨0, 0, fun w => .direct w, dsp, rfl, rfl, by simp⟩
  | indirect rx => exact ⟨6, rx.toField, fun _ => .indirect rx, 0, by simp [portForm], rfl, fun _ => rfl⟩
  | byteIndirect rx => exact ⟨7, rx.toField, fun _ => .byteIndirect rx, 0, by simp [portForm], rfl, fun _ => rfl⟩

theorem targetForm_surjective (ea : Target) :
    ∃ m rx target w2, jumpModeDefined m = true ∧ targetZero m rx = .ok () ∧ targetForm m rx = .ok target ∧
      target w2 = ea ∧ (3 ≤ m.toNat → w2 = 0) := by
  cases ea with
  | direct dsp => exact ⟨0, 0, fun w => .direct w, dsp, rfl, rfl, rfl, rfl, by simp⟩
  | indexed dsp rx => exact ⟨1, rx.toField, fun w => .indexed w rx, dsp, rfl, rfl, by simp [targetForm], rfl, by simp⟩
  | indirect rx => exact ⟨6, rx.toField, fun _ => .indirect rx, 0, rfl, rfl, by simp [targetForm], rfl, fun _ => rfl⟩

/-- An operation without a second word, decoded whatever follows. -/
theorem standsFor_single {op : BitVec 5} {m : BitVec 3} {rd rx : BitVec 4} {i : Instr}
    (h : decodeFields op m rd rx = .ok fun _ => i) : ∃ w1, StandsFor w1 i :=
  ⟨packWord op m rd rx, fun _ => i, 0, by rw [decodeFirst_packWord, h], rfl, fun _ => rfl⟩

section
variable {op : BitVec 5} (hop : 1 ≤ op.toNat ∧ op.toNat ≤ 23)
include hop

/-- The fields of an operation with operand forms: the modes from 3 on are one word long (R72). -/
theorem standsFor_fields {m : BitVec 3} {rd rx : BitVec 4} {f : Word → Instr} {w2 : Word}
    (h : decodeFields op m rd rx = .ok f) (hone : 3 ≤ m.toNat → w2 = 0) : ∃ w1, StandsFor w1 (f w2) :=
  ⟨packWord op m rd rx, f, w2, by rw [decodeFirst_packWord, h], rfl, fun hw => hone (by simpa [hop] using hw)⟩

theorem standsFor_source {mk : Reg → Src → Instr}
    (hdec : ∀ m rd rx, decodeFields op m rd rx = srcGroup mk m rd rx) (d : Reg) (ea : Src) :
    ∃ w1, StandsFor w1 (mk d ea) := by
  obtain ⟨m, rx, src, w2, hsrc, rfl, hone⟩ := srcForm_surjective ea
  have h : decodeFields op m d.toField rx = .ok fun w => mk d (src w) := by simp [hdec, srcGroup, hsrc]
  exact standsFor_fields hop h hone

theorem standsFor_pair {mk : Reg → Src → Instr}
    (hdec : ∀ m rd rx, decodeFields op m rd rx = pairGroup mk m rd rx) {d : Reg} (hd : d.headsPair = true) (ea : Src) :
    ∃ w1, StandsFor w1 (mk d ea) := by
  obtain ⟨m, rx, src, w2, hsrc, rfl, hone⟩ := srcForm_surjective ea
  have h : decodeFields op m d.toField rx = .ok fun w => mk d (src w) := by simp [hdec, pairGroup, hsrc, hd]
  exact standsFor_fields hop h hone

theorem standsFor_port {mk : Reg → Port → Instr}
    (hdec : ∀ m rd rx, decodeFields op m rd rx = portGroup mk m rd rx) (d : Reg) (ea : Port) :
    ∃ w1, StandsFor w1 (mk d ea) := by
  obtain ⟨m, rx, port, w2, hport, rfl, hone⟩ := portForm_surjective ea
  have h : decodeFields op m d.toField rx = .ok fun w => mk d (port w) := by simp [hdec, portGroup, hport]
  exact standsFor_fields hop h hone

end

theorem standsFor_store (d : Reg) (ea : Dst) : ∃ w1, StandsFor w1 (.st d ea) := by
  obtain ⟨m, rx, dst, w2, hm, hdst, rfl, hone⟩ := dstForm_surjective ea
  have h : decodeFields 2 m d.toField rx = .ok fun w => .st d (dst w) := by
    simp [decodeFields, storeGroup, show ¬ m = 4#3 from hm, hdst]
  exact standsFor_fields (by decide) h hone

theorem standsFor_jump {cc : BitVec 4} {mk : Target → Instr} (hcc : jumpOfCond cc = some mk) (ea : Target) :
    ∃ w1, StandsFor w1 (mk ea) := by
  obtain ⟨m, rx, target, w2, hm, hz, ht, rfl, hone⟩ := targetForm_surjective ea
  have h : decodeFields 20 m cc rx = .ok fun w => mk (target w) := by simp [decodeFields, jumpGroup, hm, hz, hcc, ht]
  exact standsFor_fields (by decide) h hone

theorem standsFor_call (ea : Target) : ∃ w1, StandsFor w1 (.call ea) := by
  obtain ⟨m, rx, target, w2, hm, hz, ht, rfl, hone⟩ := targetForm_surjective ea
  have h : decodeFields 21 m 0 rx = .ok fun w => .call (target w) := by simp [decodeFields, callGroup, hm, hz, ht]
  exact standsFor_fields (by decide) h hone

/-- Every well-formed instruction has a first word (R74, R76). -/
theorem standsFor_of_wf {i : Instr} (h : i.wf = true) : ∃ w1, StandsFor w1 i := by
  cases i
  case st d ea => exact standsFor_store d ea
  case mull d ea => exact standsFor_pair (op := 13) (by decide) (fun _ _ _ => rfl) h ea
  case divl d ea => exact standsFor_pair (op := 14) (by decide) (fun _ _ _ => rfl) h ea
  case call ea => exact standsFor_call ea
  case inp d ea => exact standsFor_port (op := 22) (by decide) (fun _ _ _ => rfl) d ea
  case out d ea => exact standsFor_port (op := 23) (by decide) (fun _ _ _ => rfl) d ea
  case ldFlag d =>
    exact standsFor_single (op := 2) (m := 4) (rd := d.toField) (rx := 0)
      (by simp [decodeFields, storeGroup, regGroup])
  case push d =>
    exact standsFor_single (op := 24) (m := 0) (rd := d.toField) (rx := 0) (by simp [decodeFields, regGroup])
  case pop d =>
    exact standsFor_single (op := 24) (m := 4) (rd := d.toField) (rx := 0) (by simp [decodeFields, regGroup])
  case no => exact standsFor_single (op := 0) (m := 0) (rd := 0) (rx := 0) rfl
  case ret => exact standsFor_single (op := 26) (m := 0) (rd := 0) (rx := 0) rfl
  case reti => exact standsFor_single (op := 26) (m := 4) (rd := 0) (rx := 0) rfl
  case ei => exact standsFor_single (op := 28) (m := 0) (rd := 0) (rx := 0) rfl
  case di => exact standsFor_single (op := 28) (m := 4) (rd := 0) (rx := 0) rfl
  case svc => exact standsFor_single (op := 30) (m := 0) (rd := 0) (rx := 0) rfl
  case halt => exact standsFor_single (op := 31) (m := 7) (rd := 0) (rx := 0) rfl
  case jz ea => exact standsFor_jump (cc := 0x0) rfl ea
  case jc ea => exact standsFor_jump (cc := 0x1) rfl ea
  case jm ea => exact standsFor_jump (cc := 0x2) rfl ea
  case jo ea => exact standsFor_jump (cc := 0x3) rfl ea
  case jgt ea => exact standsFor_jump (cc := 0x4) rfl ea
  case jge ea => exact standsFor_jump (cc := 0x5) rfl ea
  case jle ea => exact standsFor_jump (cc := 0x6) rfl ea
  case jlt ea => exact standsFor_jump (cc := 0x7) rfl ea
  case jnz ea => exact standsFor_jump (cc := 0x8) rfl ea
  case jnc ea => exact standsFor_jump (cc := 0x9) rfl ea
  case jnm ea => exact standsFor_jump (cc := 0xA) rfl ea
  case jno ea => exact standsFor_jump (cc := 0xB) rfl ea
  case jhi ea => exact standsFor_jump (cc := 0xC) rfl ea
  case jls ea => exact standsFor_jump (cc := 0xE) rfl ea
  case jmp ea => exact standsFor_jump (cc := 0xF) rfl ea
  case ld d ea => exact standsFor_source (op := 1) (by decide) (fun _ _ _ => rfl) d ea
  case add d ea => exact standsFor_source (op := 3) (by decide) (fun _ _ _ => rfl) d ea
  case sub d ea => exact standsFor_source (op := 4) (by decide) (fun _ _ _ => rfl) d ea
  case cmp d ea => exact standsFor_source (op := 5) (by decide) (fun _ _ _ => rfl) d ea
  case and d ea => exact standsFor_source (op := 6) (by decide) (fun _ _ _ => rfl) d ea
  case or d ea => exact standsFor_source (op := 7) (by decide) (fun _ _ _ => rfl) d ea
  case xor d ea => exact standsFor_source (op := 8) (by decide) (fun _ _ _ => rfl) d ea
  case adds d ea => exact standsFor_source (op := 9) (by decide) (fun _ _ _ => rfl) d ea
  case mul d ea => exact standsFor_source (op := 10) (by decide) (fun _ _ _ => rfl) d ea
  case div d ea => exact standsFor_source (op := 11) (by decide) (fun _ _ _ => rfl) d ea
  case mod d ea => exact standsFor_source (op := 12) (by decide) (fun _ _ _ => rfl) d ea
  case shla d ea => exact standsFor_source (op := 16) (by decide) (fun _ _ _ => rfl) d ea
  case shll d ea => exact standsFor_source (op := 17) (by decide) (fun _ _ _ => rfl) d ea
  case shra d ea => exact standsFor_source (op := 18) (by decide) (fun _ _ _ => rfl) d ea
  case shrl d ea => exact standsFor_source (op := 19) (by decide) (fun _ _ _ => rfl) d ea

/-- Settles O1: every well-formed instruction has a first word that decodes to it, and what decodes is encoded by its
own words. -/
theorem decodeOfEncode : Obligations.DecodeOfEncode := by
  intro i rest hwf
  obtain ⟨w1, hw1⟩ := standsFor_of_wf hwf
  exact decodeBytes_of_standsFor hw1 rest

end Sys2Proof
end

section
/-! PROOF of which words are no instruction, and by what name (R73, R77, R82), and of the printed example words. -/

namespace Sys2Proof

/-! ### The stops of the parts -/

theorem decode_bind_eq_error {α β : Type} {x : Except DecodeStop α} {f : α → Except DecodeStop β} {r : DecodeStop} :
    (x >>= f) = .error r ↔ x = .error r ∨ ∃ a, x = .ok a ∧ f a = .error r := by
  cases x <;> simp [bind, Except.bind]

/-- The stops of a field, once the OP byte is defined (R82 steps 3 and 5). -/
def IsFieldStop (r : DecodeStop) : Prop := r = .mbzField ∨ r = .pcOperand ∨ r = .oddPairRegister

theorem zeroField_fieldStop {f : BitVec 4} {r : DecodeStop} (h : zeroField f = .error r) : IsFieldStop r :=
  Or.inl (zeroField_error h).1

theorem regField_fieldStop {f : BitVec 4} {r : DecodeStop} (h : regField f = .error r) : IsFieldStop r :=
  Or.inr (Or.inl (regField_error h).1)

theorem srcForm_error {m : BitVec 3} {rx : BitVec 4} {r : DecodeStop} (h : srcForm m rx = .error r) : IsFieldStop r := by
  unfold srcForm at h
  split at h <;> simp only [decode_bind_eq_error, reduceCtorEq, and_false, exists_false, or_false] at h
  case h_1 | h_3 => exact zeroField_fieldStop h
  all_goals exact regField_fieldStop h

theorem regGroup_error {mk : Reg → Instr} {rd rx : BitVec 4} {r : DecodeStop} (h : regGroup mk rd rx = .error r) :
    IsFieldStop r := by
  simp only [regGroup, decode_bind_eq_error, reduceCtorEq, and_false, exists_false, or_false] at h
  rcases h with h | ⟨_, _, h⟩
  · exact zeroField_fieldStop h
  · exact regField_fieldStop h

theorem noGroup_error {i : Instr} {rd rx : BitVec 4} {r : DecodeStop} (h : noGroup i rd rx = .error r) :
    IsFieldStop r := by
  simp only [noGroup, decode_bind_eq_error, reduceCtorEq, and_false, exists_false, or_false] at h
  rcases h with h | ⟨_, _, h⟩
  · exact zeroField_fieldStop h
  · exact zeroField_fieldStop h

theorem srcGroup_error {mk : Reg → Src → Instr} {m : BitVec 3} {rd rx : BitVec 4} {r : DecodeStop}
    (h : srcGroup mk m rd rx = .error r) : IsFieldStop r := by
  simp only [srcGroup, decode_bind_eq_error, reduceCtorEq, and_false, exists_false, or_false] at h
  rcases h with h | ⟨_, _, h⟩
  · exact srcForm_error h
  · exact regField_fieldStop h

theorem pairGroup_error {mk : Reg → Src → Instr} {m : BitVec 3} {rd rx : BitVec 4} {r : DecodeStop}
    (h : pairGroup mk m rd rx = .error r) : IsFieldStop r := by
  simp only [pairGroup, decode_bind_eq_error] at h
  rcases h with h | ⟨_, _, h | ⟨d, _, h⟩⟩
  · exact srcForm_error h
  · exact regField_fieldStop h
  · split at h
    · cases h
    · cases h; exact Or.inr (Or.inr rfl)

/-- Exactly in the case `P` the OP byte is undefined, exactly in the case `Q` condition code Dh is refused. -/
def StopsAs (x : Except DecodeStop (Word → Instr)) (P Q : Prop) : Prop :=
  (x = .error .undefinedOp ↔ P) ∧ (x = .error .condD ↔ Q)

theorem stopsAs_intro {x : Except DecodeStop (Word → Instr)} {P Q : Prop} (hblank : P → x = .error .undefinedOp)
    (hcond : Q → x = .error .condD) (hfield : ¬ P → ¬ Q → ∀ r, x = .error r → IsFieldStop r) : StopsAs x P Q := by
  by_cases hP : P
  · have hx := hblank hP
    have hnQ : ¬ Q := fun hQ => by simpa using hx.symm.trans (hcond hQ)
    simp [StopsAs, hx, hP, hnQ]
  · by_cases hQ : Q
    · have hx := hcond hQ
      simp [StopsAs, hx, hP, hQ]
    · refine ⟨⟨fun h => ?_, fun h => absurd h hP⟩, ⟨fun h => ?_, fun h => absurd h hQ⟩⟩ <;>
        simpa [IsFieldStop] using hfield hP hQ _ h

theorem dstForm_error {m : BitVec 3} {rx : BitVec 4} {r : DecodeStop} (hblank : ¬ (m = 2 ∨ m = 5)) (h4 : m ≠ 4)
    (h : dstForm m rx = .error r) : IsFieldStop r := by
  rcases mode_cases m with (rfl | rfl) | (rfl | rfl) | (rfl | rfl | rfl | rfl) <;>
    simp [dstForm, decode_bind_eq_error] at h hblank h4
  · exact zeroField_fieldStop h
  all_goals exact regField_fieldStop h

theorem portForm_error {m : BitVec 3} {rx : BitVec 4} {r : DecodeStop} (hm : m = 0 ∨ m = 6 ∨ m = 7)
    (h : portForm m rx = .error r) : IsFieldStop r := by
  rcases hm with rfl | rfl | rfl <;> simp [portForm, decode_bind_eq_error] at h
  · exact zeroField_fieldStop h
  all_goals exact regField_fieldStop h

theorem portForm_blank {m : BitVec 3} {rx : BitVec 4} (hm : ¬ (m = 0 ∨ m = 6 ∨ m = 7)) :
    portForm m rx = .error .undefinedOp := by
  rcases mode_cases m with (rfl | rfl) | (rfl | rfl) | (rfl | rfl | rfl | rfl) <;> simp at hm <;> rfl

theorem storeGroup_stops (m : BitVec 3) (rd rx : BitVec 4) : StopsAs (storeGroup m rd rx) (m = 2 ∨ m = 5) False := by
  refine stopsAs_intro (by rintro (rfl | rfl) <;> rfl) False.elim fun hblank _ r h => ?_
  unfold storeGroup at h
  split at h
  · exact regGroup_error h
  · simp only [decode_bind_eq_error, reduceCtorEq, and_false, exists_false, or_false] at h
    rcases h with h | ⟨_, _, h⟩
    · exact dstForm_error hblank ‹_› h
    · exact regField_fieldStop h

theorem portGroup_stops (mk : Reg → Port → Instr) (m : BitVec 3) (rd rx : BitVec 4) :
    StopsAs (portGroup mk m rd rx) (¬ (m = 0 ∨ m = 6 ∨ m = 7)) False := by
  refine stopsAs_intro (fun hm => ?_) False.elim fun hm _ r h => ?_
  · rw [portGroup, portForm_blank hm, decode_error_bind]
  · simp only [portGroup, decode_bind_eq_error, reduceCtorEq, and_false, exists_false, or_false] at h
    rcases h with h | ⟨_, _, h⟩
    · exact portForm_error (not_not.mp hm) h
    · exact regField_fieldStop h

theorem targetZero_error {m : BitVec 3} {rx : BitVec 4} {r : DecodeStop} (h : targetZero m rx = .error r) :
    IsFieldStop r := by
  unfold targetZero at h
  split at h
  · exact zeroField_fieldStop h
  · cases h

theorem targetZero_ok {m : BitVec 3} {rx : BitVec 4} {u : Unit} : targetZero m rx = .ok u ↔ (m = 0 → rx = 0) := by
  unfold targetZero
  split <;> simp_all [zeroField_eq_ok]

theorem targetForm_error {m : BitVec 3} {rx : BitVec 4} {r : DecodeStop} (hm : jumpModeDefined m = true)
    (h : targetForm m rx = .error r) : IsFieldStop r := by
  unfold targetForm at h
  split at h
  case h_1 => cases h
  case h_2 | h_3 =>
    simp only [decode_bind_eq_error, reduceCtorEq, and_false, exists_false, or_false] at h
    exact regField_fieldStop h
  case h_4 h0 h1 h6 =>
    simp only [jumpModeDefined, Bool.or_eq_true, beq_iff_eq] at hm
    rcases hm with (rfl | rfl) | rfl <;> simp at h0 h1 h6

theorem jumpOfCond_eq_none {cc : BitVec 4} : jumpOfCond cc = none ↔ cc = 0xD := by
  rw [← Option.isNone_iff_eq_none]
  revert cc; decide

theorem jumpGroup_stops (m : BitVec 3) (cc rx : BitVec 4) :
    StopsAs (jumpGroup m cc rx) (jumpModeDefined m = false)
      (jumpModeDefined m = true ∧ cc = 0xD ∧ (m = 0 → rx = 0)) := by
  refine stopsAs_intro (fun hm => by simp [jumpGroup, hm]) ?_ fun hm hD r h => ?_
  · rintro ⟨hm, hcc, hrx⟩
    simp [jumpGroup, hm, targetZero_ok (u := ()).mpr hrx, jumpOfCond_eq_none.mpr hcc, condD, condDPolicy]
  · simp only [Bool.not_eq_false] at hm
    simp only [jumpGroup, hm, if_true, decode_bind_eq_error] at h
    rcases h with h | ⟨_, hz, h⟩
    · exact targetZero_error h
    · split at h
      · simp only [decode_bind_eq_error, reduceCtorEq, and_false, exists_false, or_false] at h
        exact targetForm_error hm h
      · rename_i hnone
        exact absurd ⟨hm, jumpOfCond_eq_none.mp hnone, targetZero_ok.mp hz⟩ hD

theorem callGroup_stops (m : BitVec 3) (rd rx : BitVec 4) :
    StopsAs (callGroup m rd rx) (jumpModeDefined m = false) False := by
  refine stopsAs_intro (fun hm => by simp [callGroup, hm]) False.elim fun hm _ r h => ?_
  simp only [Bool.not_eq_false] at hm
  simp only [callGroup, hm, if_true, decode_bind_eq_error, reduceCtorEq, and_false, exists_false, or_false] at h
  rcases h with h | ⟨_, _, h | ⟨_, _, h⟩⟩
  · exact zeroField_fieldStop h
  · exact targetZero_error h
  · exact targetForm_error hm h

/-- The cells of the OP map that are blank (R74, R77(a)). -/
def blankCell (op : BitVec 5) (m : BitVec 3) : Bool :=
  match op.toNat with
  | 0 | 30 => m != 0
  | 2 => m == 2 || m == 5
  | 15 | 25 | 27 | 29 => true
  | 20 | 21 => !jumpModeDefined m
  | 22 | 23 => !(m == 0 || m == 6 || m == 7)
  | 24 | 26 | 28 => !(m == 0 || m == 4)
  | 31 => m != 7
  | _ => false

/-- The cells of the map are those of the printed ranges. -/
theorem isBlankOp_append (op : BitVec 5) (m : BitVec 3) : Machine.isBlankOp (op ++ m) = blankCell op m := by
  revert op m; decide

theorem StopsAs.congr {x : Except DecodeStop (Word → Instr)} {P Q P' Q' : Prop} (h : StopsAs x P Q) (hP : P' ↔ P)
    (hQ : Q' ↔ Q) : StopsAs x P' Q' :=
  ⟨h.1.trans hP.symm, h.2.trans hQ.symm⟩

theorem oneMode_stops {k m : BitVec 3} {x : Except DecodeStop (Word → Instr)}
    (hx : ∀ r, x = .error r → IsFieldStop r) :
    StopsAs (if m = k then x else .error .undefinedOp) (m ≠ k) False :=
  stopsAs_intro (fun hm => if_neg hm) False.elim fun hm _ r h => hx r (by rwa [if_pos (not_not.mp hm)] at h)

theorem twoModes_stops {k k' m : BitVec 3} {x y : Except DecodeStop (Word → Instr)}
    (hx : ∀ r, x = .error r → IsFieldStop r) (hy : ∀ r, y = .error r → IsFieldStop r) :
    StopsAs (if m = k then x else if m = k' then y else .error .undefinedOp) (m ≠ k ∧ m ≠ k') False := by
  refine stopsAs_intro (fun hm => by rw [if_neg hm.1, if_neg hm.2]) False.elim fun hm _ r h => ?_
  split_ifs at h with h1 h2
  · exact hx r h
  · exact hy r h
  · exact absurd ⟨h1, h2⟩ hm

/-- The OP map is undefined at its blank cells and refuses condition code Dh in the jump group (R77, R82). -/
theorem decodeFields_stops (op : BitVec 5) (m : BitVec 3) (rd rx : BitVec 4) :
    StopsAs (decodeFields op m rd rx) (blankCell op m = true)
      (op = 20 ∧ jumpModeDefined m = true ∧ rd = 0xD ∧ (m = 0 → rx = 0)) := by
  unfold decodeFields
  split
  case h_29 =>
    simp only [imp_false] at *
    have hrow : op.toNat = 15 ∨ op.toNat = 25 ∨ op.toNat = 27 ∨ op.toNat = 29 := by omega
    rcases hrow with hop | hop | hop | hop <;> obtain rfl := eq_ofNat_of_toNat hop <;>
      simp [StopsAs, blankCell]
  all_goals
    rename_i hop
    obtain rfl := eq_ofNat_of_toNat hop
  case h_3 => exact (storeGroup_stops m rd rx).congr (by simp [blankCell]) (by simp)
  case h_20 => exact (jumpGroup_stops m rd rx).congr (by simp [blankCell]) (by simp)
  case h_21 => exact (callGroup_stops m rd rx).congr (by simp [blankCell]) (by simp)
  case h_22 | h_23 => exact (portGroup_stops _ m rd rx).congr (by simp [blankCell, and_assoc]) (by simp)
  case h_14 | h_15 => exact stopsAs_intro (by simp [blankCell]) (by simp) fun _ _ _ h => pairGroup_error h
  case h_1 | h_27 | h_28 => exact (oneMode_stops fun _ h => noGroup_error h).congr (by simp [blankCell]) (by simp)
  case h_24 =>
    exact (twoModes_stops (fun _ h => regGroup_error h) fun _ h => regGroup_error h).congr (by simp [blankCell])
      (by simp)
  case h_25 | h_26 =>
    exact (twoModes_stops (fun _ h => noGroup_error h) fun _ h => noGroup_error h).congr (by simp [blankCell])
      (by simp)
  all_goals exact stopsAs_intro (by simp [blankCell]) (by simp) fun _ _ _ h => srcGroup_error h

theorem opByte_eq_append (w : Word) : opByte w = opField w ++ modeField w := by
  conv_lhs => rw [← packWord_fields w]
  simp

/-- Settles O3: a word is undefined exactly at the blank cells, and these are the printed ranges. -/
theorem undefinedOpBytes : Obligations.UndefinedOpBytes := by
  refine ⟨fun w => ?_, ?_⟩
  · rw [opByte_eq_append, isBlankOp_append]
    exact (decodeFields_stops _ _ _ _).1
  · rw [List.countP_eq_length_filter]
    decide

/-- The OP bytes of the jump group (R76). -/
theorem append_mem_jumpBytes (op : BitVec 5) (m : BitVec 3) :
    op ++ m ∈ [0xA0#8, 0xA1#8, 0xA6#8] ↔ op = 20 ∧ jumpModeDefined m = true := by
  revert op m; decide

theorem append_eq_jumpDirect (op : BitVec 5) (m : BitVec 3) : (op ++ m : Byte) = 0xA0 ↔ op = 20 ∧ m = 0 := by
  revert op m; decide

/-- Settles O4: only the jump group answers `condD`, after the must-be-zero field. -/
theorem conditionDRefused : Obligations.ConditionDRefused := by
  intro w
  rw [opByte_eq_append, append_mem_jumpBytes, append_eq_jumpDirect]
  refine (decodeFields_stops _ _ _ _).2.trans ⟨?_, ?_⟩
  · rintro ⟨hop, hm, hrd, hrx⟩
    exact ⟨⟨hop, hm⟩, hrd, fun h => hrx h.2⟩
  · rintro ⟨⟨hop, hm⟩, hrd, hrx⟩
    exact ⟨hop, hm, hrd, fun h => hrx ⟨hop, h⟩⟩

/-! ### The words of the examples, and NO -/

/-- Settles O5, by decoding the fourteen words. -/
theorem sampleWordsDecode : Obligations.SampleWordsDecode := by
  unfold Obligations.SampleWordsDecode
  decide

theorem zeroField_of_ne {f : BitVec 4} (h : f ≠ 0) : zeroField f = .error .mbzField :=
  if_neg (by simpa [mbzPolicy] using h)

/-- Under OP byte 00h every other field is must-be-zero (R73, R100). -/
theorem decodeFirst_opByte_zero {w : Word} (hop : opByte w = 0) (hw : w ≠ 0) : decodeFirst w = .error .mbzField := by
  rw [opByte_eq_append] at hop
  obtain ⟨ho, hm⟩ : opField w = 0 ∧ modeField w = 0 := by
    revert hop
    generalize opField w = op
    generalize modeField w = m
    revert op m; decide
  have hfields : rdField w ≠ 0 ∨ rxField w ≠ 0 := by
    by_contra hall
    push Not at hall
    obtain ⟨hrd, hrx⟩ := hall
    exact hw (by rw [← packWord_fields w, ho, hm, hrd, hrx]; rfl)
  have hdec : decodeFirst w = noGroup .no (rdField w) (rxField w) := by simp [decodeFirst, ho, hm, decodeFields]
  rw [hdec, noGroup]
  by_cases hrd : rdField w = 0
  · simp [zeroField_ok.mpr hrd, zeroField_of_ne (hfields.resolve_left (not_not.mpr hrd))]
  · simp [zeroField_of_ne hrd]

/-- Settles O32: NO's arm answers its state; its OP byte leaves only must-be-zero fields. -/
theorem noDoesNothing : Obligations.NoDoesNothing :=
  ⟨fun _ => rfl, rfl, rfl, fun _ hop hw => decodeFirst_opByte_zero hop hw⟩

end Sys2Proof
end

section
/-! PROOF of what trap entry leaves (R205), and of all that one instruction can do when it answers a next state. -/

namespace Sys2Proof.Machine

/-! ### Words stored next to each other -/

theorem HoldsWord.congr {s t : State} {a v : Word} (h : HoldsWord s a v) (hb : SameBytes s t) : HoldsWord t a v :=
  ⟨fun hw => (hb _).trans (h.1 hw), fun hw => (hb _).trans (h.2 hw)⟩

/-- A word stays where it lies while another is stored beside it. -/
theorem HoldsWord.storeWord {s : State} {a v b w : Word} (h : HoldsWord s a v)
    (hlow : a.toNat ∉ [b.toNat, (b + 1).toNat]) (hhigh : (a + 1).toNat ∉ [b.toNat, (b + 1).toNat]) :
    HoldsWord (s.storeWord b w) a v :=
  ⟨fun hw => (s.storeWord_others b w _ (.inl hlow)).trans (h.1 hw),
    fun hw => (s.storeWord_others b w _ (.inl hhigh)).trans (h.2 hw)⟩

theorem State.wordAt_eq_of_holdsWord {t : State} {a v : Word} (h : HoldsWord t a v) (hlow : writable a.toNat = true)
    (hhigh : writable (a + 1).toNat = true) : t.wordAt a = v := by
  rw [State.wordAt, h.1 hlow, h.2 hhigh]
  exact append_bytes v

/-! ### Trap entry, seen from its end (R205) -/

theorem State.frameState_holds_savedPc (s : State) (savedPc : Word) :
    HoldsWord (s.frameState savedPc) (s.get .ssp - 2) savedPc := by
  unfold State.frameState
  refine HoldsWord.storeWord ((State.storeWord_holds _ _ _).congr fun _ => rfl) ?_ ?_
  all_goals
    simp only [List.mem_cons, List.not_mem_nil, or_false, not_or]
    constructor <;> bv_omega

theorem State.frameState_holds_flag (s : State) (savedPc : Word) :
    HoldsWord (s.frameState savedPc) (s.get .ssp - 4) s.flag.toWord :=
  State.storeWord_holds _ _ _

theorem State.frameState_others (s : State) (savedPc : Word) :
    SameBytesBut [(s.get .ssp - 1).toNat, (s.get .ssp - 2).toNat, (s.get .ssp - 3).toNat, (s.get .ssp - 4).toNat] s
      (s.frameState savedPc) := by
  intro k hk
  have h1 : s.get .ssp - 2 + 1 = s.get .ssp - 1 := by bv_omega
  have h3 : s.get .ssp - 4 + 1 = s.get .ssp - 3 := by bv_omega
  unfold State.frameState
  rw [State.storeWord_others _ _ _ k (by rw [h3]; simp at hk ⊢; tauto), State.byteAt_set,
    State.storeWord_others _ _ _ k (by rw [h1]; simp at hk ⊢; tauto)]
  rfl

theorem State.frameState_draws (s : State) (savedPc : Word) : (s.frameState savedPc).draws = s.draws := by
  simp [State.frameState]

theorem State.frameState_oracle (s : State) (savedPc : Word) : (s.frameState savedPc).oracle = s.oracle := by
  simp [State.frameState]

theorem State.frameState_inv {s : State} (h : s.Inv) (savedPc : Word) : (s.frameState savedPc).Inv :=
  State.storeWord_mem_wf _ _ (State.storeWord_mem_wf (s := { s with flag := _, regs := _ }) _ _ h)

/-- A trap entry that answers a next state is one the statements describe (R205). -/
theorem entersTrap_of_trapEntry {s t : State} {vector savedPc : Word} (h : trapEntry vector savedPc s = .next t) :
    EntersTrap vector savedPc s t := by
  obtain ⟨_, _, rfl⟩ := trapEntry_next.mp h
  exact ⟨s.frameState_flag savedPc, s.frameState_ssp savedPc, s.frameState_holds_savedPc savedPc,
    s.frameState_holds_flag savedPc, rfl, fun q hq => s.frameState_get_other savedPc (by simpa using hq),
    s.frameState_others savedPc, s.frameState_halted savedPc, s.frameState_irq savedPc, s.frameState_io savedPc,
    s.frameState_draws savedPc, s.frameState_oracle savedPc⟩

theorem trapEntry_inv {s t : State} {vector savedPc : Word} (h : trapEntry vector savedPc s = .next t) (hs : s.Inv) :
    t.Inv := by
  obtain ⟨_, _, rfl⟩ := trapEntry_next.mp h
  exact State.frameState_inv hs savedPc

theorem entersTrap_of_takeException {x : Exc} {s t : State} (h : takeException x s = .next t) :
    EntersTrap x.vector s.pc s t := by
  have h' : trapEntry x.vector s.pc s = .next t := by rwa [takeException, excSavedPc_eq] at h
  exact entersTrap_of_trapEntry h'

theorem EntersTrap.privileged {vector savedPc : Word} {s t : State} (h : EntersTrap vector savedPc s t) :
    t.flag.p = true := by
  obtain ⟨hflag, _⟩ := h
  rw [hflag]

/-- Trap entry touches neither requests, schedule, devices nor the halt. -/
theorem EntersTrap.keeps {vector savedPc : Word} {s t : State} (h : EntersTrap vector savedPc s t) :
    t.irq = s.irq ∧ t.oracle = s.oracle ∧ t.io = s.io ∧ t.halted = s.halted := by
  obtain ⟨_, _, _, _, _, _, _, hhalted, hirq, hio, _, horacle⟩ := h
  exact ⟨hirq, horacle, hio, hhalted⟩

/-! ### What an instruction can do -/

/-- What the CPU's stores of one instruction can do to memory: nothing, a byte or a word, where the checks of `s` let
them (R46 to R49, R56). -/
inductive CpuStore (s t : State) : Prop
  | none (h : t.mem = s.mem)
  | byte (a pa : Word) (b : Byte) (ha : s.translate a = .ok pa) (h : t.mem = (s.storeByte pa b).mem)
  | word (a pa v : Word) (ha : s.wordAddr a = .ok pa) (h : t.mem = (s.storeWord pa v).mem)

/-- What every instruction keeps but the few that touch the system (R219, R220, R222). -/
structure Ordinary (s t : State) : Prop where
  e : t.flag.e = s.flag.e
  p : t.flag.p = s.flag.p
  halted : t.halted = s.halted
  irq : t.irq = s.irq
  io : t.io = s.io
  oracle : t.oracle = s.oracle
  ssp : s.flag.p = false → t.get .ssp = s.get .ssp
  store : CpuStore s t

namespace Ordinary

theorem refl (s : State) : Ordinary s s := ⟨rfl, rfl, rfl, rfl, rfl, rfl, fun _ => rfl, .none rfl⟩

variable {s t : State}

theorem trans_mem {u : State} (h : Ordinary s t) (he : u.flag.e = t.flag.e) (hp : u.flag.p = t.flag.p)
    (hh : u.halted = t.halted) (hq : u.irq = t.irq) (hi : u.io = t.io) (ho : u.oracle = t.oracle)
    (hs : t.flag.p = false → u.get .ssp = t.get .ssp) (hm : u.mem = t.mem) : Ordinary s u where
  e := he.trans h.e
  p := hp.trans h.p
  halted := hh.trans h.halted
  irq := hq.trans h.irq
  io := hi.trans h.io
  oracle := ho.trans h.oracle
  ssp := fun hu => (hs (h.p.trans hu)).trans (h.ssp hu)
  store := by
    cases h.store with
    | none e => exact .none (hm.trans e)
    | byte a pa b ha e => exact .byte a pa b ha (hm.trans e)
    | word a pa v ha e => exact .word a pa v ha (hm.trans e)

theorem writeReg (h : Ordinary s t) (r : Reg) (v : Word) : Ordinary s (t.writeReg r v) :=
  h.trans_mem rfl rfl rfl rfl rfl rfl State.writeReg_ssp_user rfl

theorem setCond (h : Ordinary s t) (c : Cond) : Ordinary s (t.setCond c) :=
  h.trans_mem rfl rfl rfl rfl rfl rfl (fun _ => rfl) rfl

theorem setPc (h : Ordinary s t) (pc : Word) : Ordinary s { t with pc := pc } :=
  h.trans_mem rfl rfl rfl rfl rfl rfl (fun _ => rfl) rfl

theorem setDraws (h : Ordinary s t) (n : Nat) : Ordinary s { t with draws := n } :=
  h.trans_mem rfl rfl rfl rfl rfl rfl (fun _ => rfl) rfl

theorem of_write8 {a : Word} {b : Byte} (h : s.write8 a b = .ok t) : Ordinary s t := by
  obtain ⟨pa, ha, rfl⟩ := State.write8_ok.mp h
  exact ⟨by simp, by simp, by simp, by simp, by simp, by simp, fun _ => by simp, .byte a pa b ha rfl⟩

theorem of_write16 {a v : Word} (h : s.write16 a v = .ok t) : Ordinary s t := by
  obtain ⟨pa, ha, rfl⟩ := State.write16_ok.mp h
  exact ⟨by simp, by simp, by simp, by simp, by simp, by simp, fun _ => by simp, .word a pa v ha rfl⟩

end Ordinary

/-- What an instruction that completes can do: the ordinary ones keep the system; EI and DI write E, HALT the halt, OUT
the devices and RETI returns, each in privileged mode only (R220). -/
inductive Completed (s : State) : Instr → State → Prop
  | ordinary {i : Instr} {t : State} (h : Ordinary s t) : Completed s i t
  | enable {i : Instr} (b : Bool) (hp : s.flag.p = true) :
      Completed s i { s with flag := { s.flag with e := b } }
  | halts (hp : s.flag.p = true) : Completed s .halt { s with halted := true }
  | outputs (rd : Reg) (ea : Port) (io : Devices) (hp : s.flag.p = true) : Completed s (.out rd ea) { s with io := io }
  | returns {t : State} (hp : s.flag.p = true) (h : returnFromTrap loadFlags s = .ok t) : Completed s .reti t

/-- The instruction completes, or takes an exception from `s`; or it answers no next state. -/
def EndsAs (s : State) (i : Instr) (r : Result) : Prop :=
  ∀ t, r = .next t → Completed s i t ∨ ∃ x, takeException x s = .next t

theorem endsAs_next {s t : State} {i : Instr} (h : Ordinary s t) : EndsAs s i (.next t) := by
  rintro u ⟨⟩
  exact .inl (.ordinary h)

theorem endsAs_refused {s : State} {i : Instr} {r : Refusal} : EndsAs s i (.refused r) := by
  rintro u ⟨⟩

theorem endsAs_conclude {s : State} {i : Instr} {r : Except Abort State} (h : ∀ t, r = .ok t → Completed s i t) :
    EndsAs s i (conclude s r) := by
  intro t ht
  rcases conclude_next ht with hok | ⟨x, _, hx⟩
  · exact .inl (h t hok)
  · exact .inr ⟨x, hx⟩

/-- The same, said of the instructions whose completion is ordinary. -/
theorem endsAs_conclude_ordinary {s : State} {i : Instr} {r : Except Abort State} (h : ∀ t, r = .ok t → Ordinary s t) :
    EndsAs s i (conclude s r) :=
  endsAs_conclude fun t ht => .ordinary (h t ht)

theorem State.requirePrivilege_ok {s : State} {op : Config.PrivOp} {u : Unit} :
    s.requirePrivilege op = .ok u ↔ s.flag.p = true := by
  cases hp : s.flag.p with
  | true => simp [State.requirePrivilege_privileged hp]
  | false => simp [State.requirePrivilege_user hp]

section
variable (s : State) (i : Instr) (rd : Reg) (ea : Src)

theorem binaryOp_endsAs (f : Word → Word → Word) (c : Word → Word → Cond) : EndsAs s i (binaryOp f c rd ea s) := by
  refine endsAs_conclude_ordinary fun t ht => ?_
  obtain ⟨b, _, hb⟩ := bind_eq_ok.mp ht
  cases hb
  exact ((Ordinary.refl s).writeReg _ _).setCond _

theorem shiftOp_endsAs (op : ShiftOp) (f : Word → Nat → Word) : EndsAs s i (shiftOp op f rd ea s) := by
  refine endsAs_conclude_ordinary fun t ht => ?_
  obtain ⟨b, _, hb⟩ := bind_eq_ok.mp ht
  cases hb
  exact ((Ordinary.refl s).writeReg _ _).setCond _

theorem execLd_endsAs : EndsAs s i (execLd rd ea s) := by
  refine endsAs_conclude_ordinary fun t ht => ?_
  obtain ⟨v, _, hv⟩ := bind_eq_ok.mp ht
  cases hv
  exact (Ordinary.refl s).writeReg _ _

theorem execCmp_endsAs : EndsAs s i (execCmp rd ea s) := by
  refine endsAs_conclude_ordinary fun t ht => ?_
  obtain ⟨b, _, hb⟩ := bind_eq_ok.mp ht
  cases hb
  exact (Ordinary.refl s).setCond _

theorem execSt_endsAs (ea : Dst) : EndsAs s i (execSt rd ea s) := by
  refine endsAs_conclude_ordinary fun t ht => ?_
  cases ea with
  | byteIndirect rx => exact .of_write8 ht
  | _ => exact .of_write16 ht

theorem execMul_endsAs : EndsAs s i (execMul rd ea s) := by
  refine endsAs_conclude_ordinary fun t ht => ?_
  obtain ⟨b, _, hb⟩ := bind_eq_ok.mp ht
  cases hb
  exact ((Ordinary.refl s).writeReg _ _).setCond _

theorem State.freeResult_ordinary : Ordinary s (s.freeResult rd) :=
  ((((Ordinary.refl s).setDraws _).setDraws _).writeReg _ _).setCond _

theorem State.freePair_ordinary (hi : Reg) : Ordinary s (s.freePair rd hi) :=
  ((((((Ordinary.refl s).setDraws _).setDraws _).setDraws _).writeReg _ _).writeReg _ _).setCond _

theorem execDiv_endsAs : EndsAs s i (execDiv rd ea s) := by
  refine endsAs_conclude_ordinary fun t ht => ?_
  obtain ⟨b, _, hb⟩ := bind_eq_ok.mp ht
  obtain ⟨_, _, hb⟩ := bind_eq_ok.mp hb
  dsimp only at hb
  split at hb <;> cases hb
  · exact s.freeResult_ordinary rd
  · exact ((Ordinary.refl s).writeReg _ _).setCond _

theorem execMod_endsAs : EndsAs s i (execMod rd ea s) := by
  refine endsAs_conclude_ordinary fun t ht => ?_
  obtain ⟨b, _, hb⟩ := bind_eq_ok.mp ht
  obtain ⟨_, _, hb⟩ := bind_eq_ok.mp hb
  cases hb
  exact ((Ordinary.refl s).writeReg _ _).setCond _

theorem execMull_endsAs : EndsAs s i (execMull rd ea s) := by
  unfold execMull
  split
  · exact endsAs_refused
  · refine endsAs_conclude_ordinary fun t ht => ?_
    obtain ⟨b, _, hb⟩ := bind_eq_ok.mp ht
    cases hb
    exact (((Ordinary.refl s).writeReg _ _).writeReg _ _).setCond _

theorem execDivl_endsAs : EndsAs s i (execDivl rd ea s) := by
  unfold execDivl
  split
  · exact endsAs_refused
  · rename_i hi _
    refine endsAs_conclude_ordinary fun t ht => ?_
    obtain ⟨b, _, hb⟩ := bind_eq_ok.mp ht
    obtain ⟨_, _, hb⟩ := bind_eq_ok.mp hb
    dsimp only at hb
    split at hb <;> cases hb
    · exact s.freePair_ordinary rd hi
    · exact (((Ordinary.refl s).writeReg _ _).writeReg _ _).setCond _

theorem jumpIf_endsAs (taken : Bool) (ea : Target) : EndsAs s i (jumpIf taken ea s) := by
  refine endsAs_next ?_
  split
  · exact (Ordinary.refl s).setPc _
  · exact .refl s

theorem execCall_endsAs (ea : Target) : EndsAs s i (execCall ea s) := by
  refine endsAs_conclude_ordinary fun t ht => ?_
  obtain ⟨s1, hs1, ht⟩ := bind_eq_ok.mp ht
  cases ht
  exact ((Ordinary.of_write16 hs1).writeReg _ _).setPc _

theorem execPush_endsAs : EndsAs s i (execPush rd s) := by
  unfold execPush
  split
  · exact endsAs_refused
  · refine endsAs_conclude_ordinary fun t ht => ?_
    obtain ⟨s1, hs1, ht⟩ := bind_eq_ok.mp ht
    cases ht
    exact (Ordinary.of_write16 hs1).writeReg _ _

theorem execPop_endsAs : EndsAs s i (execPop rd s) := by
  unfold execPop
  split
  · exact endsAs_refused
  · refine endsAs_conclude_ordinary fun t ht => ?_
    obtain ⟨v, _, hv⟩ := bind_eq_ok.mp ht
    cases hv
    exact ((Ordinary.refl s).writeReg _ _).writeReg _ _

theorem execRet_endsAs : EndsAs s i (execRet s) := by
  refine endsAs_conclude_ordinary fun t ht => ?_
  obtain ⟨v, _, hv⟩ := bind_eq_ok.mp ht
  cases hv
  exact ((Ordinary.refl s).writeReg _ _).setPc _

theorem execReti_endsAs : EndsAs s .reti (execReti s) := by
  unfold execReti
  split
  · rename_i hp
    exact endsAs_conclude fun t ht => .returns hp ht
  · exact endsAs_refused

theorem execInp_endsAs (ea : Port) : EndsAs s i (execInp rd ea s) := by
  refine endsAs_conclude_ordinary fun t ht => ?_
  obtain ⟨_, _, ht⟩ := bind_eq_ok.mp ht
  obtain ⟨a, _, ht⟩ := bind_eq_ok.mp ht
  obtain ⟨⟨v, u⟩, hr, ht⟩ := bind_eq_ok.mp ht
  cases ht
  rcases State.ioRead_ok hr with rfl | rfl
  · exact (Ordinary.refl _).writeReg _ _
  · exact ((Ordinary.refl s).setDraws _).writeReg _ _

theorem execOut_endsAs (ea : Port) : EndsAs s (.out rd ea) (execOut rd ea s) := by
  refine endsAs_conclude fun t ht => ?_
  obtain ⟨_, hp, ht⟩ := bind_eq_ok.mp ht
  obtain ⟨a, _, ht⟩ := bind_eq_ok.mp ht
  rcases State.ioWrite_ok ht with rfl | rfl
  · exact .ordinary (.refl _)
  · exact .outputs rd ea _ (State.requirePrivilege_ok.mp hp)

theorem execEi_endsAs : EndsAs s i (execEi s) := by
  refine endsAs_conclude fun t ht => ?_
  obtain ⟨_, hp, ht⟩ := bind_eq_ok.mp ht
  cases ht
  exact .enable true (State.requirePrivilege_ok.mp hp)

theorem execDi_endsAs : EndsAs s i (execDi s) := by
  refine endsAs_conclude fun t ht => ?_
  obtain ⟨_, hp, ht⟩ := bind_eq_ok.mp ht
  cases ht
  exact .enable false (State.requirePrivilege_ok.mp hp)

theorem execHalt_endsAs : EndsAs s .halt (execHalt s) := by
  refine endsAs_conclude fun t ht => ?_
  obtain ⟨_, hp, ht⟩ := bind_eq_ok.mp ht
  cases ht
  exact .halts (State.requirePrivilege_ok.mp hp)

theorem execSvc_endsAs : EndsAs s i (execSvc s) :=
  fun _ ht => .inr ⟨.svc, ht⟩

end

/-- All that an instruction can do when it answers a next state. -/
theorem exec_endsAs (i : Instr) (s : State) : EndsAs s i (exec i s) := by
  cases i
  case no => exact endsAs_next (.refl s)
  case ld rd ea => exact execLd_endsAs s _ rd ea
  case st rd ea => exact execSt_endsAs s _ rd ea
  case ldFlag rd => exact endsAs_next ((Ordinary.refl s).writeReg rd _)
  case cmp rd ea => exact execCmp_endsAs s _ rd ea
  case mul rd ea => exact execMul_endsAs s _ rd ea
  case div rd ea => exact execDiv_endsAs s _ rd ea
  case mod rd ea => exact execMod_endsAs s _ rd ea
  case mull rd ea => exact execMull_endsAs s _ rd ea
  case divl rd ea => exact execDivl_endsAs s _ rd ea
  case add rd ea | sub rd ea => exact binaryOp_endsAs s _ rd ea _ _
  case and rd ea => exact binaryOp_endsAs s _ rd ea _ fun a b => logicFlags .and a b (a &&& b)
  case or rd ea => exact binaryOp_endsAs s _ rd ea _ fun a b => logicFlags .or a b (a ||| b)
  case xor rd ea => exact binaryOp_endsAs s _ rd ea _ fun a b => logicFlags .xor a b (a ^^^ b)
  case adds rd ea => exact binaryOp_endsAs s _ rd ea (fun a b => a + b * 2) fun a b => addFlags a (b * 2)
  case shla rd ea | shll rd ea | shra rd ea | shrl rd ea => exact shiftOp_endsAs s _ rd ea _ _
  case call ea => exact execCall_endsAs s _ ea
  case inp rd ea => exact execInp_endsAs s _ rd ea
  case out rd ea => exact execOut_endsAs s rd ea
  case push rd => exact execPush_endsAs s _ rd
  case pop rd => exact execPop_endsAs s _ rd
  case ret => exact execRet_endsAs s _
  case reti => exact execReti_endsAs s
  case ei => exact execEi_endsAs s _
  case di => exact execDi_endsAs s _
  case svc => exact execSvc_endsAs s _
  case halt => exact execHalt_endsAs s
  all_goals exact jumpIf_endsAs s _ _ _

end Sys2Proof.Machine
end

section
/-! PROOF of what one step can do, and of the invariants that follow: canonical memory, the ROM, privilege, user mode and
the MMU's window, the devices (R41 to R43, R49, R56, R201, R219, R222). -/

namespace Sys2Proof.Machine

/-! ### What a step can do -/

/-- All that the cycle can do from the boundary state `b` when it answers `t` (R201): accept an interrupt, take an
exception, of a fetch, of the decoding or of the instruction, or complete the instruction fetched. -/
inductive CycleCase (b t : State) : Prop
  | accepts (v : Irq) (h : acceptInterrupt v b = .next t)
  | raises (x : Exc) (pc : Word) (h : takeException x { b with pc := pc } = .next t)
  | completes (w : Word) (u : State) (i : Instr) (pc : Word) (hfetch : b.fetch16 = .ok (w, u))
      (hcode : (encode i).head? = some w) (h : Completed { b with pc := pc } i t)

theorem cycleCase_of_exec {b t u : State} {w w2 pc : Word} {mk : Word → Instr} (hfetch : b.fetch16 = .ok (w, u))
    (hdec : decodeFirst w = .ok mk) (h : exec (mk w2) { b with pc := pc } = .next t) : CycleCase b t := by
  rcases exec_endsAs _ _ t h with hdone | ⟨x, hx⟩
  · exact .completes w u _ pc hfetch (by rw [(encode_of_decodeFirst hdec w2).2, instrWords_head?]) hdone
  · exact .raises x pc hx

theorem rejectWord_next {r : DecodeStop} {s t : State} (h : rejectWord r s = .next t) :
    takeException .undefinedInstruction s = .next t := by
  cases r with
  | undefinedOp => exact h
  | _ => cases h

theorem cycleCase_of_fetchExecute {b t : State} (h : fetchExecute b = .next t) : CycleCase b t := by
  unfold fetchExecute at h
  split at h
  · rename_i r _
    rcases conclude_next h with hok | ⟨x, _, hx⟩
    · cases hok
    · exact .raises x b.pc hx
  · rename_i w s1 hfetch
    obtain ⟨_, _, _, _, rfl⟩ := State.fetch16_ok.mp hfetch
    split at h
    · exact .raises .undefinedInstruction _ (rejectWord_next h)
    · rename_i mk hdec
      unfold executeDecoded at h
      split at h
      · split at h
        · rcases conclude_next h with hok | ⟨x, _, hx⟩
          · cases hok
          · exact .raises x _ hx
        · rename_i w2 s2 hfetch2
          obtain ⟨_, _, _, _, rfl⟩ := State.fetch16_ok.mp hfetch2
          exact cycleCase_of_exec hfetch hdec h
      · exact cycleCase_of_exec hfetch hdec h

/-- A step that answers a next state was not halted, and is one of the cycle's cases. -/
theorem step_cases {s t : State} (h : step s = .next t) : s.boundary.halted = false ∧ CycleCase s.boundary t := by
  unfold step cycle at h
  split at h
  · cases h
  · rename_i hrun
    refine ⟨by simpa [haltWakesOnIrq] using hrun, ?_⟩
    split at h
    · rename_i v _
      exact .accepts v h
    · exact cycleCase_of_fetchExecute h

theorem State.boundary_quiet {s : State} (h : s.oracle = []) : s.boundary = s := by
  simp [State.boundary, h]

theorem acceptInterrupt_enters {v : Irq} {s t : State} (h : acceptInterrupt v s = .next t) :
    EntersTrap v.vector s.pc { s with irq := s.irq.set v false, halted := false } t :=
  entersTrap_of_trapEntry h

/-! ### Canonical memory (log 4) -/

theorem CpuStore.inv {s t : State} (h : CpuStore s t) (hs : s.Inv) : t.Inv := by
  unfold State.Inv
  cases h with
  | none e => rw [e]; exact hs
  | byte a pa b ha e => rw [e]; exact State.storeByte_mem_wf pa b hs
  | word a pa v ha e => rw [e]; exact State.storeWord_mem_wf pa v hs

theorem Completed.inv {s t : State} {i : Instr} (h : Completed s i t) (hs : s.Inv) : t.Inv := by
  cases h with
  | ordinary h => exact h.store.inv hs
  | returns hp h =>
    obtain ⟨f, pc, _, _, rfl⟩ := returnFromTrap_ok.mp h
    exact hs
  | _ => exact hs

theorem State.move_inv {s : State} (m : DeviceMove) (hs : s.Inv) : (s.move m).Inv := by
  cases m with
  | request v => simp only [State.move]; split <;> exact hs
  | storeByte a b => exact State.storeByte_mem_wf a b hs
  | _ => exact hs

theorem State.moves_inv {s : State} (ms : List DeviceMove) (hs : s.Inv) : (s.moves ms).Inv := by
  induction ms generalizing s with
  | nil => exact hs
  | cons m ms ih => exact ih (s.move_inv m hs)

theorem State.boundary_inv {s : State} (hs : s.Inv) : s.boundary.Inv := by
  unfold State.boundary
  split
  · exact hs
  · exact State.moves_inv (s := { s with oracle := _ }) _ hs

/-- Settles O12: the boundary's moves, trap entry and every completed instruction write inside the address space. -/
theorem stepKeepsMemoryCanonical : Obligations.StepKeepsMemoryCanonical := by
  intro s t hs h
  have hb : s.boundary.Inv := State.boundary_inv hs
  cases (step_cases h).2 with
  | accepts v h => exact trapEntry_inv h hb
  | raises x pc h => exact trapEntry_inv h hb
  | completes w u i pc _ _ h => exact h.inv hb

/-! ### The ROM (R43; log 37) -/

/-- Every byte of the ROM reads as before. -/
def SameRom (s t : State) : Prop := ∀ a : Nat, inRom a = true → t.byteAt a = s.byteAt a

theorem writable_eq_not_inRom (a : Nat) : writable a = !inRom a := by
  unfold writable
  cases inRom a <;> simp [vectorAreaWritable]

theorem SameBytesBut.sameRom {as : List Nat} {s t : State} (h : SameBytesBut as s t) : SameRom s t :=
  fun a ha => h a (.inr (by rw [writable_eq_not_inRom, ha]; rfl))

theorem SameRom.trans {s t u : State} (h : SameRom s t) (h' : SameRom t u) : SameRom s u :=
  fun a ha => (h' a ha).trans (h a ha)

theorem SameBytes.sameRom {s t : State} (h : SameBytes s t) : SameRom s t := fun a _ => h a

theorem State.storeByte_others (s : State) (a : Word) (b : Byte) : SameBytesBut [a.toNat] s (s.storeByte a b) :=
  fun _ hk => State.byteAt_storeByte_other (hk.imp_left fun h => by simpa using h)

theorem CpuStore.sameRom {s t : State} (h : CpuStore s t) : SameRom s t := by
  cases h with
  | none e => exact fun a _ => State.byteAt_congr e a
  | byte a pa b ha e => exact fun k hk => (State.byteAt_congr e k).trans ((s.storeByte_others pa b).sameRom k hk)
  | word a pa v ha e => exact fun k hk => (State.byteAt_congr e k).trans ((s.storeWord_others pa v).sameRom k hk)

theorem Completed.sameRom {s t : State} {i : Instr} (h : Completed s i t) : SameRom s t := by
  cases h with
  | ordinary h => exact h.store.sameRom
  | returns hp h =>
    obtain ⟨f, pc, _, _, rfl⟩ := returnFromTrap_ok.mp h
    exact fun _ _ => rfl
  | _ => exact fun _ _ => rfl

theorem EntersTrap.sameRom {vector savedPc : Word} {s t : State} (h : EntersTrap vector savedPc s t) :
    SameRom s t := by
  obtain ⟨_, _, _, _, _, _, hbytes, _⟩ := h
  exact hbytes.sameRom

theorem State.move_sameRom (s : State) (m : DeviceMove) : SameRom s (s.move m) := by
  cases m with
  | request v => intro a _; simp only [State.move]; split <;> rfl
  | storeByte a b => exact (s.storeByte_others a b).sameRom
  | _ => exact fun _ _ => rfl

theorem State.moves_sameRom (s : State) (ms : List DeviceMove) : SameRom s (s.moves ms) := by
  induction ms generalizing s with
  | nil => exact fun _ _ => rfl
  | cons m ms ih => exact (s.move_sameRom m).trans (ih _)

theorem State.boundary_sameRom (s : State) : SameRom s s.boundary := by
  unfold State.boundary
  split
  · exact fun _ _ => rfl
  · exact State.moves_sameRom { s with oracle := _ } _

theorem CycleCase.sameRom {b t : State} (h : CycleCase b t) : SameRom b t := by
  cases h with
  | accepts v h => exact (acceptInterrupt_enters h).sameRom
  | raises x pc h => exact (entersTrap_of_takeException h).sameRom
  | completes w u i pc _ _ h => exact h.sameRom

theorem inRom_iff {a : Nat} : inRom a = true ↔ 0xF000 ≤ a ∧ a ≤ 0xFFDF := by
  simp [inRom]

/-- Settles O13: the moves of the boundary and the cycle's cases reach the ROM only through stores, which it ignores. -/
theorem stepNeverChangesRom : Obligations.StepNeverChangesRom := by
  intro s t a h hlow hhigh
  exact (s.boundary_sameRom.trans (step_cases h).2.sameRom) a (inRom_iff.mpr ⟨hlow, hhigh⟩)

/-! ### Privilege (R219) -/

theorem Exc.vector_inVectors (x : Exc) : 0xFFE0 ≤ x.vector.toNat := by cases x <;> decide

theorem Irq.vector_inVectors (v : Irq) : 0xFFE0 ≤ v.vector.toNat := by cases v <;> decide

/-- A trap was entered through some vector from `s`: what O14 says of a rise of P. -/
def TrapEntered (s t : State) : Prop :=
  ∃ vector : Word, 0xFFE0 ≤ vector.toNat ∧ vector.getLsbD 0 = false ∧ t.pc = t.wordAt vector ∧
    t.get .ssp = s.get .ssp - 4 ∧ t.flag.e = false ∧ HoldsWord t (s.get .ssp - 4) s.flag.toWord

theorem EntersTrap.trapEntered {vector savedPc : Word} {s t : State} (h : EntersTrap vector savedPc s t)
    (hhigh : 0xFFE0 ≤ vector.toNat) (heven : vector.getLsbD 0 = false) : TrapEntered s t := by
  obtain ⟨hflag, hssp, _, hframe, hpc, _⟩ := h
  exact ⟨vector, hhigh, heven, hpc, hssp, by rw [hflag], hframe⟩

/-- A completed instruction changes P only by RETI, in privileged mode. -/
theorem Completed.privilege {s t : State} {i : Instr} (h : Completed s i t) :
    t.flag.p = s.flag.p ∨ (s.flag.p = true ∧ i = .reti ∧ t.flag.p = (s.wordAt (s.get .ssp)).getLsbD 6) := by
  cases h with
  | ordinary h => exact .inl h.p
  | returns hp h =>
    obtain ⟨f, pc, hf, _, rfl⟩ := returnFromTrap_ok.mp h
    obtain ⟨pa, hpa, rfl⟩ := State.read16_ok.mp hf
    rw [State.readReg_sp, if_pos hp, State.wordAddr_ok, State.translate_privileged hp] at hpa
    obtain ⟨_, ⟨⟩⟩ := hpa
    exact .inr ⟨hp, rfl, rfl⟩
  | _ => exact .inl rfl

theorem CycleCase.of_p_rises {b t : State} (h : CycleCase b t) (hb : b.flag.p = false) (ht : t.flag.p = true) :
    TrapEntered b t := by
  cases h with
  | accepts v h => exact (acceptInterrupt_enters h).trapEntered v.vector_inVectors v.vector_even
  | raises x pc h => exact (entersTrap_of_takeException h).trapEntered x.vector_inVectors x.vector_even
  | completes w u i pc _ _ h =>
    rcases h.privilege with hp | ⟨hp, _⟩
    · exact absurd (ht.symm.trans (hp.trans hb)) (by decide)
    · exact absurd (hp.symm.trans hb) (by decide)

theorem CycleCase.of_p_falls {b t : State} (h : CycleCase b t) (hb : b.flag.p = true) (ht : t.flag.p = false) :
    (∃ u, b.fetch16 = .ok (0xD400, u)) ∧ (b.wordAt (b.get .ssp)).getLsbD 6 = false := by
  cases h with
  | accepts v h => exact absurd (ht.symm.trans (acceptInterrupt_enters h).privileged) (by decide)
  | raises x pc h => exact absurd (ht.symm.trans (entersTrap_of_takeException h).privileged) (by decide)
  | completes w u i pc hfetch hcode h =>
    rcases h.privilege with hp | ⟨_, rfl, hp⟩
    · exact absurd (ht.symm.trans (hp.trans hb)) (by decide)
    · obtain rfl : w = 0xD400 := (Option.some.inj hcode).symm
      exact ⟨⟨u, hfetch⟩, hp.symm.trans ht⟩

/-- Settles O14: of the cycle's cases only the two trap entries set P, and only RETI clears it. -/
theorem privilegeTransitions : Obligations.PrivilegeTransitions := by
  intro s t hquiet h
  have hcase := (step_cases h).2
  rw [State.boundary_quiet hquiet] at hcase
  exact ⟨hcase.of_p_rises, hcase.of_p_falls⟩

/-! ### User mode (R222) -/

/-- In user mode only the ordinary instructions complete. -/
theorem Completed.ordinary_of_user {s t : State} {i : Instr} (h : Completed s i t) (hp : s.flag.p = false) :
    Ordinary s t := by
  cases h with
  | ordinary h => exact h
  | enable b h => exact absurd (h.symm.trans hp) (by decide)
  | halts h => exact absurd (h.symm.trans hp) (by decide)
  | outputs rd ea io h => exact absurd (h.symm.trans hp) (by decide)
  | returns h => exact absurd (h.symm.trans hp) (by decide)

/-- A user-mode step that stays in user mode completed an ordinary instruction. -/
theorem CycleCase.ordinary_of_user {b t : State} (h : CycleCase b t) (hb : b.flag.p = false) (ht : t.flag.p = false) :
    ∃ pc, Ordinary { b with pc := pc } t := by
  cases h with
  | accepts v h => exact absurd (ht.symm.trans (acceptInterrupt_enters h).privileged) (by decide)
  | raises x pc h => exact absurd (ht.symm.trans (entersTrap_of_takeException h).privileged) (by decide)
  | completes w u i pc _ _ h => exact ⟨pc, h.ordinary_of_user hb⟩

theorem CycleCase.devices_of_user {b t : State} (h : CycleCase b t) (hrun : b.halted = false) (hb : b.flag.p = false) :
    t.io = b.io ∧ t.halted = b.halted := by
  cases h with
  | accepts v h =>
    obtain ⟨_, _, hio, hhalted⟩ := (acceptInterrupt_enters h).keeps
    exact ⟨hio, hhalted.trans hrun.symm⟩
  | raises x pc h =>
    obtain ⟨_, _, hio, hhalted⟩ := (entersTrap_of_takeException h).keeps
    exact ⟨hio, hhalted⟩
  | completes w u i pc _ _ h => exact ⟨(h.ordinary_of_user hb).io, (h.ordinary_of_user hb).halted⟩

/-- Settles O15: trap entry keeps the devices and sets P, and what else user mode completes is ordinary. -/
theorem userModeProtects : Obligations.UserModeProtects := by
  intro s t hquiet hp h
  obtain ⟨hrun, hcase⟩ := step_cases h
  rw [State.boundary_quiet hquiet] at hrun hcase
  obtain ⟨hio, hhalted⟩ := hcase.devices_of_user hrun hp
  refine ⟨hio, hhalted, fun ht => ?_⟩
  obtain ⟨pc, hord⟩ := hcase.ordinary_of_user hp ht
  exact ⟨hord.ssp hp, hord.e, hord.irq⟩

/-! ### The MMU's window (R56) -/

/-- In user mode with the MMU on, an address is translated when it is below the limit, by adding the base. -/
theorem State.translate_mapped {s : State} (hp : s.flag.p = false) (hm : s.io.mmu.enable = true) {a pa : Word}
    (h : s.translate a = .ok pa) : a.toNat < s.io.mmu.limit.toNat ∧ pa = a + s.io.mmu.base := by
  rw [State.translate_ok, mmuTranslate] at h
  simp only [hp, hm, Bool.not_true, Bool.or_self, Bool.false_eq_true, if_false] at h
  split at h
  · cases h
  · rename_i hlimit
    exact ⟨by simpa [BitVec.le_def] using hlimit, by simpa using h.symm⟩

/-- The physical address `pa` lies in the window of `limit` bytes from `base`. -/
def InWindow (m : Mmu) (pa : Nat) : Prop := ∃ k : Nat, k < m.limit.toNat ∧ pa = (m.base.toNat + k) % 65536

theorem inWindow_translated {s : State} (hp : s.flag.p = false) (hm : s.io.mmu.enable = true) {a pa : Word}
    (h : s.translate a = .ok pa) : InWindow s.io.mmu pa.toNat := by
  obtain ⟨hlt, rfl⟩ := State.translate_mapped hp hm h
  exact ⟨a.toNat, hlt, by rw [BitVec.toNat_add, Nat.add_comm]⟩

/-- The second byte of a word below an even limit is below it too. -/
theorem inWindow_second {s : State} (hp : s.flag.p = false) (hm : s.io.mmu.enable = true)
    (heven : s.io.mmu.limit.getLsbD 0 = false) {a pa : Word} (h : s.wordAddr a = .ok pa) :
    InWindow s.io.mmu (pa + 1).toNat := by
  obtain ⟨ha, ht⟩ := State.wordAddr_ok.mp h
  obtain ⟨hlt, rfl⟩ := State.translate_mapped hp hm ht
  simp only [BitVec.getLsbD, Nat.testBit_zero, decide_eq_false_iff_not] at ha heven
  exact ⟨a.toNat + 1, by omega, by bv_omega⟩

theorem CpuStore.outside_window {s t : State} (h : CpuStore s t) (hp : s.flag.p = false)
    (hm : s.io.mmu.enable = true) (heven : s.io.mmu.limit.getLsbD 0 = false) {k : Nat}
    (hk : ¬ InWindow s.io.mmu k) : t.byteAt k = s.byteAt k := by
  cases h with
  | none e => exact State.byteAt_congr e k
  | byte a pa b ha e =>
    have hne : k ≠ pa.toNat := fun hk' => hk (hk' ▸ inWindow_translated hp hm ha)
    exact (State.byteAt_congr e k).trans (State.byteAt_storeByte_other (.inl hne))
  | word a pa v ha e =>
    have hne : k ≠ pa.toNat := fun hk' => hk (hk' ▸ inWindow_translated hp hm (State.wordAddr_ok.mp ha).2)
    have hne' : k ≠ (pa + 1).toNat := fun hk' => hk (hk' ▸ inWindow_second hp hm heven ha)
    have hout : k ∉ [pa.toNat, (pa + 1).toNat] := by
      simp only [List.mem_cons, List.not_mem_nil, or_false, hne, hne', not_false_iff]
    exact (State.byteAt_congr e k).trans (s.storeWord_others pa v k (.inl hout))

/-- Settles O16: what stays in user mode is ordinary, and its one store went through the check. -/
theorem mmuConfinesUserStores : Obligations.MmuConfinesUserStores := by
  intro s t a hquiet hp hm heven h ht hout
  have hcase := (step_cases h).2
  rw [State.boundary_quiet hquiet] at hcase
  obtain ⟨pc, hord⟩ := hcase.ordinary_of_user hp ht
  exact hord.store.outside_window hp hm heven fun ⟨k, hk, hak⟩ => hout k hk hak

/-! ### Devices, the halt and the requests -/

theorem Completed.keeps {s t : State} {i : Instr} (h : Completed s i t) :
    t.irq = s.irq ∧ t.oracle = s.oracle ∧ ((∀ rd ea, i ≠ .out rd ea) → t.io = s.io) ∧
      (i ≠ .halt → t.halted = s.halted) := by
  cases h with
  | ordinary h => exact ⟨h.irq, h.oracle, fun _ => h.io, fun _ => h.halted⟩
  | enable b => exact ⟨rfl, rfl, fun _ => rfl, fun _ => rfl⟩
  | halts => exact ⟨rfl, rfl, fun _ => rfl, fun hne => absurd rfl hne⟩
  | outputs rd ea io => exact ⟨rfl, rfl, fun hne => absurd rfl (hne rd ea), fun _ => rfl⟩
  | returns hp h =>
    obtain ⟨f, pc, _, _, rfl⟩ := returnFromTrap_ok.mp h
    exact ⟨rfl, rfl, fun _ => rfl, fun _ => rfl⟩

theorem State.moves_irq_get (ms : List DeviceMove) (s : State) (v : Irq) :
    (s.moves ms).irq.get v = true ↔
      s.irq.get v = true ∨ (DeviceMove.request v ∈ ms ∧ s.io.mayRequest v = true) := by
  induction ms generalizing s with
  | nil => simp [State.moves]
  | cons m ms ih =>
    rw [State.moves, ih, State.move_mayRequest, State.move_irq_get]
    simp only [Bool.or_eq_true, Bool.and_eq_true, decide_eq_true_eq, List.mem_cons, eq_comm (a := m)]
    tauto

theorem State.boundary_irq_get (s : State) (v : Irq) :
    s.boundary.irq.get v = true ↔
      s.irq.get v = true ∨
        ∃ ms rest, s.oracle = ms :: rest ∧ DeviceMove.request v ∈ ms ∧ s.io.mayRequest v = true := by
  unfold State.boundary
  split
  · rename_i hquiet; simp [hquiet]
  · rename_i ms rest horacle
    rw [State.moves_irq_get]
    simp [horacle]

/-- Settles O17, by the cases of an instruction's end, the moves of a boundary, and the enable bits themselves. -/
theorem instructionsKeepDevices : Obligations.InstructionsKeepDevices := by
  refine ⟨fun i s t h => ?_, State.boundary_irq_get,
    fun d => ⟨rfl, rfl, rfl, rfl, rfl, rfl, rfl, rfl, rfl, rfl⟩⟩
  rcases exec_endsAs i s t h with hdone | ⟨x, hx⟩
  · exact hdone.keeps
  · obtain ⟨hirq, horacle, hio, hhalted⟩ := (entersTrap_of_takeException hx).keeps
    exact ⟨hirq, horacle, fun _ => hio, fun _ => hhalted⟩

end Sys2Proof.Machine
end

section
/-! PROOF of the step around an instruction: the fetch, what stops or raises before an instruction runs, the acceptance
of an interrupt, the values after reset (R17, R200 to R206, R250 to R254). -/

namespace Sys2Proof.Machine

/-! ### The cycle at a boundary without an accepted interrupt -/

theorem State.pending_none {s : State} (h : NoInterrupt s) : s.pending = none := by
  unfold State.pending
  rcases h with he | hirq
  · simp [he]
  · split
    · simp [hirq]
    · rfl

theorem step_of_noInterrupt {s : State} (hrun : s.boundary.halted = false) (hno : NoInterrupt s.boundary) :
    step s = fetchExecute s.boundary := by
  simp [step, cycle, hrun, State.pending_none hno]

theorem fetchExecute_error {s : State} {r : Abort} (h : s.fetch16 = .error r) :
    fetchExecute s = conclude s (.error r) := by
  simp [fetchExecute, h]

theorem fetchExecute_reject {s u : State} {w : Word} {r : DecodeStop} (hfetch : s.fetch16 = .ok (w, u))
    (hdec : decodeFirst w = .error r) : fetchExecute s = rejectWord r u := by
  simp [fetchExecute, hfetch, hdec]

section
variable {s u : State} {w : Word} {mk : Word → Instr} (hfetch : s.fetch16 = .ok (w, u)) (hdec : decodeFirst w = .ok mk)
include hfetch hdec

theorem fetchExecute_one (hone : hasSecondWord w = false) : fetchExecute s = exec (mk 0) u := by
  simp [fetchExecute, hfetch, hdec, executeDecoded, hone]

theorem fetchExecute_two (htwo : hasSecondWord w = true) {w2 : Word} {u2 : State} (h2 : u.fetch16 = .ok (w2, u2)) :
    fetchExecute s = exec (mk w2) u2 := by
  simp [fetchExecute, hfetch, hdec, executeDecoded, htwo, h2]

theorem fetchExecute_second_error (htwo : hasSecondWord w = true) {r : Abort} (h2 : u.fetch16 = .error r) :
    fetchExecute s = conclude u (.error r) := by
  simp [fetchExecute, hfetch, hdec, executeDecoded, htwo, h2]

end

/-! ### The fetch and the instruction it runs -/

theorem fetch16_iff_fetchesFrom (s u : State) (w : Word) :
    s.fetch16 = .ok (w, u) ↔
      ∃ pa, FetchesFrom s pa ∧ w = s.byteAt pa.toNat ++ s.byteAt (pa + 1).toNat ∧ u = { s with pc := s.pc + 2 } := by
  simp only [State.fetch16_ok, fetchesFrom_iff, and_assoc]
  rfl

theorem fetch16_of_fetchesFrom {s : State} {pa : Word} (h : FetchesFrom s pa) :
    s.fetch16 = .ok (s.byteAt pa.toNat ++ s.byteAt (pa + 1).toNat, { s with pc := s.pc + 2 }) :=
  (fetch16_iff_fetchesFrom _ _ _).mpr ⟨pa, h, rfl, rfl⟩

theorem fetch16_state {s u : State} {w : Word} (h : s.fetch16 = .ok (w, u)) : u = { s with pc := s.pc + 2 } := by
  obtain ⟨_, _, _, hu⟩ := (fetch16_iff_fetchesFrom s u w).mp h
  exact hu

theorem decode_ok {w1 w2 : Word} {i : Instr} : decode w1 w2 = .ok i ↔ ∃ mk, decodeFirst w1 = .ok mk ∧ mk w2 = i := by
  unfold decode
  split <;> simp_all

/-- A first word without a second one decodes to the same instruction whatever follows. -/
theorem decodeFirst_one_const {w : Word} {mk : Word → Instr} (hdec : decodeFirst w = .ok mk)
    (hone : hasSecondWord w = false) (w2 : Word) : mk w2 = mk 0 := by
  have henc : encode (mk w2) = encode (mk 0) := by
    rw [(encode_of_decodeFirst hdec w2).2, (encode_of_decodeFirst hdec 0).2]
    simp [instrWords, hone]
  have h2 := decodeOfEncode (mk w2) [] (encode_of_decodeFirst hdec w2).1
  have h0 := decodeOfEncode (mk 0) [] (encode_of_decodeFirst hdec 0).1
  rw [henc, h0] at h2
  simpa using h2.symm

/-- Settles O6: the fetch by its checks, the length by the words of the encoding, the step by the cycle's equations. -/
theorem stepRunsDecodedInstruction : Obligations.StepRunsDecodedInstruction := by
  refine ⟨fetch16_iff_fetchesFrom, fun w1 w2 i h => ?_, fun s pa hrun hno hpa => ?_⟩
  · obtain ⟨mk, hdec, rfl⟩ := decode_ok.mp h
    rw [(encode_of_decodeFirst hdec w2).2, instrWords_length]
  · have hfetch := fetch16_of_fetchesFrom hpa
    refine ⟨hfetch, fun hone w2 i h => ?_, fun htwo pa2 hpa2 => ?_⟩
    · obtain ⟨mk, hdec, rfl⟩ := decode_ok.mp h
      rw [step_of_noInterrupt hrun hno, fetchExecute_one hfetch hdec hone, decodeFirst_one_const hdec hone w2]
    · have hpc : s.boundary.pc + 2 + 2 = s.boundary.pc + 4 := by bv_omega
      have hfetch2 := fetch16_of_fetchesFrom hpa2
      rw [hpc] at hfetch2
      refine ⟨hfetch2, fun i h => ?_⟩
      obtain ⟨mk, hdec, rfl⟩ := decode_ok.mp h
      rw [step_of_noInterrupt hrun hno, fetchExecute_two hfetch hdec htwo hfetch2]

/-! ### Exceptions of the fetch and of the decoding -/

theorem fetch16_error_of_wordAddr {s : State} {r : Abort} (h : s.wordAddr s.pc = .error r) : s.fetch16 = .error r := by
  simp [State.fetch16, h]

/-- The MMU turns an address away that is not below the limit (R56). -/
theorem State.translate_beyond {s : State} (hp : s.flag.p = false) (hm : s.io.mmu.enable = true) {a : Word}
    (ha : s.io.mmu.limit.toNat ≤ a.toNat) : s.translate a = .error (.raise .memoryProtection) := by
  simp [State.translate, mmuTranslate, hp, hm, BitVec.le_def, ha]

/-- Settles O8, by the cycle's equation for each place where a fetch or the decoding raises. -/
theorem stepTakesFetchExceptions : Obligations.StepTakesFetchExceptions := by
  intro s hrun hno
  rw [step_of_noInterrupt hrun hno]
  refine ⟨fun hodd => ?_, fun heven hp hm hlimit => ?_, fun w u hfetch hblank => ?_,
    fun w u mk x hfetch hdec htwo hx => ?_⟩
  · rw [fetchExecute_error (fetch16_error_of_wordAddr (State.wordAddr_odd hodd)), conclude_raise]
  · have haddr : s.boundary.wordAddr s.boundary.pc = .error (.raise .memoryProtection) := by
      rw [State.wordAddr_even heven, State.translate_beyond hp hm hlimit]
    rw [fetchExecute_error (fetch16_error_of_wordAddr haddr), conclude_raise]
  · obtain rfl := fetch16_state hfetch
    rw [fetchExecute_reject hfetch ((undefinedOpBytes.1 w).mpr hblank)]
    rfl
  · obtain rfl := fetch16_state hfetch
    rw [fetchExecute_second_error hfetch hdec htwo hx, conclude_raise]

/-! ### Stops -/

theorem Reg.ofField_eq_none (f : BitVec 4) : Reg.ofField f = none ↔ f = 0xF := by
  revert f; decide

theorem step_of_unknownRom {s : State} (hrun : s.boundary.halted = false) (hno : NoInterrupt s.boundary)
    (hrom : FetchesUnknownRom s.boundary) : step s = .refused .executeFromUnknownRom := by
  rw [step_of_noInterrupt hrun hno, fetchExecute_error (State.fetch16_unknownRom hrom), conclude_refuse]

/-- Settles O9: the halt before the cycle, the decoder's stops by their names, the unknown ROM at either fetch. -/
theorem stepStops : Obligations.StepStops := by
  refine ⟨Reg.ofField_eq_none, fun s => ⟨fun hhalted => ?_, fun hrun hno => ?_⟩⟩
  · simp [step, cycle, hhalted, haltWakesOnIrq]
  · have hreject {r : DecodeStop} {w : Word} {u : State} (hfetch : s.boundary.fetch16 = .ok (w, u))
        (hdec : decodeFirst w = .error r) : step s = rejectWord r u := by
      rw [step_of_noInterrupt hrun hno, fetchExecute_reject hfetch hdec]
    refine ⟨fun w u => hreject, fun w u => hreject, fun w u => hreject, fun w u => hreject, fun hrom => ?_,
      fun w u mk hfetch hdec htwo hrom => ?_⟩
    · exact step_of_unknownRom hrun hno hrom
    · rw [step_of_noInterrupt hrun hno,
        fetchExecute_second_error hfetch hdec htwo (State.fetch16_unknownRom hrom), conclude_refuse]

/-! ### Reset -/

/-- Settles O10: reset's fields as they stand; its first fetch meets the unknown ROM. -/
theorem resetValues : Obligations.ResetValues := by
  refine ⟨rfl, by decide, rfl, fun v => by cases v <;> rfl, rfl, rfl, fun t => by cases t <;> exact ⟨rfl, rfl⟩,
    fun p => by cases p <;> exact ⟨rfl, rfl⟩, rfl, rfl, ?_⟩
  exact step_of_unknownRom rfl (.inl rfl) ⟨0xF000, rfl, .inl ⟨by decide, by decide, rfl⟩⟩

/-- Settles O11: nothing is listed after reset. -/
theorem resetMemoryCanonical : Obligations.ResetMemoryCanonical := rfl

/-! ### Acceptance of an interrupt -/

/-- The requests are looked at in the order of their vectors (R204). -/
theorem irqPriority_split (v : Irq) :
    ∃ before after, irqPriority = before ++ v :: after ∧ ∀ v' ∈ before, v'.vector.toNat < v.vector.toNat :=
  ⟨irqPriority.takeWhile (· != v), (irqPriority.dropWhile (· != v)).tail,
    by cases v <;> decide, by cases v <;> decide⟩

/-- The pending request of lowest vector address is the one to accept (R204). -/
theorem State.pending_of_lowest {s : State} {v : Irq} (he : s.flag.e = true) (hv : s.irq.get v = true)
    (hlow : ∀ v', s.irq.get v' = true → v.vector.toNat ≤ v'.vector.toNat) : s.pending = some v := by
  obtain ⟨before, after, hsplit, hbefore⟩ := irqPriority_split v
  rw [State.pending, if_pos he, List.find?_eq_some_iff_append]
  refine ⟨hv, before, after, hsplit, fun v' hv' => ?_⟩
  by_contra hget
  have := hlow v' (by simpa using hget)
  have := hbefore v' hv'
  omega

theorem step_of_pending {s : State} {v : Irq} (hrun : s.boundary.halted = false) (hv : s.boundary.pending = some v) :
    step s = acceptInterrupt v s.boundary := by
  simp [step, cycle, hrun, hv]

/-- Settles O7: the lowest pending request is found by the priority list, and trap entry does the rest. -/
theorem stepAcceptsInterrupt : Obligations.StepAcceptsInterrupt := by
  intro s v hrun he hv hlow
  rw [step_of_pending hrun (State.pending_of_lowest he hv hlow)]
  refine ⟨fun heven => ?_, fun hodd => trapEntry_odd hodd, by decide⟩
  obtain ⟨t, ht⟩ : ∃ t, acceptInterrupt v s.boundary = .next t := ⟨_, trapEntry_even heven v.vector_even⟩
  have henters := acceptInterrupt_enters ht
  obtain ⟨hirq, _⟩ := henters.keeps
  have hfrom : { s.boundary with irq := t.irq } =
      { s.boundary with irq := s.boundary.irq.set v false, halted := false } := by simp [hirq, hrun]
  exact ⟨t, ht, hfrom ▸ henters, by simp [hirq, Irqs.get_set], fun v' hne => by simp [hirq, Irqs.get_set, hne]⟩

end Sys2Proof.Machine
end

section
/-! PROOF of the memory's words, the checks of an access, the addressing modes and the assembler's short forms
(R41 to R50, R56, R78 to R80, R84). -/

namespace Sys2Proof.Machine

/-! ### Words in memory -/

theorem State.byteAt_of_read {s : State} {k : Nat} {b : Byte} (h : s.mem.read k = some b) : s.byteAt k = b := by
  rw [State.byteAt_eq, h]; rfl

theorem State.storeByte_of_not_writable {s : State} {a : Word} (b : Byte) (h : writable a.toNat = false) :
    s.storeByte a b = s := by
  simp [State.storeByte, h]

theorem State.storeWord_inRom {s : State} {a : Word} (v : Word) (h : inRom a.toNat = true)
    (h' : inRom (a + 1).toNat = true) : s.storeWord a v = s := by
  rw [State.storeWord, State.storeByte_of_not_writable _ (by rw [writable_eq_not_inRom, h']; rfl),
    State.storeByte_of_not_writable _ (by rw [writable_eq_not_inRom, h]; rfl)]

/-- Settles O19, by the read-over-write laws of a word store. -/
theorem wordStoreReadsBack : Obligations.WordStoreReadsBack := by
  intro s a v
  have hholds := s.storeWord_holds a v
  refine ⟨rfl, fun k b => State.byteAt_of_read, fun k => ⟨writable_eq_not_inRom k, inRom_iff⟩, fun hlow hhigh => ?_,
    fun k hk hk' => s.storeWord_others a v k (.inl ?_), State.storeWord_inRom v⟩
  · exact ⟨State.wordAt_eq_of_holdsWord hholds hlow hhigh, hholds.1 hlow, hholds.2 hhigh⟩
  · simp only [List.mem_cons, List.not_mem_nil, or_false, hk, hk', not_false_iff]

/-! ### The checks of an access -/

theorem State.translate_below {s : State} (hp : s.flag.p = false) (hm : s.io.mmu.enable = true) {a : Word}
    (ha : a.toNat < s.io.mmu.limit.toNat) : s.translate a = .ok (a + s.io.mmu.base) := by
  have : ¬ s.io.mmu.limit.toNat ≤ a.toNat := by omega
  simp [State.translate, mmuTranslate, hp, hm, BitVec.le_def, this]

theorem State.translate_unmapped {s : State} (h : s.flag.p = true ∨ s.io.mmu.enable = false) (a : Word) :
    s.translate a = .ok a := by
  rcases h with h | h <;> simp [State.translate, mmuTranslate, h]

section
variable {s : State} {a : Word}

theorem State.byte_access_ok {pa : Word} (h : s.translate a = .ok pa) (b : Byte) :
    s.read8 a = .ok (s.byteAt pa.toNat) ∧ s.write8 a b = .ok (s.storeByte pa b) :=
  ⟨State.read8_ok.mpr ⟨pa, h, rfl⟩, State.write8_ok.mpr ⟨pa, h, rfl⟩⟩

theorem State.byte_access_error {r : Abort} (h : s.translate a = .error r) (b : Byte) :
    s.read8 a = .error r ∧ s.write8 a b = .error r := by
  simp [State.read8, State.write8, h]

theorem State.word_access_ok {pa : Word} (h : s.wordAddr a = .ok pa) (v : Word) :
    s.read16 a = .ok (s.wordAt pa) ∧ s.write16 a v = .ok (s.storeWord pa v) :=
  ⟨State.read16_ok.mpr ⟨pa, h, rfl⟩, State.write16_ok.mpr ⟨pa, h, rfl⟩⟩

theorem State.word_access_error {r : Abort} (h : s.wordAddr a = .error r) (v : Word) :
    s.read16 a = .error r ∧ s.write16 a v = .error r := by
  simp [State.read16, State.write16, h]

end

/-- Settles O20: each access follows its check, and the check is said once for each of the three situations. -/
theorem memoryAccessChecks : Obligations.MemoryAccessChecks := by
  intro s a v b
  refine ⟨fun hodd => ?_, State.wordAddr_even, fun hp hm ha => ?_, fun hp hm ha => ?_, fun h => ?_⟩
  · have haddr : s.wordAddr a = .error (.raise .oddAddress) := State.wordAddr_odd hodd
    exact ⟨haddr, State.word_access_error haddr v⟩
  · have ht := State.translate_beyond hp hm ha
    exact ⟨ht, fun heven => State.word_access_error ((State.wordAddr_even heven).trans ht) v,
      State.byte_access_error ht b⟩
  · have ht := State.translate_below hp hm ha
    exact ⟨ht, fun heven => State.word_access_ok ((State.wordAddr_even heven).trans ht) v, State.byte_access_ok ht b⟩
  · have ht := State.translate_unmapped h a
    exact ⟨ht, fun heven => State.word_access_ok ((State.wordAddr_even heven).trans ht) v, State.byte_access_ok ht b⟩

/-! ### Sign extension and the addressing modes -/

theorem sext16_eq_ofInt (v : BitVec 4) : sext16 v = BitVec.ofInt 16 v.toInt := rfl

theorem sext16_toInt (v : BitVec 4) : (sext16 v).toInt = v.toInt := by
  unfold sext16
  exact BitVec.toInt_signExtend_of_le (by decide)

/-- Settles O22: `sext_16` keeps the number, and is the operand and the displacement by definition. -/
theorem signExtension : Obligations.SignExtension := by
  intro v
  refine ⟨fun k hk => ?_, fun k hk hk' => ?_, ?_, ?_, ?_, fun s => rfl, fun s => rfl⟩
  · have hk' : k < 16 := by omega
    rw [sext16, BitVec.getLsbD_signExtend, if_pos hk]
    simp [hk']
  · rw [sext16, BitVec.getLsbD_signExtend, if_neg (by omega), BitVec.msb_eq_getLsbD_last]
    simp [hk']
  · rw [sext16_toInt]; revert v; decide
  · rw [sext16_toInt]; revert v; decide
  · rw [sext16_toInt]; revert v; decide

theorem eaIndexed_eq (s : State) (dsp : Word) (rx : Reg) :
    eaIndexed s dsp rx = BitVec.ofNat 16 (dsp.toNat + (s.readReg rx).toNat) := by
  rw [eaIndexed, BitVec.ofNat_add, BitVec.ofNat_toNat, BitVec.ofNat_toNat]
  simp

theorem eaFpRel_eq (s : State) (d4 : BitVec 4) :
    eaFpRel s d4 = BitVec.ofInt 16 (2 * d4.toInt + ((s.get .fp).toNat : Int)) := by
  rw [eaFpRel, sext16_eq_ofInt, BitVec.ofInt_add, BitVec.ofInt_mul, BitVec.ofInt_natCast, BitVec.ofNat_toNat,
    BitVec.setWidth_eq, BitVec.mul_comm]
  rfl

theorem zext16_eq_ofNat (b : Byte) : zext16 b = BitVec.ofNat 16 b.toNat := by
  apply BitVec.eq_of_toNat_eq
  simp [zext16]

/-- Settles O21: the sums of the two computed addresses, the byte operand by its read; the other modes as they stand. -/
theorem operandForms : Obligations.OperandForms := by
  intro s
  refine ⟨fun _ => rfl, fun dsp rx => by rw [operand, eaIndexed_eq], fun _ => rfl, fun d4 => by rw [operand, eaFpRel_eq],
    fun _ => rfl, fun _ => rfl, fun _ => rfl, fun rx b hb => ?_, fun rx r hr => ?_, fun _ => ⟨rfl, rfl, rfl⟩,
    fun dsp rx => ⟨eaIndexed_eq s dsp rx, eaIndexed_eq s dsp rx⟩, fun d4 => eaFpRel_eq s d4,
    fun _ => ⟨rfl, rfl, rfl⟩, fun _ => ⟨rfl, rfl⟩, fun ea => ?_, fun ea => ?_⟩
  · rw [operand, hb, ok_bind, zext16_eq_ofNat]
  · simp [operand, hr]
  · cases ea <;> simp [dstIsByte]
  · cases ea <;> simp [portIsByte]

/-! ### The assembler's short forms -/

/-- A word of −8 to 7 is the sign extension of its low four bits (R84). -/
theorem sext16_truncate {v : Word} (hlow : -8 ≤ v.toInt) (hhigh : v.toInt ≤ 7) : sext16 (v.truncate 4) = v := by
  have hv : v = BitVec.ofInt 16 v.toInt := by simp
  generalize v.toInt = z at *
  subst hv
  interval_cases z <;> decide

/-- An even word of −16 to 14 is twice the sign extension of its bits 4 to 1 (R84). -/
theorem sext16_half {v : Word} (hlow : -16 ≤ v.toInt) (hhigh : v.toInt ≤ 14) (heven : v.toInt % 2 = 0) :
    sext16 (v.extractLsb' 1 4) * 2 = v := by
  have hv : v = BitVec.ofInt 16 v.toInt := by simp
  obtain ⟨z, hz⟩ := Int.dvd_of_emod_eq_zero heven
  rw [hz] at hv
  subst hv
  have hzlow : -8 ≤ z := by omega
  have hzhigh : z ≤ 7 := by omega
  clear hlow hhigh heven hz
  interval_cases z <;> decide

theorem toInt_even_iff (v : Word) : v.toInt % 2 = 0 ↔ v.getLsbD 0 = false := by
  simp only [BitVec.toInt_eq_toNat_cond, BitVec.getLsbD, Nat.testBit_zero, decide_eq_false_iff_not]
  omega

/-- Settles O23: inside the ranges the short form's number is the long one's, outside the long form is chosen. -/
theorem shortFormsEquivalent : Obligations.ShortFormsEquivalent := by
  intro s v rd
  refine ⟨?_, ?_, ?_, ?_⟩
  · unfold immediateForm
    split
    · rename_i h
      obtain ⟨hlow, hhigh⟩ := h
      rw [operand, operand, sext16_truncate hlow hhigh]
    · rfl
  · unfold fpOffsetForm
    split
    · rename_i h
      obtain ⟨hlow, hhigh, heven⟩ := h
      rw [operand, operand, eaFpRel, eaIndexed, sext16_half hlow hhigh heven]
    · rfl
  · unfold immediateForm
    split <;> simp_all [encode, encodeSrc]
  · rw [← toInt_even_iff]
    unfold fpOffsetForm
    split <;> simp_all [encode, encodeSrc]

end Sys2Proof.Machine
end

section
/-! PROOF of the exceptions: their entry, the return that undoes it, what each instruction raises and what the spec
refuses (R53, R120, R126, R170 to R173, R182, R205 to R215, R220). -/

namespace Sys2Proof.Machine

/-! ### Entry -/

/-- Settles O24, by trap entry's two cases. -/
theorem takingAnException : Obligations.TakingAnException := by
  intro x s
  refine ⟨fun heven => ?_, fun hodd => trapEntry_odd hodd, rfl, rfl, rfl, rfl, rfl, rfl⟩
  have hnext := takeException_even x heven
  exact ⟨_, hnext, entersTrap_of_takeException hnext⟩

/-- Settles O30: SVC is the taking of its exception. -/
theorem svcEntersItsHandler : Obligations.SvcEntersItsHandler :=
  fun s heven => (takingAnException .svc s).1 heven

/-! ### RETI after trap entry -/

theorem execReti_privileged {s : State} (hp : s.flag.p = true) :
    exec .reti s = conclude s (returnFromTrap loadFlags s) := by
  simp [exec, execReti, hp]

/-- RETI in privileged mode with an even SSP (R173). -/
theorem execReti_next {s : State} (hp : s.flag.p = true) (heven : (s.get .ssp).getLsbD 0 = false) :
    exec .reti s = .next { s.set .ssp (s.get .ssp + 4) with
      flag := Flags.ofWord (s.wordAt (s.get .ssp)), pc := s.wordAt (s.get .ssp + 2) } := by
  have hsp : s.readReg .sp = s.get .ssp := by rw [State.readReg_sp, if_pos hp]
  have hwrite : s.writeReg .sp (s.get .ssp + 4) = s.set .ssp (s.get .ssp + 4) := by
    rw [State.writeReg, hp]; rfl
  have hret : returnFromTrap loadFlags s = .ok { s.set .ssp (s.get .ssp + 4) with
      flag := Flags.ofWord (s.wordAt (s.get .ssp)), pc := s.wordAt (s.get .ssp + 2) } := by
    refine returnFromTrap_ok.mpr ⟨s.wordAt (s.get .ssp), s.wordAt (s.get .ssp + 2), ?_, ?_, ?_⟩
    · rw [hsp]
      exact State.read16_ok.mpr ⟨_, State.wordAddr_privileged hp heven, rfl⟩
    · rw [hsp]
      exact State.read16_ok.mpr ⟨_, State.wordAddr_privileged hp (by rw [even_add_two]; exact heven), rfl⟩
    · rw [hsp, hwrite]; rfl
  rw [execReti_privileged hp, hret, conclude_ok]

theorem Regs.set_eq_of_other {r r' : Regs} {q : PReg} (h : ∀ q', q' ≠ q → r'.get q' = r.get q') :
    r'.set q (r.get q) = r := by
  refine Regs.ext_get fun q' => ?_
  by_cases hq : q' = q
  · subst hq; exact Regs.get_set_same _ _ _
  · rw [Regs.get_set_other _ _ _ _ hq, h q' hq]

/-- In the state a trap entry leaves, with its frame where stores reach, RETI restores what the frame saved (R205,
R207). -/
theorem execReti_of_entersTrap {vector savedPc : Word} {s t : State} (h : EntersTrap vector savedPc s t)
    (heven : (s.get .ssp).getLsbD 0 = false)
    (hw : ∀ k : Nat, k < 4 → writable (s.get .ssp - 4 + BitVec.ofNat 16 k).toNat = true) :
    exec .reti t = .next { t with regs := s.regs, flag := s.flag, pc := savedPc } := by
  obtain ⟨hflag, hssp, hpc, hframe, _, hregs, _⟩ := h
  have hteven : (t.get .ssp).getLsbD 0 = false := by
    have h4 : s.get .ssp - 4 = s.get .ssp - 2 - 2 := by bv_omega
    rw [hssp, h4, even_sub_two, even_sub_two]
    exact heven
  have hw0 : writable (s.get .ssp - 4).toNat = true := by simpa using hw 0 (by decide)
  have hw2 : writable (s.get .ssp - 2).toNat = true := by
    have h2 : s.get .ssp - 4 + BitVec.ofNat 16 2 = s.get .ssp - 2 := by bv_omega
    exact h2 ▸ hw 2 (by decide)
  have hw3 : writable (s.get .ssp - 2 + 1).toNat = true := by
    have h3 : s.get .ssp - 4 + BitVec.ofNat 16 3 = s.get .ssp - 2 + 1 := by bv_omega
    exact h3 ▸ hw 3 (by decide)
  have hwordFlag : t.wordAt (t.get .ssp) = s.flag.toWord := by
    rw [hssp]; exact State.wordAt_eq_of_holdsWord hframe hw0 (hw 1 (by decide))
  have hwordPc : t.wordAt (t.get .ssp + 2) = savedPc := by
    have h2 : s.get .ssp - 4 + 2 = s.get .ssp - 2 := by bv_omega
    rw [hssp, h2]; exact State.wordAt_eq_of_holdsWord hpc hw2 hw3
  have hback : t.get .ssp + 4 = s.get .ssp := by rw [hssp]; bv_omega
  have hall : t.regs.set .ssp (s.get .ssp) = s.regs :=
    Regs.set_eq_of_other fun q hq => hregs q (by simpa using hq)
  rw [execReti_next (by rw [hflag]) hteven, hwordFlag, hwordPc, hback, Flags.ofWord_toWord, State.set, hall]

/-- Settles O25: each of the three entries leaves the state that the lemma above returns from. -/
theorem retiUndoesTrapEntry : Obligations.RetiUndoesTrapEntry := by
  intro s hw
  refine ⟨fun vector savedPc t h => ?_, fun x t h => ?_, fun v t h => ?_⟩
  · exact execReti_of_entersTrap (entersTrap_of_trapEntry h) (trapEntry_next.mp h).1 hw
  · exact execReti_of_entersTrap (entersTrap_of_takeException h) (trapEntry_next.mp h).1 hw
  · exact execReti_of_entersTrap (s := { s with irq := s.irq.set v false, halted := false })
      (acceptInterrupt_enters h) (trapEntry_next.mp h).1 hw

/-! ### Exceptions of an instruction -/

/-- The part that raises first decides how an instruction ends. -/
theorem conclude_bind_raise {α : Type} {s : State} {r : Except Abort α} {f : α → Except Abort State} {x : Exc}
    (h : r = .error (.raise x)) : conclude s (r >>= f) = takeException x s := by
  rw [h]; rfl

theorem Reg.pairHigh_isSome (r : Reg) : (Reg.pairHigh r).isSome = r.headsPair := by cases r <;> rfl

theorem Reg.exists_pairHigh {r : Reg} (h : r.headsPair = true) : ∃ hi, Reg.pairHigh r = some hi :=
  Option.isSome_iff_exists.mp ((Reg.pairHigh_isSome r).trans h)

theorem Reg.pairHigh_none {r : Reg} (h : r.headsPair = false) : Reg.pairHigh r = none :=
  Option.isNone_iff_eq_none.mp (by rw [← Option.not_isSome, Reg.pairHigh_isSome, h]; rfl)

/-- Settles O26: every source instruction obtains its operand first. -/
theorem operandFaultIsTaken : Obligations.OperandFaultIsTaken := by
  intro mk rd ea s x hmk hwf hx
  simp only [sourceInstrs, List.mem_cons, List.not_mem_nil, or_false] at hmk
  rcases hmk with rfl | rfl | rfl | rfl | rfl | rfl | rfl | rfl | rfl | rfl | rfl | rfl | rfl | rfl | rfl | rfl | rfl
  rotate_left 11
  · obtain ⟨hi, hhi⟩ := Reg.exists_pairHigh (r := rd) hwf
    simp [exec, execMull, hhi, hx]
  · obtain ⟨hi, hhi⟩ := Reg.exists_pairHigh (r := rd) hwf
    simp [exec, execDivl, hhi, hx]
  all_goals exact conclude_bind_raise hx

theorem storeOperand_word {ea : Dst} (h : dstIsByte ea = false) (s : State) (v : Word) :
    storeOperand s ea v = s.write16 (dstAddr s ea) v := by
  cases ea with
  | byteIndirect rx => cases h
  | _ => rfl

theorem storeOperand_byte {ea : Dst} (h : dstIsByte ea = true) (s : State) (v : Word) :
    storeOperand s ea v = s.write8 (dstAddr s ea) (lowByte v) := by
  cases ea with
  | byteIndirect rx => rfl
  | _ => cases h

theorem State.namesActiveSp_iff {s : State} {rd : Reg} :
    s.namesActiveSp rd = true ↔ Reg.bank s.flag.p rd = Reg.bank s.flag.p .sp := by
  simp [State.namesActiveSp]

/-- Settles O27: each of the six accesses is the first thing its instruction does. -/
theorem storeAndStackFaultsAreTaken : Obligations.StoreAndStackFaultsAreTaken := by
  intro s x
  refine ⟨fun rd ea hbyte hx => ?_, fun rd ea hbyte hx => ?_, fun hx => ⟨fun ea => ?_, fun rd hne => ?_⟩,
    fun hx => ⟨?_, fun rd hne => ?_, fun hp => ?_⟩⟩
  · rw [exec, execSt, storeOperand_word hbyte, (State.word_access_error hx _).2, conclude_raise]
  · rw [exec, execSt, storeOperand_byte hbyte, (State.byte_access_error hx _).2, conclude_raise]
  · exact conclude_bind_raise (State.word_access_error hx _).2
  · rw [exec, execPush, if_neg (State.namesActiveSp_iff.not.mpr hne)]
    exact conclude_bind_raise (State.word_access_error hx _).2
  · exact conclude_bind_raise (State.word_access_error hx 0).1
  · rw [exec, execPop, if_neg (State.namesActiveSp_iff.not.mpr hne)]
    exact conclude_bind_raise (State.word_access_error hx 0).1
  · rw [execReti_privileged hp]
    exact conclude_bind_raise (State.word_access_error hx 0).1

/-- Settles O28: the divisor is checked before anything is written. -/
theorem zeroDivideIsTaken : Obligations.ZeroDivideIsTaken := by
  intro rd ea s h0
  have hcheck : requireNonZero 0#16 = .error (.raise .zeroDivide) := rfl
  refine ⟨?_, ?_, fun hpair => ?_⟩
  · simp [exec, execDiv, h0, hcheck]
  · simp [exec, execMod, h0, hcheck]
  · obtain ⟨hi, hhi⟩ := Reg.exists_pairHigh hpair
    simp [exec, execDivl, hhi, h0, hcheck]

/-- Settles O29: the privilege check is the first thing each of the five does. -/
theorem privilegedTrapInUserMode : Obligations.PrivilegedTrapInUserMode := by
  intro s hp
  have hraise (op : Config.PrivOp) := State.requirePrivilege_user hp op
  exact ⟨fun rd ea => conclude_bind_raise (hraise _), fun rd ea => conclude_bind_raise (hraise _),
    conclude_bind_raise (hraise _), conclude_bind_raise (hraise _), conclude_bind_raise (hraise _)⟩

/-! ### The checks of an I/O access (R53) -/

theorem ioAddress_high {ea : Word} (h : 0xFF < ea.toNat) : ioAddress ea = .error (.refuse .ioAddressHigh) := by
  have hne : ¬ ea.extractLsb' 8 8 = 0#8 := by
    intro h0
    have := congrArg BitVec.toNat h0
    simp only [BitVec.extractLsb'_toNat, Nat.shiftRight_eq_div_pow, BitVec.toNat_ofNat] at this
    omega
  simp [ioAddress, hne, ioHighPolicy]

theorem ioAddress_zeroExtend (a : Byte) : ioAddress (a.zeroExtend 16) = .ok a := by
  have ha := a.isLt
  have hhigh : (a.zeroExtend 16).extractLsb' 8 8 = 0#8 := by
    apply BitVec.eq_of_toNat_eq
    simp only [BitVec.extractLsb'_toNat, Nat.shiftRight_eq_div_pow, BitVec.toNat_ofNat, BitVec.truncate_eq_setWidth,
      BitVec.toNat_setWidth]
    omega
  have hlow : lowByte (a.zeroExtend 16) = a := by
    apply BitVec.eq_of_toNat_eq
    simp only [lowByte, BitVec.extractLsb'_toNat, Nat.shiftRight_eq_div_pow, BitVec.truncate_eq_setWidth,
      BitVec.toNat_setWidth]
    omega
  rw [ioAddress, if_pos hhigh, hlow]

theorem ioAligned_defined {ea : Port} {a : Byte} (h : ioDefined ea a = true) : ioAligned (portIsByte ea) a = .ok () := by
  unfold ioDefined at h
  unfold ioAligned
  split at h <;> simp_all

theorem ioAligned_undefined {ea : Port} {a : Byte} (h : ioDefined ea a = false) :
    ioAligned (portIsByte ea) a = .error (.refuse .ioMisaligned) := by
  unfold ioDefined at h
  unfold ioAligned
  split at h <;> simp_all

/-! ### Refusals -/

/-- Settles O31, each refused form at its own check. -/
theorem refusedForms : Obligations.RefusedForms := by
  intro s rd
  refine ⟨fun hsp => ?_, fun hp => ?_, fun hpair ea => ?_, fun hp ea hhigh => ?_, fun hp ea a ha hundef => ?_⟩
  · have hnames := State.namesActiveSp_iff.mpr hsp
    simp [exec, execPush, execPop, hnames]
  · simp [exec, execReti, hp, retiUser]
  · simp [exec, execMull, execDivl, Reg.pairHigh_none hpair]
  · simp [exec, execInp, execOut, State.requirePrivilege_privileged hp, ioAddress_high hhigh]
  · simp [exec, execInp, execOut, State.requirePrivilege_privileged hp, ha, ioAddress_zeroExtend, State.ioRead,
      State.ioWrite, ioAligned_undefined hundef]

end Sys2Proof.Machine
end

section
/-! PROOF of the results of the register instructions: LD, the arithmetic and logic, multiplication, division and shifts
(R101, R103, R110 to R117, R120 to R126, R130 to R134). -/

namespace Sys2Proof.Machine

/-! ### What a written result leaves -/

theorem yields_of_next {r : Result} {s : State} {rd : Reg} {v : Word} {c : Cond}
    (h : r = .next ((s.writeReg rd v).setCond c)) : Yields r s (Reg.bank s.flag.p rd) v c :=
  h ▸ yields_writeReg_setCond

theorem State.writeReg_readReg (s : State) (r : Reg) : s.writeReg r (s.readReg r) = s := by
  have hregs : s.regs.set (Reg.bank s.flag.p r) (s.regs.get (Reg.bank s.flag.p r)) = s.regs :=
    Regs.set_eq_of_other fun _ _ => rfl
  simp only [State.writeReg, State.readReg, State.set, State.get, hregs]

/-- Settles O33: the flags LD keeps are the ones it would write back. -/
theorem loadWritesOperand : Obligations.LoadWritesOperand := by
  intro rd ea s v hv
  refine yields_of_next ?_
  simp only [exec, execLd, hv, ok_bind, conclude_ok]
  rfl

theorem Flags.toWord_bits (f : Flags) :
    f.toWord.getLsbD 7 = f.e ∧ f.toWord.getLsbD 6 = f.p ∧ f.toWord.getLsbD 3 = f.v ∧ f.toWord.getLsbD 2 = f.c ∧
    f.toWord.getLsbD 1 = f.s ∧ f.toWord.getLsbD 0 = f.z ∧ f.toWord.getLsbD 4 = false ∧ f.toWord.getLsbD 5 = false := by
  obtain ⟨e, p, v, c, s, z⟩ := f
  revert e p v c s z
  decide

theorem Flags.toWord_lt (f : Flags) : f.toWord.toNat < 2 ^ 8 := by
  obtain ⟨e, p, v, c, s, z⟩ := f
  revert e p v c s z
  decide

/-- Settles O34: the bits of FLAG by the six stored ones, nothing from bit 8 on. -/
theorem loadFlagReadsFlag : Obligations.LoadFlagReadsFlag := by
  intro rd s
  obtain ⟨h7, h6, h3, h2, h1, h0, h4, h5⟩ := s.flag.toWord_bits
  refine ⟨yields_of_next rfl, h7, h6, h3, h2, h1, h0, h4, h5, fun k hk => ?_⟩
  exact Nat.testBit_lt_two_pow (s.flag.toWord_lt.trans_le (Nat.pow_le_pow_right (by decide) hk))

/-! ### Sums and differences -/

theorem add_eq_ofNat (a b : Word) : a + b = BitVec.ofNat 16 (a.toNat + b.toNat) := by
  simp [BitVec.ofNat_add]

theorem sub_eq_ofInt (a b : Word) : a - b = BitVec.ofInt 16 ((a.toNat : Int) - b.toNat) := by
  apply BitVec.eq_of_toNat_eq
  rw [BitVec.toNat_sub, BitVec.toNat_ofInt]
  omega

theorem double_eq_ofNat (b : Word) : b * 2 = BitVec.ofNat 16 (2 * b.toNat) := by
  bv_omega

theorem mul_eq_ofNat (a b : Word) : a * b = BitVec.ofNat 16 (a.toNat * b.toNat) := by
  simp [BitVec.ofNat_mul]

/-- The flags of an addition, by the exact sums (R110). -/
theorem addFlags_eq (a b : Word) :
    addFlags a b =
      { v := decide (a.toInt + b.toInt < -32768 ∨ 32767 < a.toInt + b.toInt)
        c := decide (65536 ≤ a.toNat + b.toNat)
        s := (a + b).getLsbD 15
        z := decide (a + b = 0) } := by
  rw [← addFlags_v, ← isZero_eq]
  rfl

/-- The flags of a subtraction, by the exact differences (R110). -/
theorem subFlags_eq (a b : Word) :
    subFlags a b =
      { v := decide (a.toInt - b.toInt < -32768 ∨ 32767 < a.toInt - b.toInt)
        c := decide (a.toNat < b.toNat)
        s := (a - b).getLsbD 15
        z := decide (a = b) } := by
  rw [← subFlags_v, ← subFlags_z]
  rfl

/-- Settles O36, by the flags of the exact sums. -/
theorem addResult : Obligations.AddResult := by
  intro rd ea s b hb a
  rw [← addFlags_eq, ← add_eq_ofNat]
  exact yields_of_next (binaryOp_of_operand hb)

/-- Settles O37: CMP's kept Rd is the one it would write back. -/
theorem subtractAndCompare : Obligations.SubtractAndCompare := by
  intro rd ea s b hb a c
  have hc : subFlags a b = c := subFlags_eq a b
  rw [← sub_eq_ofInt, ← hc]
  refine ⟨yields_of_next (binaryOp_of_operand hb), yields_of_next ?_⟩
  rw [State.writeReg_readReg]
  simp only [exec, execCmp, hb, ok_bind, conclude_ok]
  rfl

/-- Settles O39: the doubled operand added. -/
theorem addScaledResult : Obligations.AddScaledResult := by
  intro rd ea s b hb a b2
  have hb2 : b * 2 = b2 := double_eq_ofNat b
  have hsum : BitVec.ofNat 16 (a.toNat + 2 * b.toNat) = a + b * 2 := by
    rw [double_eq_ofNat, BitVec.ofNat_add, BitVec.ofNat_toNat, BitVec.setWidth_eq]
  rw [hsum, ← addFlags_eq, ← hb2]
  refine yields_of_next ?_
  simp only [exec, execAdds, binaryOp_of_operand hb]
  rfl

/-! ### Results whose V and C are 0 -/

/-- S and Z of a result, V = C = 0. -/
def signZero (r : Word) : Cond := { v := false, c := false, s := r.getLsbD 15, z := decide (r = 0) }

theorem logicFlags_eq (op : LogicOp) (a b r : Word) : logicFlags op a b r = signZero r := by
  rw [signZero, ← isZero_eq]
  rfl

theorem mulDivFlags_eq (op : MulDivOp) (a b r : Word) : mulDivFlags op a b r = signZero r := by
  rw [signZero, ← isZero_eq]
  rfl

/-- Settles O38: the result's bits are those of the word operation. -/
theorem logicalResults : Obligations.LogicalResults := by
  intro rd ea s b hb a q c
  refine ⟨⟨a &&& b, fun k _ => BitVec.getLsbD_and, yields_of_next ?_⟩,
    ⟨a ||| b, fun k _ => BitVec.getLsbD_or, yields_of_next ?_⟩,
    ⟨a ^^^ b, fun k _ => BitVec.getLsbD_xor, yields_of_next ?_⟩⟩
  · simp only [exec, execAnd, binaryOp_of_operand hb, logicFlags_eq]; rfl
  · simp only [exec, execOr, binaryOp_of_operand hb, logicFlags_eq]; rfl
  · simp only [exec, execXor, binaryOp_of_operand hb, logicFlags_eq]; rfl

/-- Settles O40: the product of words is the low word of the exact product. -/
theorem multiplyResult : Obligations.MultiplyResult := by
  intro rd ea s b hb r
  have hr : s.readReg rd * b = r := mul_eq_ofNat _ _
  refine yields_of_next ?_
  simp only [exec, execMul, hb, ok_bind, conclude_ok, mulDivFlags_eq, hr]
  rfl

theorem quotient_eq_ofNat (a b : Word) : quotient a b = BitVec.ofNat 16 (a.toNat / b.toNat) := by
  apply BitVec.eq_of_toNat_eq
  simp only [quotient, mulDivSigned, Bool.false_eq_true, if_false, BitVec.toNat_udiv, BitVec.toNat_ofNat]
  exact (Nat.mod_eq_of_lt ((Nat.div_le_self _ _).trans_lt a.isLt)).symm

theorem remainder_eq_ofNat (a b : Word) : remainder a b = BitVec.ofNat 16 (a.toNat % b.toNat) := by
  apply BitVec.eq_of_toNat_eq
  simp only [remainder, mulDivSigned, Bool.false_eq_true, if_false, BitVec.toNat_umod, BitVec.toNat_ofNat]
  exact (Nat.mod_eq_of_lt ((Nat.mod_le _ _).trans_lt a.isLt)).symm

/-- Settles O41: unsigned words have no overflowing quotient, so DIV writes it. -/
theorem divideAndModulo : Obligations.DivideAndModulo := by
  intro rd ea s b hb hne q r
  have hq : quotient (s.readReg rd) b = q := quotient_eq_ofNat _ _
  have hr : remainder (s.readReg rd) b = r := remainder_eq_ofNat _ _
  have hfits : quotientOverflows (s.readReg rd) b = false := rfl
  refine ⟨yields_of_next ?_, yields_of_next ?_⟩
  · simp only [exec, execDiv, hb, ok_bind, requireNonZero_ok hne, hfits, Bool.false_eq_true, if_false, conclude_ok,
      mulDivFlags_eq, hq]
    rfl
  · simp only [exec, execMod, hb, ok_bind, requireNonZero_ok hne, conclude_ok, mulDivFlags_eq, hr]
    rfl

/-! ### MULL and DIVL -/

theorem product_toNat (a b : Word) : (product a b).toNat = a.toNat * b.toNat := by
  have ha := a.isLt
  have hb := b.isLt
  have : a.toNat * b.toNat < 65536 * 65536 := Nat.mul_lt_mul'' ha hb
  simp only [product, widen, mulDivSigned, Bool.false_eq_true, if_false, BitVec.toNat_mul,
    BitVec.truncate_eq_setWidth, BitVec.toNat_setWidth]
  rw [Nat.mod_eq_of_lt (a := a.toNat) (by omega), Nat.mod_eq_of_lt (a := b.toNat) (by omega),
    Nat.mod_eq_of_lt (by omega)]

theorem product_low (a b : Word) : (product a b).extractLsb' 0 16 = BitVec.ofNat 16 (a.toNat * b.toNat) := by
  apply BitVec.eq_of_toNat_eq
  simp [BitVec.extractLsb'_toNat, product_toNat]

theorem product_high (a b : Word) : (product a b).extractLsb' 16 16 = BitVec.ofNat 16 (a.toNat * b.toNat / 65536) := by
  apply BitVec.eq_of_toNat_eq
  simp [BitVec.extractLsb'_toNat, product_toNat, Nat.shiftRight_eq_div_pow]

theorem Reg.pairHigh_toField {rd hi : Reg} (h : Reg.pairHigh rd = some hi) : hi.toField = rd.toField + 1 := by
  cases rd <;> simp [Reg.pairHigh] at h <;> subst h <;> rfl

theorem Reg.headsPair_iff (rd : Reg) : rd.headsPair = true ↔ rd.toField.getLsbD 0 = false ∧ rd.toField ≠ 0xE := by
  cases rd <;> decide

section
variable {rd hi : Reg} {ea : Src} {s : State} {b : Word} (hpair : Reg.pairHigh rd = some hi) (hb : operand s ea = .ok b)
include hpair hb

theorem execMull_next :
    exec (.mull rd ea) s = .next (((s.writeReg hi (BitVec.ofNat 16 ((s.readReg rd).toNat * b.toNat / 65536))).writeReg rd
      (BitVec.ofNat 16 ((s.readReg rd).toNat * b.toNat))).setCond
        (signZero (BitVec.ofNat 16 ((s.readReg rd).toNat * b.toNat)))) := by
  simp only [exec, execMull, hpair, hb, ok_bind, conclude_ok, product_low, product_high, mulDivFlags_eq]

/-- The state DIVL leaves when the quotient fits; `n` is the pair's 32 bits. -/
theorem execDivl_next (hne : b ≠ 0) {n : Nat} (hn : (s.readReg hi).toNat * 65536 + (s.readReg rd).toNat = n)
    (hfits : n / b.toNat < 65536) :
    exec (.divl rd ea) s = .next (((s.writeReg rd (BitVec.ofNat 16 (n / b.toNat))).writeReg hi
      (BitVec.ofNat 16 (n % b.toNat))).setCond (signZero (BitVec.ofNat 16 (n / b.toNat)))) := by
  have hno : longQuotientOverflows (s.readReg hi ++ s.readReg rd) b = false := by
    rw [longQuotientOverflows_eq, hn, decide_eq_false_iff_not]
    omega
  simp only [exec, execDivl, hpair, hb, ok_bind, requireNonZero_ok hne, hno, Bool.false_eq_true, if_false, conclude_ok,
    longQuotient_low, longRemainder_low, mulDivFlags_eq, hn]

end

/-- Settles O42: the register table of the pair, and the two halves of the product. -/
theorem multiplyLongResult : Obligations.MultiplyLongResult := by
  refine ⟨fun _ _ => Reg.pairHigh_toField, fun rd => ⟨Reg.pairHigh_isSome rd, Reg.headsPair_iff rd⟩,
    fun rd hi ea s b hpair hb => ?_⟩
  rw [execMull_next hpair hb]
  exact yieldsPair_writeReg_setCond (pairHigh_ne hpair _)

/-- The two writes of a pair can be made in either order. -/
theorem State.writeReg_comm {s : State} {r r' : Reg} (h : Reg.bank s.flag.p r ≠ Reg.bank s.flag.p r') (v w : Word) :
    (s.writeReg r v).writeReg r' w = (s.writeReg r' w).writeReg r v := by
  have hregs : (s.regs.set (Reg.bank s.flag.p r) v).set (Reg.bank s.flag.p r') w =
      (s.regs.set (Reg.bank s.flag.p r') w).set (Reg.bank s.flag.p r) v := by
    refine Regs.ext_get fun q => ?_
    by_cases hq : q = Reg.bank s.flag.p r
    · subst hq
      rw [Regs.get_set_other _ _ _ _ h, Regs.get_set_same, Regs.get_set_same]
    · rw [Regs.get_set_other _ _ _ _ hq]
      by_cases hq' : q = Reg.bank s.flag.p r'
      · subst hq'; rw [Regs.get_set_same, Regs.get_set_same]
      · rw [Regs.get_set_other _ _ _ _ hq', Regs.get_set_other _ _ _ _ hq', Regs.get_set_other _ _ _ _ hq]
  simp only [State.writeReg, State.set, hregs]

/-- Settles O43: DIVL writes Rd first, the pair's order in the statement is the other one. -/
theorem divideLongResult : Obligations.DivideLongResult := by
  intro rd hi ea s b hpair hb hne hfits n q
  rw [execDivl_next hpair hb hne rfl hfits, State.writeReg_comm (pairHigh_ne hpair _)]
  exact yieldsPair_writeReg_setCond (pairHigh_ne hpair _)

/-- What stays when the pair and the condition flags become free values (R125, U6). -/
theorem State.freePair_frame (s : State) (rd hi : Reg) :
    SameRegsBut [Reg.bank s.flag.p rd, Reg.bank s.flag.p hi] s (s.freePair rd hi) ∧ SameBytes s (s.freePair rd hi) ∧
      SameSystem { s with draws := (s.freePair rd hi).draws } (s.freePair rd hi) := by
  refine ⟨fun q hq => ?_, fun _ => rfl, rfl, rfl, rfl, rfl, rfl, rfl, rfl⟩
  simp only [List.mem_cons, List.not_mem_nil, or_false, not_or] at hq
  obtain ⟨hrd, hhi⟩ := hq
  calc (s.freePair rd hi).get q
      = (s.drawWord.2.drawWord.2.drawCond.2.writeReg rd s.drawWord.1).get q := State.get_writeReg_other _ hi q _ hhi
    _ = s.get q := State.get_writeReg_other _ rd q _ hrd

/-- Settles O44: the overflow branch of DIVL is the free pair. -/
theorem divideLongOverflow : Obligations.DivideLongOverflow := by
  intro rd hi ea s b hpair hb hne hover
  have hyes : longQuotientOverflows (s.readReg hi ++ s.readReg rd) b = true := by
    rw [longQuotientOverflows_eq]
    exact decide_eq_true hover
  refine ⟨s.freePair rd hi, ?_, rfl, s.freePair_frame rd hi⟩
  simp only [exec, execDivl, hpair, hb, ok_bind, requireNonZero_ok hne, hyes, if_true, conclude_ok]

/-- Settles O45: the pair holds the product's 32 bits, of which the operand is a factor. -/
theorem divideLongUndoesMultiplyLong : Obligations.DivideLongUndoesMultiplyLong := by
  intro rd hi ea s b hpair hb hne
  have hb0 : 0 < b.toNat := by
    rw [Nat.pos_iff_ne_zero]
    exact fun h => hne (BitVec.eq_of_toNat_eq h)
  obtain ⟨t, ht, hlow, hhigh, _, _, _, _, _, hp, _⟩ := multiplyLongResult.2.2 rd hi ea s b hpair hb
  refine ⟨t, ht, fun ea' hb' => ?_⟩
  rw [← hp] at hlow hhigh
  have hn : (t.readReg hi).toNat * 65536 + (t.readReg rd).toNat = (s.readReg rd).toNat * b.toNat := by
    have hprod : (s.readReg rd).toNat * b.toNat < 65536 * 65536 := Nat.mul_lt_mul'' (s.readReg rd).isLt b.isLt
    simp only [State.readReg] at hlow hhigh hprod ⊢
    rw [hlow, hhigh, BitVec.toNat_ofNat, BitVec.toNat_ofNat]
    omega
  have hdiv : (s.readReg rd).toNat * b.toNat / b.toNat = (s.readReg rd).toNat := Nat.mul_div_cancel _ hb0
  have hmod : (s.readReg rd).toNat * b.toNat % b.toNat = 0 := Nat.mul_mod_left _ _
  refine ⟨_, execDivl_next hpair hb' hne hn (by rw [hdiv]; exact (s.readReg rd).isLt), ?_, ?_⟩
  · rw [State.writeReg_comm (pairHigh_ne hpair _), State.readReg_setCond, State.readReg_writeReg_same, hdiv]
    simp
  · rw [State.readReg_setCond, State.readReg_writeReg_same, hmod]
    rfl

/-! ### Shifts -/

theorem shiftLeft_eq_ofNat (a : Word) (n : Nat) : a <<< n = BitVec.ofNat 16 (a.toNat * 2 ^ n) := by
  apply BitVec.eq_of_toNat_eq
  simp [Nat.shiftLeft_eq]

theorem ushiftRight_eq_ofNat (a : Word) (n : Nat) : a >>> n = BitVec.ofNat 16 (a.toNat / 2 ^ n) := by
  apply BitVec.eq_of_toNat_eq
  simp only [BitVec.toNat_ushiftRight, Nat.shiftRight_eq_div_pow, BitVec.toNat_ofNat]
  exact (Nat.mod_eq_of_lt ((Nat.div_le_self _ _).trans_lt a.isLt)).symm

theorem sshiftRight_eq_ofInt (a : Word) (n : Nat) : a.sshiftRight n = BitVec.ofInt 16 (a.toInt / 2 ^ n) := by
  rw [BitVec.sshiftRight, Int.shiftRight_eq_div_pow]
  simp

section
variable (a r : Word) {n : Nat} (hn : n < 16)
include hn

/-- The flags of a shift to the left by fewer than 16 places (R130(b)). -/
theorem shiftFlags_left (op : ShiftOp) (hop : op = .shla ∨ op = .shll) :
    shiftFlags op a n r =
      { v := false, c := decide (n ≠ 0) && a.getLsbD (16 - n), s := r.getLsbD 15, z := decide (r = 0) } := by
  rw [← isZero_eq]
  have hle : n ≤ 16 := by omega
  by_cases h0 : n = 0
  · rcases hop with rfl | rfl <;> simp [shiftFlags, shiftVC, lastShiftedOut, h0, BitVec.msb_eq_getLsbD_last]
  · rcases hop with rfl | rfl <;> simp [shiftFlags, shiftVC, lastShiftedOut, h0, hle, BitVec.msb_eq_getLsbD_last]

/-- The flags of a shift to the right by fewer than 16 places (R130(b)). -/
theorem shiftFlags_right (op : ShiftOp) (hop : op = .shra ∨ op = .shrl) :
    shiftFlags op a n r =
      { v := false, c := decide (n ≠ 0) && a.getLsbD (n - 1), s := r.getLsbD 15, z := decide (r = 0) } := by
  rw [← isZero_eq]
  have hle : n ≤ 16 := by omega
  by_cases h0 : n = 0
  · rcases hop with rfl | rfl <;> simp [shiftFlags, shiftVC, lastShiftedOut, h0, BitVec.msb_eq_getLsbD_last]
  · rcases hop with rfl | rfl <;> simp [shiftFlags, shiftVC, lastShiftedOut, h0, hle, BitVec.msb_eq_getLsbD_last]

end

/-- Settles O46: both left shifts are one function and one flag rule. -/
theorem shiftLeftResults : Obligations.ShiftLeftResults := by
  intro rd ea s b hb a n r c
  have hn : n < 16 := Nat.mod_lt _ (by decide)
  have hr : a <<< n = r := shiftLeft_eq_ofNat a n
  have hcount : shiftCount b = n := shiftCount_eq b
  refine ⟨yields_of_next ((shiftOp_of_operand hb).trans ?_), yields_of_next ((shiftOp_of_operand hb).trans ?_)⟩
  · rw [hcount, hr, shiftFlags_left a r hn _ (.inl rfl)]
  · rw [hcount, hr, shiftFlags_left a r hn _ (.inr rfl)]

/-- Settles O47, by the two floors and their common flag rule. -/
theorem shiftRightResults : Obligations.ShiftRightResults := by
  intro rd ea s b hb a n c ra rl
  have hn : n < 16 := Nat.mod_lt _ (by decide)
  have hra : a.sshiftRight n = ra := sshiftRight_eq_ofInt a n
  have hrl : a >>> n = rl := ushiftRight_eq_ofNat a n
  have hcount : shiftCount b = n := shiftCount_eq b
  refine ⟨yields_of_next ((shiftOp_of_operand hb).trans ?_), yields_of_next ((shiftOp_of_operand hb).trans ?_)⟩
  · rw [hcount, hra, shiftFlags_right a ra hn _ (.inl rfl)]
  · rw [hcount, hrl, shiftFlags_right a rl hn _ (.inr rfl)]

end Sys2Proof.Machine
end

section
/-! PROOF of the stores, the compare-jump table, CALL and the stack, EI, DI and HALT (R102, R113, R141 to R156, R170 to
R173, R180 to R183). -/

namespace Sys2Proof.Machine

/-! ### What a store leaves -/

theorem State.storeWord_system (s : State) (pa v : Word) : SameSystem s (s.storeWord pa v) := by
  simp [SameSystem]

theorem State.storeWord_cond (s : State) (pa v : Word) : (s.storeWord pa v).cond = s.cond := by
  simp [State.cond]

/-- A word store by itself. -/
theorem storesWord_storeWord (s : State) (pa v : Word) : StoresWord [] pa v s (s.storeWord pa v) :=
  ⟨s.storeWord_holds pa v, s.storeWord_others pa v, fun q _ => s.storeWord_get pa v q, s.storeWord_system pa v,
    s.storeWord_cond pa v⟩

/-- A word store and the write of a register after it. -/
theorem storesWord_writeReg (s : State) (pa v : Word) (r : Reg) (w : Word) :
    StoresWord [Reg.bank s.flag.p r] pa v s ((s.storeWord pa v).writeReg r w) := by
  obtain ⟨hholds, hothers, _, hsystem, hcond⟩ := storesWord_storeWord s pa v
  refine ⟨hholds, hothers, fun q hq => ?_, hsystem, hcond⟩
  rw [State.get_writeReg_other _ _ _ _ (by simpa using hq), State.storeWord_get]

/-- Settles O35: the two widths of ST's store. -/
theorem storeWritesMemory : Obligations.StoreWritesMemory := by
  intro rd ea s pa
  refine ⟨fun hbyte hpa => ⟨s.storeWord pa (s.readReg rd), ?_, by simp, storesWord_storeWord s pa _⟩,
    fun hbyte hpa => ⟨s.storeByte pa (lowByte (s.readReg rd)), ?_, by simp, by simp [State.cond],
      fun hw => State.byteAt_storeByte_same hw, s.storeByte_others pa _, fun q _ => s.storeByte_get pa _ q,
      by simp [SameSystem]⟩⟩
  · rw [exec, execSt, storeOperand_word hbyte, (State.word_access_ok hpa _).2, conclude_ok]
  · rw [exec, execSt, storeOperand_byte hbyte, (State.byte_access_ok hpa _).2, conclude_ok]

/-! ### The compare-jump table -/

/-- A jump whose condition decides a relation. -/
theorem jumpIf_decides {c : Bool} {taken : Prop} (h : c = true ↔ taken) (tg : Target) (t : State) :
    (taken → jumpIf c tg t = .next { t with pc := targetAddr t tg }) ∧ (¬ taken → jumpIf c tg t = .next t) :=
  ⟨fun ht => by simp [jumpIf, h.mpr ht], fun ht => by simp [jumpIf, show c = false by simpa using h.not.mpr ht]⟩

/-- The three facts that CMP leaves in the flags: S xor V is "less than" of signed numbers, C of unsigned ones, Z
equality (R19, R113). -/
structure ComparedFlags (a b : Word) (f : Flags) : Prop where
  less : (f.s ^^ f.v) = decide (a.toInt < b.toInt)
  borrow : f.c = decide (a.toNat < b.toNat)
  equal : f.z = decide (a = b)

theorem comparedFlags_setCond (s : State) (a b : Word) : ComparedFlags a b (s.setCond (subFlags a b)).flag :=
  ⟨subFlags_less a b, rfl, subFlags_z a b⟩

/-- Settles O50: each condition is decided by the three facts CMP leaves. -/
theorem compareThenJump : Obligations.CompareThenJump := by
  intro rd ea s b hb a
  refine ⟨s.setCond (subFlags a b), by simp only [exec, execCmp, hb, ok_bind, conclude_ok]; rfl, fun tg => ?_⟩
  obtain ⟨hless, hborrow, hequal⟩ := comparedFlags_setCond s a b
  have hint : a = b ↔ a.toInt = b.toInt := BitVec.toInt_inj.symm
  have hnat : a = b ↔ a.toNat = b.toNat := BitVec.toNat_inj.symm
  refine ⟨?_, ?_, ?_, ?_, ?_, ?_, ?_, ?_, ?_, ?_⟩
  · rw [exec_jgt, hless, hequal]
    exact jumpIf_decides (by simp [hint]; omega) tg _
  · rw [exec_jge, hless]
    exact jumpIf_decides (by simp) tg _
  · rw [exec_jle, hless, hequal]
    exact jumpIf_decides (by simp [hint]; omega) tg _
  · rw [exec_jlt, hless]
    exact jumpIf_decides (by simp) tg _
  · rw [exec_jhi, hborrow, hequal]
    exact jumpIf_decides (by simp [hnat]; omega) tg _
  · exact jumpIf_decides (by rw [hborrow]; simp) tg _
  · rw [exec_jls, hborrow, hequal]
    exact jumpIf_decides (by simp [hnat]; omega) tg _
  · exact jumpIf_decides (by rw [hborrow]; simp) tg _
  · exact jumpIf_decides (by rw [hequal]; simp) tg _
  · exact jumpIf_decides (by rw [hequal]; simp) tg _

/-! ### CALL and the stack -/

theorem execCall_next {s : State} {pa : Word} (h : s.wordAddr (s.readReg .sp - 2) = .ok pa) (ea : Target) :
    exec (.call ea) s =
      .next { (s.storeWord pa s.pc).writeReg .sp (s.readReg .sp - 2) with pc := targetAddr s ea } := by
  simp only [exec, execCall, (State.word_access_ok h _).2, ok_bind, conclude_ok]

/-- Settles O51: the store comes first, then SP and PC are written. -/
theorem callPushesAndJumps : Obligations.CallPushesAndJumps := by
  intro ea s pa h
  exact ⟨_, execCall_next h ea, rfl, State.readReg_writeReg_same _ _ _, storesWord_writeReg s pa s.pc .sp _⟩

theorem execRet_next {s : State} {v : Word} (h : s.read16 (s.readReg .sp) = .ok v) :
    exec .ret s = .next { s.writeReg .sp (s.readReg .sp + 2) with pc := v } := by
  simp only [exec, execRet, h, ok_bind, conclude_ok]

theorem onlyRegs_writeReg (s : State) (r : Reg) (v : Word) : OnlyRegs [Reg.bank s.flag.p r] s (s.writeReg r v) :=
  ⟨fun q hq => State.get_writeReg_other s r q v (by simpa using hq), fun _ => rfl, by simp [SameSystem]⟩

/-- Settles O52, by the pop's two outcomes. -/
theorem retPopsPc : Obligations.RetPopsPc :=
  ⟨rfl, fun s =>
    ⟨fun _ hv => ⟨_, execRet_next hv, rfl, State.readReg_writeReg_same s .sp _, rfl, onlyRegs_writeReg s .sp _⟩,
      fun _ hx => conclude_bind_raise hx⟩⟩

/-- Settles O53: neither access meets the active stack pointer as its register. -/
theorem pushAndPop : Obligations.PushAndPop := by
  intro rd s hne
  have hnames : ¬ s.namesActiveSp rd = true := State.namesActiveSp_iff.not.mpr hne
  refine ⟨fun pa hpa => ?_, fun v hv => ?_⟩
  · refine ⟨(s.storeWord pa (s.readReg rd)).writeReg .sp (s.readReg .sp - 2), ?_, by simp,
      State.readReg_writeReg_same _ _ _, storesWord_writeReg s pa _ .sp _⟩
    rw [exec, execPush, if_neg hnames]
    simp only [(State.word_access_ok hpa _).2, ok_bind, conclude_ok]
  · refine ⟨(s.writeReg .sp (s.readReg .sp + 2)).writeReg rd v, ?_, rfl, ?_, State.readReg_writeReg_same _ _ _, rfl, ?_⟩
    · rw [exec, execPop, if_neg hnames]
      simp only [hv, ok_bind, conclude_ok]
    · rw [State.writeReg_comm (Ne.symm hne), State.readReg_writeReg_same]
    · refine ⟨fun q hq => ?_, fun _ => rfl, by simp [SameSystem]⟩
      simp only [List.mem_cons, List.not_mem_nil, or_false, not_or] at hq
      obtain ⟨hrd, hsp⟩ := hq
      exact (State.get_writeReg_other (s.writeReg .sp _) rd q v hrd).trans (State.get_writeReg_other s .sp q _ hsp)

/-- The address of a word access depends on the mode and the MMU alone. -/
theorem State.wordAddr_congr {s t : State} (hp : t.flag.p = s.flag.p) (hio : t.io = s.io) (a : Word) :
    t.wordAddr a = s.wordAddr a := by
  simp only [State.wordAddr, State.translate, hp, hio]

/-- Settles O54: the word CALL pushed reads back at the address it was pushed to. -/
theorem retUndoesCall : Obligations.RetUndoesCall := by
  intro ea s pa hpa hlow hhigh
  obtain ⟨t, ht, _, hsp, hholds, _, hregs, ⟨_, hp, _, _, hio, _⟩, _⟩ := callPushesAndJumps ea s pa hpa
  refine ⟨t, ht, ?_⟩
  have hread : t.read16 (t.readReg .sp) = .ok s.pc := by
    rw [hsp, State.read16_ok]
    exact ⟨pa, (State.wordAddr_congr hp hio _).trans hpa, State.wordAt_eq_of_holdsWord hholds hlow hhigh⟩
  have hback : t.readReg .sp + 2 = s.readReg .sp := by rw [hsp]; bv_omega
  have hall : t.regs.set (Reg.bank s.flag.p .sp) (s.readReg .sp) = s.regs :=
    Regs.set_eq_of_other fun q hq => hregs q (by simpa using hq)
  rw [execRet_next hread, hback, State.writeReg, hp, State.set, hall]

/-- Settles O55, by RETI's equation for privileged mode. -/
theorem retiPopsFlagAndPc : Obligations.RetiPopsFlagAndPc := by
  intro s hp heven f
  exact ⟨_, execReti_next hp heven, rfl, State.get_set_same s .ssp _, rfl,
    fun q hq => State.get_set_other s .ssp q _ (by simpa using hq), fun _ => rfl, rfl, rfl, rfl, rfl, rfl⟩

/-- Settles O56: with P = 1 the check passes, and one field is written. -/
theorem eiDiHalt : Obligations.EiDiHalt := by
  intro s hp
  simp [exec, execEi, execDi, execHalt, State.requirePrivilege_privileged hp]

end Sys2Proof.Machine
end

section
/-! PROOF of IN, OUT and the rows of the I/O map (R53, R160, R161, R224 to R238). -/

namespace Sys2Proof.Machine

/-! ### IN and OUT -/

section
variable {s : State} {ea : Port} {a : Byte} (hp : s.flag.p = true) (ha : portAddr s ea = a.zeroExtend 16)
  (hdef : ioDefined ea a = true) (rd : Reg)
include hp ha hdef

/-- A defined OUT passes the checks, and writes its port or, at an even byte, nothing. -/
theorem execOut_next :
    exec (.out rd ea) s = .next (if ioConstantHalf (portIsByte ea) a then s
      else { s with io := s.io.portOut (portOf a) (s.readReg rd) }) := by
  simp only [exec, execOut, State.requirePrivilege_privileged hp, ha, ioAddress_zeroExtend, State.ioWrite,
    ioAligned_defined hdef, ok_bind, conclude_ok]

/-- A defined IN passes the checks, and reads 0 at an even byte, else its port. -/
theorem execInp_next {r : Word × State}
    (hr : (if ioConstantHalf (portIsByte ea) a then (0, s) else s.portIn (portOf a)) = r) :
    exec (.inp rd ea) s = .next (r.2.writeReg rd r.1) := by
  simp only [exec, execInp, State.requirePrivilege_privileged hp, ha, ioAddress_zeroExtend, State.ioRead,
    ioAligned_defined hdef, ok_bind, conclude_ok, hr]

end

/-- Settles O58: the even byte of a row is the constant half. -/
theorem outWritesPort : Obligations.OutWritesPort :=
  fun rd _ _ _ hp ha hdef => execOut_next hp ha hdef rd

/-- What a read of a port keeps, and what Rd holds after it. -/
theorem inp_frame (s : State) (rd : Reg) (v : Word) {u : State} (hu : u = s ∨ u = s.drawWord.2) :
    let t := u.writeReg rd v
    t.pc = s.pc ∧ t.cond = s.cond ∧ SameRegsBut [Reg.bank s.flag.p rd] s t ∧ SameBytes s t ∧
      SameSystem { s with draws := t.draws } t ∧ t.readReg rd = v := by
  rcases hu with rfl | rfl
  all_goals
    refine ⟨rfl, rfl, fun q hq => ?_, fun _ => rfl, by simp [SameSystem], State.readReg_writeReg_same _ _ _⟩
    exact State.get_writeReg_other _ rd q v (by simpa using hq)

/-- Settles O57: the value is the constant half, the printed one, or a masked free word. -/
theorem inReadsPort : Obligations.InReadsPort := by
  intro rd ea s a hp ha hdef
  have hconst : ioConstantHalf (portIsByte ea) a = (portIsByte ea && !a.getLsbD 0) := rfl
  cases hhalf : portIsByte ea && !a.getLsbD 0 with
  | true =>
    have hnext := execInp_next hp ha hdef rd (r := (0, s)) (by rw [hconst, hhalf]; rfl)
    obtain ⟨hpc, hcond, hregs, hbytes, hsystem, hrd⟩ := inp_frame s rd 0 (.inl rfl)
    exact ⟨_, hnext, hpc, hcond, hregs, hbytes, hsystem, hrd, rfl⟩
  | false =>
    have hnext := execInp_next hp ha hdef rd (r := s.portIn (portOf a)) (by rw [hconst, hhalf]; rfl)
    obtain ⟨hpc, hcond, hregs, hbytes, hsystem, hrd⟩ :=
      inp_frame s rd (s.portIn (portOf a)).1 (s.portIn_state (portOf a))
    refine ⟨_, hnext, hpc, hcond, hregs, hbytes, hsystem, ?_⟩
    simp only [Bool.false_eq_true, if_false]
    split
    · rename_i v hv
      exact ⟨hrd.trans (by rw [State.portIn, hv]), by rw [State.portIn, hv]; rfl⟩
    · rename_i hv
      rw [hrd, State.portIn, hv, BitVec.and_assoc, BitVec.and_self]

/-! ### What OUT sets -/

/-- The rows that take nothing: input only, free or reserved (R234, R238). -/
def IoPort.takesNothing : IoPort → Bool
  | .boardMode | .adc _ | .consoleAddr | .rotary | .func | .free => true
  | _ => false

theorem Devices.portOut_takesNothing {p : IoPort} (h : p.takesNothing = true) (d : Devices) (v : Word) :
    d.portOut p v = d := by
  cases p
  case boardMode | adc | consoleAddr | rotary | func | free => rfl
  all_goals cases h

theorem portOf_takesNothing (a : Byte) :
    (0x1E ≤ a.toNat ∧ a.toNat ≤ 0x27) ∨ (0x2E ≤ a.toNat ∧ a.toNat ≤ 0xEF) ∨ a.toNat = 0xF2 ∨ a.toNat = 0xF3 ∨
      0xFA ≤ a.toNat → (portOf a).takesNothing = true := by
  revert a; decide

/-- The MMU's enable bit is bit 0 of the word as of its low byte (R55). -/
theorem Devices.portOut_mmuEnable (d : Devices) (v : Word) :
    d.portOut .mmuEnable v = { d with mmu := { d.mmu with enable := v.getLsbD 0 } } := by
  simp [Devices.portOut, lowByte]

/-- Settles O59: each row by `portOut`'s own clause, the silent rows by their address ranges. -/
theorem portsOut : Obligations.PortsOut := by
  intro d v b row
  refine ⟨⟨rfl, rfl⟩, ⟨rfl, rfl⟩, ⟨rfl, rfl⟩, ⟨rfl, rfl⟩, ⟨rfl, rfl⟩, ⟨rfl, rfl⟩, ⟨rfl, rfl⟩, ⟨rfl, rfl⟩, ⟨rfl, rfl⟩,
    ⟨rfl, rfl⟩, ⟨rfl, rfl⟩, ⟨rfl, rfl⟩, ⟨rfl, rfl⟩, ⟨rfl, rfl⟩, ⟨rfl, rfl⟩, ⟨rfl, rfl⟩, ⟨rfl, rfl⟩, ⟨rfl, rfl⟩, ⟨?_, ?_⟩,
    ⟨rfl, rfl⟩, ⟨rfl, rfl⟩, ⟨rfl, rfl⟩, fun a ha => Devices.portOut_takesNothing (portOf_takesNothing a ha) d v⟩ <;>
    exact d.portOut_mmuEnable v

/-! ### What IN reads -/

theorem Serial.statByte_word (p : Serial) :
    p.statByte.zeroExtend 16 = 0#8 ++ BitVec.ofBool p.txReady ++ BitVec.ofBool p.rxReady ++ 0#6 := by
  rw [Serial.statByte]
  cases p.txReady <;> cases p.rxReady <;> rfl

theorem Usd.statByte_word (u : Usd) :
    u.statByte.zeroExtend 16 = 0#12 ++ BitVec.ofBool u.idle ++ BitVec.ofBool u.error ++ 0#2 := by
  rw [Usd.statByte]
  cases u.idle <;> cases u.error <;> rfl

/-- A field that stands alone in the low bits of its port. -/
theorem zeroExtend_eq_append {n k : Nat} (x : BitVec n) : x.zeroExtend (k + n) = 0#k ++ x := by
  apply BitVec.eq_of_toNat_eq
  have hx : x.toNat < 2 ^ (k + n) := x.isLt.trans_le (Nat.pow_le_pow_right (by decide) (Nat.le_add_left n k))
  simp [BitVec.toNat_append, Nat.mod_eq_of_lt hx]

theorem portOf_presentsZero (a : Byte) :
    (0x2E ≤ a.toNat ∧ a.toNat ≤ 0xEF) ∨ (0xF2 ≤ a.toNat ∧ a.toNat ≤ 0xF7) →
      portOf a ∈ [IoPort.free, .mmuBase, .mmuLimit] := by
  revert a; decide

theorem Devices.present_zero {p : IoPort} (h : p ∈ [IoPort.free, .mmuBase, .mmuLimit]) (d : Devices) :
    d.present p = some 0 := by
  simp only [List.mem_cons, List.not_mem_nil, or_false] at h
  rcases h with rfl | rfl | rfl <;> rfl

theorem portOf_isWide (a : Byte) :
    (portOf a).isWide = true ↔
      (a &&& 0xFE) ∈ [0x00#8, 0x02#8, 0x04#8, 0x06#8, 0x12#8, 0x14#8, 0x16#8, 0xF4#8, 0xF6#8, 0xF8#8, 0xFA#8] := by
  revert a; decide

/-- Settles O60: each row by `present`'s own clause, the status words by their bits. -/
theorem portsIn : Obligations.PortsIn := by
  intro d row free
  have hserial (p : Serial) := congrArg some p.statByte_word
  have husd := congrArg some d.usd.statByte_word
  have hmode := congrArg some (zeroExtend_eq_append (k := 13) d.boardMode)
  have hrotary := congrArg some (zeroExtend_eq_append (k := 11) d.console.rotary)
  have hfunc := congrArg some (zeroExtend_eq_append (k := 12) d.console.func)
  refine ⟨⟨rfl, rfl⟩, ⟨rfl, rfl⟩, ⟨rfl, rfl⟩, ⟨rfl, rfl⟩, ⟨rfl, rfl⟩, ⟨hserial _, hserial _⟩, ⟨rfl, rfl⟩,
    ⟨hserial _, hserial _⟩, ⟨husd, husd⟩, ⟨rfl, rfl⟩, ⟨hmode, hmode⟩, ⟨rfl, rfl⟩, ⟨rfl, rfl⟩, ⟨rfl, rfl⟩,
    ⟨rfl, rfl⟩, ⟨rfl, rfl⟩, ⟨hserial _, hserial _⟩, ⟨rfl, rfl⟩, ⟨rfl, rfl⟩, ⟨hrotary, hrotary⟩, ⟨hfunc, hfunc⟩,
    fun a ha => Devices.present_zero (portOf_presentsZero a ha) d, ⟨⟨rfl, rfl⟩, rfl, rfl⟩, ⟨⟨rfl, rfl⟩, rfl, rfl⟩,
    ⟨⟨rfl, rfl⟩, rfl, rfl⟩, ⟨⟨rfl, rfl⟩, rfl, rfl⟩, ⟨⟨rfl, rfl⟩, rfl, rfl⟩, ⟨⟨rfl, rfl⟩, rfl, rfl⟩,
    ⟨⟨rfl, rfl⟩, rfl, rfl⟩, portOf_isWide⟩

end Sys2Proof.Machine
end
